-- ==== Sys2Proof/Word.lean ====
section
/-! DEFINITION. The byte and the packed word's type (spec/30_encoding.md R86). Every data value of the machine (a register, operand, ALU result, immediate, program counter or address) is a mathematical integer, an `Int` (spec/00_scope.md R11). -/

namespace Sys2Proof

/-- One byte of the data memory (20_memory.md R56). -/
abbrev Byte := BitVec 8

/-- The spec's 88-bit packed word, bit 87 the most significant (30_encoding.md R86). -/
abbrev PackedWord := BitVec 88

end Sys2Proof
end

