-- ==== Sys2Proof/Config.lean ====
section
/-! DEFINITION. The parameters of a run (spec/00_scope.md R7, R9, R10), their constraints (R8), the default set P0, and the one free value. -/

namespace Sys2Proof

/-- `BYTE_ORDER` (00_scope.md R9). -/
inductive ByteOrder where
  | big
  | little
  deriving DecidableEq, Repr

/-- `UNWRITTEN_READ` (00_scope.md R10; 20_memory.md R62). -/
inductive UnwrittenRead where
  | fault
  | any
  | zero
  deriving DecidableEq, Repr

/-- `NARROW_STORE_CHECK` (00_scope.md R10; 20_memory.md R59). -/
inductive NarrowStoreCheck where
  | fault
  | truncate
  deriving DecidableEq, Repr

/-- `SLL_MODE` (00_scope.md R10; 42_alu_immediate_shift.md R184). -/
inductive SllMode where
  | truncate32
  | rangecheck
  deriving DecidableEq, Repr

/-- `SLT_MODE` (00_scope.md R10; 41_alu_register.md R166). -/
inductive SltMode where
  | wide
  | signed32
  deriving DecidableEq, Repr

/-- `SHAMT_MODE` (00_scope.md R10; 42_alu_immediate_shift.md R186). -/
inductive ShamtMode where
  | fault
  | mod32
  deriving DecidableEq, Repr

/-- The parameters of a run: constants that no instruction can change (00_scope.md R7, R9, R10; 10_state.md R20). -/
structure Config where
  /-- `TEXT_BASE`, lowest instruction address. -/
  textBase : Nat
  /-- `DATA_BASE`, lowest data address. -/
  dataBase : Nat
  /-- `STACK_END`, exclusive upper bound of data addresses. -/
  stackEnd : Nat
  /-- `GP_INIT`, reset value of register 28. -/
  gpInit : Int
  /-- `SP_INIT`, reset value of register 29. -/
  spInit : Int
  /-- `ENTRY`, the first fetch address. -/
  entry : Nat
  /-- `ENTRY_SYMBOL`, name of the entry label. -/
  entrySymbol : String
  /-- `BYTE_ORDER`. -/
  byteOrder : ByteOrder
  /-- `FWD_ZERO_EXCLUDED`. -/
  fwdZeroExcluded : Bool
  /-- `HALT_BEFORE_FINAL_STEP`. -/
  haltBeforeFinalStep : Bool
  /-- `UNWRITTEN_READ`. -/
  unwrittenRead : UnwrittenRead
  /-- `NARROW_STORE_CHECK`. -/
  narrowStoreCheck : NarrowStoreCheck
  /-- `SLL_MODE`. -/
  sllMode : SllMode
  /-- `SLT_MODE`. -/
  sltMode : SltMode
  /-- `SHAMT_MODE`. -/
  shamtMode : ShamtMode
  deriving DecidableEq, Repr

/-- Parameter set P0 with `BYTE_ORDER = big` and the default switches (00_scope.md R7, R9, R10).
PRESUMED: the spec takes these address numbers from general knowledge (notes/assumptions/1.md). -/
def Config.p0 : Config where
  textBase := 0x00400000
  dataBase := 0x10000000
  stackEnd := 0x80000000
  gpInit := 0x10008000
  spInit := 0x7FFFFFF8
  entry := 0x00400000
  entrySymbol := "main"
  byteOrder := .big
  fwdZeroExcluded := false
  haltBeforeFinalStep := true
  unwrittenRead := .fault
  narrowStoreCheck := .fault
  sllMode := .truncate32
  sltMode := .wide
  shamtMode := .fault

/-- The constraints every parameter set must meet (00_scope.md R8). -/
abbrev Config.Admissible (c : Config) : Prop :=
  (c.textBase : Int) < 4294967296 ∧ c.textBase % 4 = 0 ∧
  c.dataBase < c.stackEnd ∧ (c.stackEnd : Int) ≤ 4294967296 ∧
  (-2147483648 ≤ c.gpInit ∧ c.gpInit < 4294967296) ∧
  (-2147483648 ≤ c.spInit ∧ c.spInit < 4294967296) ∧
  c.textBase ≤ c.entry ∧ c.entry % 4 = 0 ∧ (c.entry : Int) < 4294967296

/-- The byte an unwritten address gives at the k-th such read under `UNWRITTEN_READ = any`: an arbitrary
value, chosen afresh at every read (20_memory.md R62). A free value: nothing constrains it. -/
opaque Config.freeByte : Nat → Byte

end Sys2Proof
end

