-- ==== Sys2Proof/Syntax.lean ====
section
/-! DEFINITION. The instruction record (spec/30_encoding.md R80 to R85) as one inductive, one constructor per opcode. -/

namespace Sys2Proof

/-- The 26 opcodes of 30_encoding.md R84 with the operand slots their format uses (R85), each a register
number, and the 64-bit signed immediate every record has (R80, R82), kept also where the format ignores it.
A slot the format does not use holds `UNUSED` (R81) and has no field here. -/
inductive Instr where
  /-- Format N, tag 0 (45_system.md R240). -/
  | nop (imm : Int)
  /-- Format R, tag 1 (41_alu_register.md R161). -/
  | add (rd rs rt : Nat) (imm : Int)
  /-- Format R, tag 2 (R162). -/
  | sub (rd rs rt : Nat) (imm : Int)
  /-- Format R, tag 3 (R163). -/
  | and (rd rs rt : Nat) (imm : Int)
  /-- Format R, tag 4 (R164). -/
  | or (rd rs rt : Nat) (imm : Int)
  /-- Format R, tag 5 (R165). -/
  | nor (rd rs rt : Nat) (imm : Int)
  /-- Format R, tag 6 (R166). -/
  | slt (rd rs rt : Nat) (imm : Int)
  /-- Format R, tag 7 (R167). -/
  | sltu (rd rs rt : Nat) (imm : Int)
  /-- Format SH, tag 8 (42_alu_immediate_shift.md R184). -/
  | sll (rd rt : Nat) (imm : Int)
  /-- Format SH, tag 9 (R185). -/
  | srl (rd rt : Nat) (imm : Int)
  /-- Format I, tag 10 (R180). -/
  | addi (rd rs : Nat) (imm : Int)
  /-- Format I, tag 11 (R181). -/
  | andi (rd rs : Nat) (imm : Int)
  /-- Format I, tag 12 (R182). -/
  | ori (rd rs : Nat) (imm : Int)
  /-- Format U, tag 13 (R183). -/
  | lui (rd : Nat) (imm : Int)
  /-- Format L, tag 14 (43_load_store.md R201). -/
  | lw (rd rs : Nat) (imm : Int)
  /-- Format L, tag 15 (R202). -/
  | lh (rd rs : Nat) (imm : Int)
  /-- Format L, tag 16 (R203). -/
  | lhu (rd rs : Nat) (imm : Int)
  /-- Format L, tag 17 (R204). -/
  | lb (rd rs : Nat) (imm : Int)
  /-- Format L, tag 18 (R205). -/
  | lbu (rd rs : Nat) (imm : Int)
  /-- Format S, tag 19 (R206). -/
  | sw (rs rt : Nat) (imm : Int)
  /-- Format S, tag 20 (R207). -/
  | sh (rs rt : Nat) (imm : Int)
  /-- Format S, tag 21 (R208). -/
  | sb (rs rt : Nat) (imm : Int)
  /-- Format B, tag 22 (44_control_transfer.md R220). -/
  | beq (rs rt : Nat) (imm : Int)
  /-- Format B, tag 23 (R221). -/
  | bne (rs rt : Nat) (imm : Int)
  /-- Format J, tag 24 (R222). -/
  | j (imm : Int)
  /-- Format N, tag 25 (45_system.md R241). -/
  | syscall (imm : Int)
  deriving DecidableEq, Repr

end Sys2Proof
end

