-- ==== Sys2Proof/WellFormed.lean ====
section
/-! DEFINITION. Well-formed instruction records (spec/30_encoding.md R89). -/

namespace Sys2Proof

/-- A slot the format uses holds a register index 0 to 31 (R89). -/
abbrev RegisterIndex (r : Nat) : Prop := r < 32

/-- The immediate is a 64-bit signed integer (R80, R89). -/
abbrev Imm64 (imm : Int) : Prop := -9223372036854775808 ≤ imm ∧ imm < 9223372036854775808

/-- A record is well formed iff every slot its format uses holds a register index and its immediate
fits 64 bits (R89). That the slots its format does not use hold `UNUSED` is in the shape of `Instr`. -/
def Instr.wellFormed : Instr → Bool
  | .nop imm => decide (Imm64 imm)
  | .add rd rs rt imm => decide (RegisterIndex rd ∧ RegisterIndex rs ∧ RegisterIndex rt ∧ Imm64 imm)
  | .sub rd rs rt imm => decide (RegisterIndex rd ∧ RegisterIndex rs ∧ RegisterIndex rt ∧ Imm64 imm)
  | .and rd rs rt imm => decide (RegisterIndex rd ∧ RegisterIndex rs ∧ RegisterIndex rt ∧ Imm64 imm)
  | .or rd rs rt imm => decide (RegisterIndex rd ∧ RegisterIndex rs ∧ RegisterIndex rt ∧ Imm64 imm)
  | .nor rd rs rt imm => decide (RegisterIndex rd ∧ RegisterIndex rs ∧ RegisterIndex rt ∧ Imm64 imm)
  | .slt rd rs rt imm => decide (RegisterIndex rd ∧ RegisterIndex rs ∧ RegisterIndex rt ∧ Imm64 imm)
  | .sltu rd rs rt imm => decide (RegisterIndex rd ∧ RegisterIndex rs ∧ RegisterIndex rt ∧ Imm64 imm)
  | .sll rd rt imm => decide (RegisterIndex rd ∧ RegisterIndex rt ∧ Imm64 imm)
  | .srl rd rt imm => decide (RegisterIndex rd ∧ RegisterIndex rt ∧ Imm64 imm)
  | .addi rd rs imm => decide (RegisterIndex rd ∧ RegisterIndex rs ∧ Imm64 imm)
  | .andi rd rs imm => decide (RegisterIndex rd ∧ RegisterIndex rs ∧ Imm64 imm)
  | .ori rd rs imm => decide (RegisterIndex rd ∧ RegisterIndex rs ∧ Imm64 imm)
  | .lui rd imm => decide (RegisterIndex rd ∧ Imm64 imm)
  | .lw rd rs imm => decide (RegisterIndex rd ∧ RegisterIndex rs ∧ Imm64 imm)
  | .lh rd rs imm => decide (RegisterIndex rd ∧ RegisterIndex rs ∧ Imm64 imm)
  | .lhu rd rs imm => decide (RegisterIndex rd ∧ RegisterIndex rs ∧ Imm64 imm)
  | .lb rd rs imm => decide (RegisterIndex rd ∧ RegisterIndex rs ∧ Imm64 imm)
  | .lbu rd rs imm => decide (RegisterIndex rd ∧ RegisterIndex rs ∧ Imm64 imm)
  | .sw rs rt imm => decide (RegisterIndex rs ∧ RegisterIndex rt ∧ Imm64 imm)
  | .sh rs rt imm => decide (RegisterIndex rs ∧ RegisterIndex rt ∧ Imm64 imm)
  | .sb rs rt imm => decide (RegisterIndex rs ∧ RegisterIndex rt ∧ Imm64 imm)
  | .beq rs rt imm => decide (RegisterIndex rs ∧ RegisterIndex rt ∧ Imm64 imm)
  | .bne rs rt imm => decide (RegisterIndex rs ∧ RegisterIndex rt ∧ Imm64 imm)
  | .j imm => decide (Imm64 imm)
  | .syscall imm => decide (Imm64 imm)

end Sys2Proof
end

