-- ==== Sys2Proof/Decode.lean ====
section
/-! DEFINITION. The packed word (spec/30_encoding.md R86 to R90): its fields, the decoder, total on all 88-bit words, and the encoder. -/

namespace Sys2Proof

/-- Why a packed word spells no instruction (30_encoding.md R90). -/
inductive DecodeError where
  /-- The tag is 26 to 63. -/
  | illegalTag (tag : Nat)
  /-- A slot field holds 32 to 62. -/
  | illegalSlotCode (code : Nat)
  /-- A slot the format uses holds 63 (`UNUSED`). -/
  | usedSlotIsUnused
  /-- A slot the format does not use holds a register index. -/
  | unusedSlotHoldsRegister (code : Nat)
  deriving DecidableEq, Repr

/-- `W[87:82]` (R86). -/
def wordTag (w : PackedWord) : Nat := (w.extractLsb' 82 6).toNat
/-- `W[81:76]` (R86). -/
def wordRd (w : PackedWord) : Nat := (w.extractLsb' 76 6).toNat
/-- `W[75:70]` (R86). -/
def wordRs (w : PackedWord) : Nat := (w.extractLsb' 70 6).toNat
/-- `W[69:64]` (R86). -/
def wordRt (w : PackedWord) : Nat := (w.extractLsb' 64 6).toNat
/-- `W[63:0]`, a 64-bit two's-complement number (R86). -/
def wordImm (w : PackedWord) : Int := (w.extractLsb' 0 64).toInt

/-- The slot code of `UNUSED` (R88). -/
abbrev unusedCode : Nat := 63

/-- Read a slot that the format uses: 0 to 31 (R88, R90). -/
def usedSlot (code : Nat) : Except DecodeError Nat :=
  if code < 32 then .ok code
  else if code = unusedCode then .error .usedSlotIsUnused
  else .error (.illegalSlotCode code)

/-- Check a slot that the format does not use: it must hold 63 (R88, R90). -/
def unusedSlot (code : Nat) : Except DecodeError Unit :=
  if code = unusedCode then .ok ()
  else if code < 32 then .error (.unusedSlotHoldsRegister code)
  else .error (.illegalSlotCode code)

/-- Formats N and J: no slot used (R85). -/
def decodeNoSlot (mk : Int → Instr) (w : PackedWord) : Except DecodeError Instr := do
  unusedSlot (wordRd w)
  unusedSlot (wordRs w)
  unusedSlot (wordRt w)
  return mk (wordImm w)

/-- Format R: rd, rs, rt (R85). -/
def decodeRdRsRt (mk : Nat → Nat → Nat → Int → Instr) (w : PackedWord) : Except DecodeError Instr := do
  let rd ← usedSlot (wordRd w)
  let rs ← usedSlot (wordRs w)
  let rt ← usedSlot (wordRt w)
  return mk rd rs rt (wordImm w)

/-- Format SH: rd, rt (R85). -/
def decodeRdRt (mk : Nat → Nat → Int → Instr) (w : PackedWord) : Except DecodeError Instr := do
  let rd ← usedSlot (wordRd w)
  unusedSlot (wordRs w)
  let rt ← usedSlot (wordRt w)
  return mk rd rt (wordImm w)

/-- Formats I and L: rd, rs (R85). -/
def decodeRdRs (mk : Nat → Nat → Int → Instr) (w : PackedWord) : Except DecodeError Instr := do
  let rd ← usedSlot (wordRd w)
  let rs ← usedSlot (wordRs w)
  unusedSlot (wordRt w)
  return mk rd rs (wordImm w)

/-- Format U: rd (R85). -/
def decodeRd (mk : Nat → Int → Instr) (w : PackedWord) : Except DecodeError Instr := do
  let rd ← usedSlot (wordRd w)
  unusedSlot (wordRs w)
  unusedSlot (wordRt w)
  return mk rd (wordImm w)

/-- Formats S and B: rs, rt (R85). -/
def decodeRsRt (mk : Nat → Nat → Int → Instr) (w : PackedWord) : Except DecodeError Instr := do
  unusedSlot (wordRd w)
  let rs ← usedSlot (wordRs w)
  let rt ← usedSlot (wordRt w)
  return mk rs rt (wordImm w)

/-- The decoder: a well-formed instruction or the reason the word is illegal (R90), by tag (R84, R87). -/
def decode (w : PackedWord) : Except DecodeError Instr :=
  match wordTag w with
  | 0 => decodeNoSlot .nop w
  | 1 => decodeRdRsRt .add w
  | 2 => decodeRdRsRt .sub w
  | 3 => decodeRdRsRt .and w
  | 4 => decodeRdRsRt .or w
  | 5 => decodeRdRsRt .nor w
  | 6 => decodeRdRsRt .slt w
  | 7 => decodeRdRsRt .sltu w
  | 8 => decodeRdRt .sll w
  | 9 => decodeRdRt .srl w
  | 10 => decodeRdRs .addi w
  | 11 => decodeRdRs .andi w
  | 12 => decodeRdRs .ori w
  | 13 => decodeRd .lui w
  | 14 => decodeRdRs .lw w
  | 15 => decodeRdRs .lh w
  | 16 => decodeRdRs .lhu w
  | 17 => decodeRdRs .lb w
  | 18 => decodeRdRs .lbu w
  | 19 => decodeRsRt .sw w
  | 20 => decodeRsRt .sh w
  | 21 => decodeRsRt .sb w
  | 22 => decodeRsRt .beq w
  | 23 => decodeRsRt .bne w
  | 24 => decodeNoSlot .j w
  | 25 => decodeNoSlot .syscall w
  | tag => .error (.illegalTag tag)

/-- The tag number of each opcode (R84). -/
def Instr.tag : Instr → Nat
  | .nop .. => 0
  | .add .. => 1
  | .sub .. => 2
  | .and .. => 3
  | .or .. => 4
  | .nor .. => 5
  | .slt .. => 6
  | .sltu .. => 7
  | .sll .. => 8
  | .srl .. => 9
  | .addi .. => 10
  | .andi .. => 11
  | .ori .. => 12
  | .lui .. => 13
  | .lw .. => 14
  | .lh .. => 15
  | .lhu .. => 16
  | .lb .. => 17
  | .lbu .. => 18
  | .sw .. => 19
  | .sh .. => 20
  | .sb .. => 21
  | .beq .. => 22
  | .bne .. => 23
  | .j .. => 24
  | .syscall .. => 25

/-- The `rd` slot of the record, `none` where it is `UNUSED` (R80, R81, R85). -/
def Instr.rd? : Instr → Option Nat
  | .add rd .. | .sub rd .. | .and rd .. | .or rd .. | .nor rd .. | .slt rd .. | .sltu rd .. => some rd
  | .sll rd .. | .srl rd .. => some rd
  | .addi rd .. | .andi rd .. | .ori rd .. => some rd
  | .lui rd .. => some rd
  | .lw rd .. | .lh rd .. | .lhu rd .. | .lb rd .. | .lbu rd .. => some rd
  | .sw .. | .sh .. | .sb .. | .beq .. | .bne .. | .j .. | .nop .. | .syscall .. => none

/-- The `rs` slot of the record, `none` where it is `UNUSED` (R80, R81, R85). -/
def Instr.rs? : Instr → Option Nat
  | .add _ rs .. | .sub _ rs .. | .and _ rs .. | .or _ rs .. | .nor _ rs .. | .slt _ rs .. | .sltu _ rs .. => some rs
  | .addi _ rs .. | .andi _ rs .. | .ori _ rs .. => some rs
  | .lw _ rs .. | .lh _ rs .. | .lhu _ rs .. | .lb _ rs .. | .lbu _ rs .. => some rs
  | .sw rs .. | .sh rs .. | .sb rs .. | .beq rs .. | .bne rs .. => some rs
  | .sll .. | .srl .. | .lui .. | .j .. | .nop .. | .syscall .. => none

/-- The `rt` slot of the record, `none` where it is `UNUSED` (R80, R81, R85). -/
def Instr.rt? : Instr → Option Nat
  | .add _ _ rt _ | .sub _ _ rt _ | .and _ _ rt _ | .or _ _ rt _ | .nor _ _ rt _ | .slt _ _ rt _ | .sltu _ _ rt _ => some rt
  | .sll _ rt _ | .srl _ rt _ => some rt
  | .sw _ rt _ | .sh _ rt _ | .sb _ rt _ | .beq _ rt _ | .bne _ rt _ => some rt
  | .addi .. | .andi .. | .ori .. | .lui .. | .lw .. | .lh .. | .lhu .. | .lb .. | .lbu .. => none
  | .j .. | .nop .. | .syscall .. => none

/-- The immediate of the record (R80, R82). -/
def Instr.imm : Instr → Int
  | .nop imm | .j imm | .syscall imm => imm
  | .add _ _ _ imm | .sub _ _ _ imm | .and _ _ _ imm | .or _ _ _ imm | .nor _ _ _ imm | .slt _ _ _ imm | .sltu _ _ _ imm => imm
  | .sll _ _ imm | .srl _ _ imm => imm
  | .addi _ _ imm | .andi _ _ imm | .ori _ _ imm => imm
  | .lui _ imm => imm
  | .lw _ _ imm | .lh _ _ imm | .lhu _ _ imm | .lb _ _ imm | .lbu _ _ imm => imm
  | .sw _ _ imm | .sh _ _ imm | .sb _ _ imm => imm
  | .beq _ _ imm | .bne _ _ imm => imm

/-- The slot code of a slot (R88). -/
def slotCode : Option Nat → Nat
  | some r => r
  | none => unusedCode

/-- Lay the five fields out in the packed word (R86). -/
def packWord (tag rd rs rt : Nat) (imm : Int) : PackedWord :=
  BitVec.ofNat 6 tag ++ BitVec.ofNat 6 rd ++ BitVec.ofNat 6 rs ++ BitVec.ofNat 6 rt ++ BitVec.ofInt 64 imm

/-- The encoder: the packed word of an instruction (R86, R88). -/
def encode (i : Instr) : PackedWord :=
  packWord i.tag (slotCode i.rd?) (slotCode i.rs?) (slotCode i.rt?) i.imm

/-- All ones in the field of a slot that holds `UNUSED`, nothing in the field of a used one (R87). -/
def unusedFieldBits : Option Nat → Nat
  | some _ => 0
  | none => 63

/-- `mask` of an instruction's opcode: the tag field and every slot field its format does not use (R87). -/
def opcodeMask (i : Instr) : PackedWord :=
  packWord 63 (unusedFieldBits i.rd?) (unusedFieldBits i.rs?) (unusedFieldBits i.rt?) 0

/-- `match` of an instruction's opcode: the tag, and 63 in every slot field its format does not use (R87). -/
def opcodeMatch (i : Instr) : PackedWord :=
  packWord i.tag (unusedFieldBits i.rd?) (unusedFieldBits i.rs?) (unusedFieldBits i.rt?) 0

/-- The instruction the decoder reads from an opcode-table word: `w` is the packed word as a number, bit 0
the least significant, and its bits from `nbits` up are 0. A number of more than 88 bits is no packed word. -/
def decodeTableWord (nbits w : Nat) : Option Instr :=
  let bits := w % 2 ^ nbits
  if bits < 2 ^ 88 then
    match decode (BitVec.ofNat 88 bits) with
    | .ok i => some i
    | .error _ => none
  else none

end Sys2Proof
end

