-- ==== Sys2Proof/Machine/State.lean ====
section
/-! DEFINITION. The state of the machine (spec/10_state.md R20 to R44), its faults (spec/60_exceptions.md R250 to R262), its refusals, and the state after reset (R43). -/

namespace Sys2Proof.Machine

/-- The fatal errors of a run (60_exceptions.md R250, R252 to R262). Each ends the run; each is the hardware's
own stop, so each is safe: nothing is claimed of what follows. -/
inductive Fault where
  /-- An instruction-memory access at `a < TEXT_BASE` or `a >= 2^32` (R252). Raised by fetch and by the link step. Safe. -/
  | instrAddressInvalid (a : Int)
  /-- An instruction-memory access at an address that is no multiple of 4 (R253). Raised by fetch and by the link step. Safe. -/
  | instrAddressMisaligned (a : Int)
  /-- A load or store of `n` bytes outside the data memory (R254). Raised by the instruction in MEM. Safe. -/
  | dataAddressInvalid (a : Int) (n : Nat)
  /-- A load or store whose address is no multiple of its size (R255). Raised by the instruction in MEM. Safe. -/
  | dataAddressMisaligned (a : Int) (n : Nat)
  /-- A register-file operation with an index outside 0 to 31 (R256). Raised by register reads and writes of ill-formed records only. Safe. -/
  | invalidRegisterNumber (i : Nat)
  /-- A register write of a value outside `[-2^31, 2^32)` (R257). Raised by the commit of a hand-built WB record, or by reset parameters out of range. Safe. -/
  | registerValueRange (v : Int)
  /-- An ALU result outside `[-2^31, 2^32)` (R258). Raised by the instruction in EX. Safe. -/
  | arithmeticOverflow (r : Int)
  /-- A store of `n` bytes of a value that does not fit, under `NARROW_STORE_CHECK = fault` (R259). Raised by the store in MEM. Safe. -/
  | storeValueAssertion (v : Int) (n : Nat)
  /-- A load of a byte no store has written, under `UNWRITTEN_READ = fault` (R260). Raised by the load in MEM. Safe. -/
  | uninitialisedRead (a : Int)
  /-- A shift amount outside 0 to 31, under `SHAMT_MODE = fault` (R261). Raised by the shift in EX. Safe. -/
  | invalidShiftAmount (s : Int)
  deriving DecidableEq, Repr

/-- The errors detected before any cycle runs (60_exceptions.md R251). -/
inductive StaticError where
  /-- The program does not define exactly one label named `ENTRY_SYMBOL`. -/
  | missingEntryLabel
  /-- The external parser failed. -/
  | parseFailure
  /-- A label reference names a label the symbol table does not have. -/
  | unresolvedLabel (name : String)
  /-- A record that is not well formed, or a packed word that spells no instruction (30_encoding.md R90). -/
  | illegalInstruction
  deriving DecidableEq, Repr

/-- Why the model gives a step no meaning. -/
inductive Refusal where
  /-- An instruction without a meaning in this model, by its mnemonic: raised by an arm of `exec`. Safe. -/
  | notModelled (mnemonic : String)
  /-- A static error kept the run from starting (60_exceptions.md R251): raised by `boot`, and by a step of a state whose status is `rejected`. Safe. -/
  | staticError (e : StaticError)
  /-- A hand-built pipeline record lacks an operand its instruction reads (10_state.md R35: the ALU never reads
  a `NONE` operand): raised by the EX and MEM stages in states no run reaches. Safe. -/
  | operandMissing
  deriving DecidableEq, Repr

/-- How a computation inside a step can end early. -/
inductive Stop where
  | fault (f : Fault)
  | refused (r : Refusal)
  deriving DecidableEq, Repr

/-- A computation inside a step: its result, or the stop that ends the step. -/
abbrev Res (α : Type) := Except Stop α

/-- The run status (10_state.md R41). -/
inductive RunStatus where
  | running
  | halted
  | faulted (f : Fault)
  /-- The model's own: a static error kept the run from starting, so there is no machine (60_exceptions.md R251).
  DESIGN CHOICE, safe (notes/assumptions/9.md). -/
  | rejected (e : StaticError)
  deriving DecidableEq, Repr

/-- An instruction record as instruction memory and the pipeline hold it: the instruction, and the
display-only source line, `none` for `GENERATED` (30_encoding.md R80, R83). -/
structure InstrRec where
  op : Instr
  line : Option Nat
  deriving DecidableEq, Repr

/-- The no-operation instruction a bubble is made of (10_state.md R38), and what a never-written
instruction slot holds (20_memory.md R52). -/
def InstrRec.bubble : InstrRec := { op := .nop 0, line := none }

/-- The IF record (10_state.md R33); its `pc` is the program counter (R27). -/
structure IFRec where
  instr : InstrRec
  pc : Int
  deriving DecidableEq, Repr

/-- The ID record (10_state.md R34). -/
structure IDRec where
  instr : InstrRec
  deriving DecidableEq, Repr

/-- The EX record (10_state.md R35); `none` is the document's `NONE`. -/
structure EXRec where
  instr : InstrRec
  rsValue : Option Int
  rtValue : Option Int
  imm : Int
  deriving DecidableEq, Repr

/-- The MEM record (10_state.md R36). -/
structure MEMRec where
  instr : InstrRec
  aluResult : Int
  rtValue : Option Int
  zero : Bool
  branchTarget : Int
  deriving DecidableEq, Repr

/-- The WB record (10_state.md R37). -/
structure WBRec where
  instr : InstrRec
  result : Int
  deriving DecidableEq, Repr

/-- The bubble in ID (10_state.md R38). -/
def IDRec.bubble : IDRec := { instr := .bubble }
/-- The bubble in EX (10_state.md R38). -/
def EXRec.bubble : EXRec := { instr := .bubble, rsValue := none, rtValue := none, imm := 0 }
/-- The bubble in MEM (10_state.md R38). -/
def MEMRec.bubble : MEMRec :=
  { instr := .bubble, aluResult := 0, rtValue := none, zero := true, branchTarget := 0 }
/-- The bubble in WB (10_state.md R38). -/
def WBRec.bubble : WBRec := { instr := .bubble, result := 0 }

/-- The five pipeline registers, replaced together at the end of a step (10_state.md R39). -/
structure Pipeline where
  ifr : IFRec
  idr : IDRec
  exr : EXRec
  memr : MEMRec
  wbr : WBRec
  deriving DecidableEq, Repr

/-- The whole state of the machine (10_state.md R20), with the parameters of the run. -/
structure State where
  /-- The register file `x[0..31]` (R21). Read and written through `readReg` and `writeReg` only. -/
  regs : Vector Int 32
  /-- The five pipeline registers (R33 to R39); `pipe.ifr.pc` is the program counter (R27). -/
  pipe : Pipeline
  /-- The instruction memory by address, rising, listing no slot that holds a bubble; an unlisted slot holds `NOP` (20_memory.md R50 to R54). -/
  imem : List (Nat × InstrRec)
  /-- The written bytes of the data memory by address, rising; an unlisted byte is unwritten (20_memory.md R56). -/
  dmem : List Host.Cell
  /-- The run status (R41). -/
  status : RunStatus
  /-- The number of steps executed (R40). -/
  cycles : Nat
  /-- The number of executed steps whose WB instruction was not a no-op (R40). -/
  retired : Nat
  /-- The model's own field: how many free values have been drawn (notes/assumptions/3.md). -/
  fresh : Nat
  /-- The parameters of the run: constants (00_scope.md R7, R9, R10), which no step changes (notes/assumptions/1.md). -/
  cfg : Config
  deriving DecidableEq, Repr

/-- The program counter: the `pc` of the IF record (10_state.md R27). -/
abbrev State.pc (s : State) : Int := s.pipe.ifr.pc

/-- Replace the register file. -/
def State.withRegs (s : State) (r : Vector Int 32) : State := { s with regs := r }
/-- Replace the five pipeline registers at once (10_state.md R39). -/
def State.withPipe (s : State) (p : Pipeline) : State := { s with pipe := p }
/-- Replace the IF record. -/
def State.withIF (s : State) (r : IFRec) : State := { s with pipe := { s.pipe with ifr := r } }
/-- Replace the instruction memory. -/
def State.withImem (s : State) (m : List (Nat × InstrRec)) : State := { s with imem := m }
/-- Replace the data memory. -/
def State.withDmem (s : State) (m : List Host.Cell) : State := { s with dmem := m }
/-- Replace the run status. -/
def State.withStatus (s : State) (r : RunStatus) : State := { s with status := r }
/-- Replace the two run-loop counters. -/
def State.withCounters (s : State) (c r : Nat) : State := { s with cycles := c, retired := r }
/-- Replace the count of free values drawn. -/
def State.withFresh (s : State) (n : Nat) : State := { s with fresh := n }

/-- The register file at reset: `GP_INIT` in 28, `SP_INIT` in 29, 0 elsewhere (10_state.md R43). -/
def resetRegs (c : Config) : Vector Int 32 :=
  ((Vector.replicate 32 (0 : Int)).set 28 c.gpInit).set 29 c.spInit

/-- The pipeline at reset: the record at `ENTRY` in IF, bubbles in ID, EX, MEM and WB (10_state.md R43). -/
def resetPipe (c : Config) (first : InstrRec) : Pipeline :=
  { ifr := { instr := first, pc := c.entry }
    idr := .bubble, exr := .bubble, memr := .bubble, wbr := .bubble }

/-- The machine after reset under the parameters `c`, with no program linked: `NOP` at every
instruction address, no data byte written, counters 0, running (10_state.md R43). -/
def State.resetWith (c : Config) : State :=
  { regs := resetRegs c
    pipe := resetPipe c .bubble
    imem := []
    dmem := []
    status := .running
    cycles := 0
    retired := 0
    fresh := 0
    cfg := c }

/-- The machine after reset under parameter set P0 and the default switches (10_state.md R43). -/
def State.reset : State := State.resetWith Config.p0

end Sys2Proof.Machine
end

