-- ==== Sys2Proof/Machine/Bits.lean ====
section
/-! DEFINITION. The integer notation of the spec (spec/00_scope.md R13): `low32`, `sext_N`, and AND, OR, NOT in infinite two's complement. -/

namespace Sys2Proof.Machine

/-- `low32(v) = v mod 2^32`, in `[0, 2^32)` for every integer (R13). -/
def low32 (v : Int) : Int := v % 4294967296

/-- `sext_N(u)` for `0 <= u < 2^N`, `N >= 1` (R13). -/
def sext (bits : Nat) (u : Int) : Int :=
  if u < ((2 ^ (bits - 1) : Nat) : Int) then u else u - ((2 ^ bits : Nat) : Int)

/-- Bitwise AND in infinite two's complement (R13). `-(n+1)` has the bits of `n` inverted. -/
def bitAnd : Int → Int → Int
  | .ofNat m, .ofNat n => .ofNat (m &&& n)
  | .ofNat m, .negSucc n => .ofNat (m ^^^ (m &&& n))
  | .negSucc m, .ofNat n => .ofNat (n ^^^ (n &&& m))
  | .negSucc m, .negSucc n => .negSucc (m ||| n)

/-- Bitwise NOT in infinite two's complement: `NOT v = -v - 1` (R13). -/
def bitNot (v : Int) : Int := -v - 1

/-- Bitwise OR in infinite two's complement (R13). -/
def bitOr : Int → Int → Int
  | .ofNat m, .ofNat n => .ofNat (m ||| n)
  | .ofNat m, .negSucc n => .negSucc (n ^^^ (n &&& m))
  | .negSucc m, .ofNat n => .negSucc (m ^^^ (m &&& n))
  | .negSucc m, .negSucc n => .negSucc (m &&& n)

end Sys2Proof.Machine
end

