-- ==== Sys2Proof/Machine/Flags.lean ====
section
/-! DEFINITION. The range check of results (spec/41_alu_register.md R160), the zero flag (spec/10_state.md R30) and the taken-branch predicate (spec/40_pipeline_engine.md R117). -/

namespace Sys2Proof.Machine

/-- `raise K(info)`: the step ends with a fatal error (60_exceptions.md R250). The machine has no trap:
nothing is saved and nothing resumes (R267, R268). -/
def raise {α : Type} (f : Fault) : Res α := .error (.fault f)

/-- The model gives no meaning here (a hand-built record): the step is refused by name. -/
def refuse {α : Type} (r : Refusal) : Res α := .error (.refused r)

/-- The outcome the host reads from a computation. -/
def Res.toOutcome {α : Type} : Res α → Host.Outcome α Fault Refusal
  | .ok a => .next a
  | .error (.fault f) => .fault f
  | .error (.refused r) => .refused r

/-- `inrange32(v)`: `-2^31 <= v < 2^32` (00_scope.md R12, R14). -/
abbrev InRange32 (v : Int) : Prop := -2147483648 ≤ v ∧ v < 4294967296

/-- The ALU result check: a result outside `[-2^31, 2^32)` is a fatal arithmetic overflow (R160). -/
def checkAlu (r : Int) : Res Int :=
  if InRange32 r then .ok r else raise (.arithmeticOverflow r)

/-- The zero flag of the MEM record is `alu_result == 0` (10_state.md R30). -/
def zeroFlag (r : Int) : Bool := decide (r = 0)

/-- `BEQ` is taken with the zero flag set (40_pipeline_engine.md R117). -/
def beqCondition (zero : Bool) : Bool := zero

/-- `BNE` is taken with the zero flag clear (40_pipeline_engine.md R117). -/
def bneCondition (zero : Bool) : Bool := !zero

/-- Whether an instruction is a conditional branch whose condition holds (40_pipeline_engine.md R117). -/
def branchTaken (op : Instr) (zero : Bool) : Bool :=
  match op with
  | .beq .. => beqCondition zero
  | .bne .. => bneCondition zero
  | _ => false

/-- `takenBranch(M)`, of the current MEM record (40_pipeline_engine.md R117). -/
def takenBranch (m : MEMRec) : Bool := branchTaken m.instr.op m.zero

end Sys2Proof.Machine
end

