-- ==== Sys2Proof/Machine/Ops.lean ====
section
/-! DEFINITION. The named operations over registers (spec/10_state.md R22 to R25), instruction memory (spec/20_memory.md R51 to R53) and data memory (R55 to R62). -/

namespace Sys2Proof.Machine

/-! ### Registers -/

/-- What register `i` reads as: 0 for register 0, which is hardwired (10_state.md R22). -/
def State.reg (s : State) (i : Nat) : Int :=
  if h : 0 < i ∧ i < 32 then s.regs[i]'h.2 else 0

/-- Register read: the index must be in 0 to 31 (10_state.md R24). -/
def readReg (s : State) (i : Nat) : Res Int :=
  if i < 32 then .ok (s.reg i) else raise (.invalidRegisterNumber i)

/-- Store a value into register `i`; register 0 discards it (10_state.md R22). -/
def setReg (s : State) (i : Nat) (v : Int) : State :=
  if h : 0 < i ∧ i < 32 then s.withRegs (s.regs.set i v h.2) else s

/-- Register write: index check, range check, then the store, in this order (10_state.md R22, R25). -/
def writeReg (s : State) (i : Nat) (v : Int) : Res State :=
  if ¬ i < 32 then raise (.invalidRegisterNumber i)
  else if ¬ InRange32 v then raise (.registerValueRange v)
  else .ok (setReg s i v)

/-! ### Memories as canonical lists -/

/-- The entry at an address. -/
def cellAt {α : Type} : List (Nat × α) → Nat → Option α
  | [], _ => none
  | (k, v) :: rest, a => if k = a then some v else cellAt rest a

/-- Put an entry, keeping the addresses rising. -/
def putCell {α : Type} : List (Nat × α) → Nat → α → List (Nat × α)
  | [], a, v => [(a, v)]
  | (k, w) :: rest, a, v =>
    if k < a then (k, w) :: putCell rest a v
    else if k = a then (a, v) :: rest
    else (a, v) :: (k, w) :: rest

/-- Remove the entry at an address. -/
def dropCell {α : Type} : List (Nat × α) → Nat → List (Nat × α)
  | [], _ => []
  | (k, w) :: rest, a => if k = a then dropCell rest a else (k, w) :: dropCell rest a

/-- Every address is at least `lo`, and the addresses rise strictly. -/
def risingFrom {α : Type} (lo : Nat) : List (Nat × α) → Bool
  | [] => true
  | (k, _) :: rest => decide (lo ≤ k) && risingFrom (k + 1) rest

/-- What an unlisted byte reads as: nothing, the byte is unwritten (20_memory.md R56, R62). -/
abbrev unlistedByte : Option Byte := none

/-- The canonical form of the data memory: addresses strictly rising. No entry equals what an unlisted
address reads as, since an entry is a byte and an unlisted address is unwritten. -/
def Memory.wf (m : List Host.Cell) : Bool := risingFrom 0 m

/-- What an unlisted instruction slot holds: the no-operation instruction (20_memory.md R52). -/
abbrev unlistedInstr : InstrRec := .bubble

/-- The canonical form of the instruction memory: addresses strictly rising, no entry equal to what an
unlisted slot holds. -/
def IMemory.wf (m : List (Nat × InstrRec)) : Bool :=
  risingFrom 0 m && m.all (fun e => decide (e.2 ≠ unlistedInstr))

/-- A byte of the data memory, `none` where it is unwritten (20_memory.md R56). -/
def dataByte (s : State) (a : Nat) : Option Byte := cellAt s.dmem a

/-! ### Instruction memory -/

/-- The instruction address check (20_memory.md R51): the range fault before the alignment fault. -/
def checkInstrAddr (c : Config) (a : Int) : Res Nat :=
  if a < c.textBase ∨ 4294967296 ≤ a then raise (.instrAddressInvalid a)
  else if a % 4 ≠ 0 then raise (.instrAddressMisaligned a)
  else .ok a.toNat

/-- The record stored at a slot, `NOP` where nothing was ever written (20_memory.md R52). -/
def instrAt (s : State) (a : Nat) : InstrRec := (cellAt s.imem a).getD unlistedInstr

/-- `IMemRead(a)` (20_memory.md R52). -/
def imemRead (s : State) (a : Int) : Res InstrRec := do
  let k ← checkInstrAddr s.cfg a
  return instrAt s k

/-- Store a record in a slot, keeping the canonical form. -/
def putInstr (m : List (Nat × InstrRec)) (a : Nat) (r : InstrRec) : List (Nat × InstrRec) :=
  if r = unlistedInstr then dropCell m a else putCell m a r

/-- `IMemWrite(a, instr)`, used by the link step only (20_memory.md R53). -/
def imemWrite (s : State) (a : Int) (r : InstrRec) : Res State := do
  let k ← checkInstrAddr s.cfg a
  return s.withImem (putInstr s.imem k r)

/-- Fetch the IF record of an address: check it, read the instruction (40_pipeline_engine.md R112). -/
def fetch (s : State) (a : Int) : Res IFRec := do
  let r ← imemRead s a
  return { instr := r, pc := a }

/-! ### Data memory -/

/-- `validate(a, n)` (20_memory.md R55), on the integer the ALU produced; the answer is the address. -/
def validate (c : Config) (a : Int) (n : Nat) : Res Nat :=
  if a < c.dataBase then raise (.dataAddressInvalid a n)
  else if ¬ (a + n < c.stackEnd) then raise (.dataAddressInvalid a n)
  else if a % n ≠ 0 then raise (.dataAddressMisaligned a n)
  else .ok a.toNat

/-- The `n` bytes of `u`, least significant first. -/
def bytesLsbFirst : Nat → Nat → List Byte
  | 0, _ => []
  | n + 1, u => BitVec.ofNat 8 u :: bytesLsbFirst n (u / 256)

/-- The number whose bytes, least significant first, are given. -/
def valueLsbFirst : List Byte → Nat
  | [] => 0
  | b :: rest => b.toNat + 256 * valueLsbFirst rest

/-- The bytes of a datum at rising addresses: `big` puts the most significant byte at the lowest (20_memory.md R57). -/
def splitBytes (o : ByteOrder) (n u : Nat) : List Byte :=
  match o with
  | .big => (bytesLsbFirst n u).reverse
  | .little => bytesLsbFirst n u

/-- The datum whose bytes at rising addresses are given (20_memory.md R57). -/
def joinBytes (o : ByteOrder) (bs : List Byte) : Nat :=
  match o with
  | .big => valueLsbFirst bs.reverse
  | .little => valueLsbFirst bs

/-- Read one byte; an unwritten one follows `UNWRITTEN_READ` (20_memory.md R62), its free value drawn
by the state's own counter. -/
def readByte (s : State) (a : Nat) : Res (Byte × State) :=
  match dataByte s a with
  | some b => .ok (b, s)
  | none =>
    match s.cfg.unwrittenRead with
    | .fault => raise (.uninitialisedRead a)
    | .any => .ok (Config.freeByte s.fresh, s.withFresh (s.fresh + 1))
    | .zero => .ok (0, s)

/-- Read `n` bytes at rising addresses (20_memory.md R58). -/
def readBytes (s : State) (a : Nat) : Nat → Res (List Byte × State)
  | 0 => .ok ([], s)
  | n + 1 => do
    let (b, s1) ← readByte s a
    let (bs, s2) ← readBytes s1 (a + 1) n
    return (b :: bs, s2)

/-- `MemRead(a, n, signed)` (20_memory.md R58). The state changes only by the free values drawn. -/
def memRead (s : State) (a : Int) (n : Nat) (signed : Bool) : Res (Int × State) := do
  let k ← validate s.cfg a n
  let (bs, s1) ← readBytes s k n
  let u : Int := joinBytes s.cfg.byteOrder bs
  return (if signed then sext (8 * n) u else u, s1)

/-- Write bytes at rising addresses. -/
def writeBytes (m : List Host.Cell) (a : Nat) : List Byte → List Host.Cell
  | [] => m
  | b :: rest => writeBytes (putCell m a b) (a + 1) rest

/-- The value's bits beyond `n` bytes are a valid sign or zero extension: `-2^(8n-1) <= v < 2^(8n)` (20_memory.md R59). -/
abbrev FitsStore (v : Int) (n : Nat) : Prop :=
  -((2 ^ (8 * n - 1) : Nat) : Int) ≤ v ∧ v < ((2 ^ (8 * n) : Nat) : Int)

/-- The store check under `NARROW_STORE_CHECK` (20_memory.md R59). -/
def checkStoreValue (c : Config) (v : Int) (n : Nat) : Res Unit :=
  match c.narrowStoreCheck with
  | .truncate => .ok ()
  | .fault => if FitsStore v n then .ok () else raise (.storeValueAssertion v n)

/-- `MemWrite(a, n, v)` (20_memory.md R59). -/
def memWrite (s : State) (a : Int) (n : Nat) (v : Int) : Res State := do
  let k ← validate s.cfg a n
  checkStoreValue s.cfg v n
  let u := (v % ((2 ^ (8 * n) : Nat) : Int)).toNat
  return s.withDmem (writeBytes s.dmem k (splitBytes s.cfg.byteOrder n u))

end Sys2Proof.Machine
end

