-- ==== Sys2Proof/Machine/Operands.lean ====
section
/-! DEFINITION. The operand functions of the instruction record (spec/30_encoding.md R98, R99), the register names (spec/10_state.md R23), and the sequential form of each instruction format (spec/30_encoding.md R85). -/

namespace Sys2Proof.Machine

/-- The register the `rs` operand is read from, if the instruction reads one: the `rs` part of `regsRead` (R98). -/
def readsRs (i : Instr) : Option Nat := i.rs?

/-- The register the `rt` operand is read from, if the instruction reads one: the `rt` part of `regsRead` (R98). -/
def readsRt (i : Instr) : Option Nat := i.rt?

/-- `dest(i)`: the register the instruction writes, `none` for `UNUSED`; it may be 0 (R98). -/
def dest (i : Instr) : Option Nat := i.rd?

/-- `isLoad(i)` (R99). -/
def isLoad : Instr → Bool
  | .lw .. | .lh .. | .lhu .. | .lb .. | .lbu .. => true
  | _ => false

/-- `isStore(i)` (R99). -/
def isStore : Instr → Bool
  | .sw .. | .sh .. | .sb .. => true
  | _ => false

/-- `isBranch(i)` (R99). -/
def isBranch : Instr → Bool
  | .beq .. | .bne .. => true
  | _ => false

/-- `isJump(i)` (R99). -/
def isJump : Instr → Bool
  | .j .. => true
  | _ => false

/-- `isNop(i)` (R99). -/
def isNop : Instr → Bool
  | .nop .. => true
  | _ => false

/-- `isSyscall(i)` (R99). -/
def isSyscall : Instr → Bool
  | .syscall .. => true
  | _ => false

/-- `writesReg(i)` (R99). -/
def writesReg (i : Instr) : Bool := (dest i).isSome

/-- `accessSize(i)`: the bytes a load or store moves, 0 for every other instruction (R99; 20_memory.md R60). -/
def accessSize : Instr → Nat
  | .lw .. | .sw .. => 4
  | .lh .. | .lhu .. | .sh .. => 2
  | .lb .. | .lbu .. | .sb .. => 1
  | _ => 0

/-- `accessSigned(i)` (R99). -/
def accessSigned : Instr → Bool
  | .lw .. | .lh .. | .lb .. => true
  | _ => false

/-- The register names in index order (10_state.md R23). -/
def registerNames : List String :=
  ["zero", "at", "v0", "v1", "a0", "a1", "a2", "a3"] ++
  ["t0", "t1", "t2", "t3", "t4", "t5", "t6", "t7"] ++
  ["s0", "s1", "s2", "s3", "s4", "s5", "s6", "s7"] ++
  ["t8", "t9", "k0", "k1", "gp", "sp", "fp", "ra"]

/-- `nameOf(idx)`: outside 0 to 31 it is the fatal error `InvalidRegisterNumber` (10_state.md R23; 60_exceptions.md R256). -/
def nameOf (i : Nat) : Res String :=
  match registerNames[i]? with
  | some n => .ok n
  | none => raise (.invalidRegisterNumber i)

/-! ### Sequential forms

The sequential effect of one instruction (41_alu_register.md, template; 70_reset_and_hazards.md R294): operands
from the register file, the ALU check, the memory access, the register write, then the fetch of the next
instruction. The pipeline registers behind IF and the counters are not touched (notes/assumptions/5.md). -/

/-- `pc <- t`: the next IF record is the fetch from `t` (00_scope.md R14). -/
def goTo (s : State) (t : Int) : Res State := do
  let r ← fetch s t
  return s.withIF r

/-- The next sequential instruction is at `pc + 4` (30_encoding.md R92). -/
def advance (s : State) : Res State := goTo s (s.pc + 4)

/-- Commit a result to the destination and go on (formats R, SH, I, U). -/
def commitAndAdvance (s : State) (rd : Nat) (r : Int) : Res State := do
  let s1 ← writeReg s rd r
  advance s1

/-- Format R: two register operands. -/
def seqRdRsRt (alu : Int → Int → Res Int) (rd rs rt : Nat) (s : State) : Res State := do
  let a ← readReg s rs
  let b ← readReg s rt
  let r ← alu a b
  commitAndAdvance s rd r

/-- Format SH: the operand in `rt`, the amount in the immediate. -/
def seqRdRt (alu : Int → Int → Res Int) (rd rt : Nat) (imm : Int) (s : State) : Res State := do
  let b ← readReg s rt
  let r ← alu b imm
  commitAndAdvance s rd r

/-- Format I: a register and the immediate. -/
def seqRdRs (alu : Int → Int → Res Int) (rd rs : Nat) (imm : Int) (s : State) : Res State := do
  let a ← readReg s rs
  let r ← alu a imm
  commitAndAdvance s rd r

/-- Format U: the immediate alone. -/
def seqRd (alu : Int → Res Int) (rd : Nat) (imm : Int) (s : State) : Res State := do
  let r ← alu imm
  commitAndAdvance s rd r

/-- Format L: address, read, commit (43_load_store.md R200 to R205). -/
def seqLoad (addr : Int → Int → Res Int) (read : State → Int → Res (Int × State))
    (rd rs : Nat) (imm : Int) (s : State) : Res State := do
  let a ← readReg s rs
  let ea ← addr a imm
  let (v, s1) ← read s ea
  commitAndAdvance s1 rd v

/-- Format S: address, write (43_load_store.md R200, R206 to R208). -/
def seqStore (addr : Int → Int → Res Int) (write : State → Int → Int → Res State)
    (rs rt : Nat) (imm : Int) (s : State) : Res State := do
  let a ← readReg s rs
  let b ← readReg s rt
  let ea ← addr a imm
  let s1 ← write s ea b
  advance s1

/-- Format B: compare, then the target if the branch is taken, else the next instruction (44_control_transfer.md R220, R221). -/
def seqBranch (alu : Int → Int → Res Int) (taken : Bool → Bool)
    (rs rt : Nat) (imm : Int) (s : State) : Res State := do
  let a ← readReg s rs
  let b ← readReg s rt
  let r ← alu a b
  if taken (zeroFlag r) then goTo s imm else advance s

end Sys2Proof.Machine
end

