-- ==== Sys2Proof/Machine/AluImmediate.lean ====
section
/-! DEFINITION. The immediate ALU instructions, `LUI` and the shifts (spec/42_alu_immediate_shift.md R180 to R186): the ALU function of each, shared by the EX stage, and its sequential meaning. -/

namespace Sys2Proof.Machine

/-- `ADDI`: `rs_value + imm`, checked (R180). -/
def aluAddi (a imm : Int) : Res Int := checkAlu (a + imm)

/-- `ANDI`: `rs_value AND imm`, checked (R181). -/
def aluAndi (a imm : Int) : Res Int := checkAlu (bitAnd a imm)

/-- `ORI`: `rs_value OR imm`, checked (R182). -/
def aluOri (a imm : Int) : Res Int := checkAlu (bitOr a imm)

/-- `LUI`: `imm * 2^16`, checked (R183). -/
def aluLui (imm : Int) : Res Int := checkAlu (imm * 65536)

/-- The shift amount: 0 to 31, else by `SHAMT_MODE` a fault or the amount mod 32 (R186). -/
def shiftAmount (c : Config) (imm : Int) : Res Nat :=
  match c.shamtMode with
  | .fault => if 0 ≤ imm ∧ imm ≤ 31 then .ok imm.toNat else raise (.invalidShiftAmount imm)
  | .mod32 => .ok (imm % 32).toNat

/-- `SLL`: a 32-bit left shift delivered as a signed 32-bit number; under `SLL_MODE = rangecheck` a one bit
shifted out above bit 31 is an overflow (R184). -/
def aluSll (c : Config) (b imm : Int) : Res Int := do
  let n ← shiftAmount c imm
  let shifted := low32 b * ((2 ^ n : Nat) : Int)
  match c.sllMode with
  | .truncate32 => checkAlu (sext 32 (low32 shifted))
  | .rangecheck =>
    if shifted < 4294967296 then checkAlu (sext 32 (low32 shifted)) else raise (.arithmeticOverflow shifted)

/-- `SRL`: `floor(low32(rt_value) / 2^imm)` (R185). -/
def aluSrl (c : Config) (b imm : Int) : Res Int := do
  let n ← shiftAmount c imm
  checkAlu (low32 b / ((2 ^ n : Nat) : Int))

/-- `ADDI $rd,$rs,imm` (R180). -/
def execAddi (rd rs : Nat) (imm : Int) (s : State) : Host.Outcome State Fault Refusal :=
  (seqRdRs aluAddi rd rs imm s).toOutcome

/-- `ANDI $rd,$rs,imm` (R181). -/
def execAndi (rd rs : Nat) (imm : Int) (s : State) : Host.Outcome State Fault Refusal :=
  (seqRdRs aluAndi rd rs imm s).toOutcome

/-- `ORI $rd,$rs,imm` (R182). -/
def execOri (rd rs : Nat) (imm : Int) (s : State) : Host.Outcome State Fault Refusal :=
  (seqRdRs aluOri rd rs imm s).toOutcome

/-- `LUI $rd,imm` (R183). -/
def execLui (rd : Nat) (imm : Int) (s : State) : Host.Outcome State Fault Refusal :=
  (seqRd aluLui rd imm s).toOutcome

/-- `SLL $rd,$rt,shamt` (R184). -/
def execSll (rd rt : Nat) (imm : Int) (s : State) : Host.Outcome State Fault Refusal :=
  (seqRdRt (aluSll s.cfg) rd rt imm s).toOutcome

/-- `SRL $rd,$rt,shamt` (R185). -/
def execSrl (rd rt : Nat) (imm : Int) (s : State) : Host.Outcome State Fault Refusal :=
  (seqRdRt (aluSrl s.cfg) rd rt imm s).toOutcome

end Sys2Proof.Machine
end

