-- ==== Sys2Proof/Machine/AluRegister.lean ====
section
/-! DEFINITION. The register-register ALU instructions (spec/41_alu_register.md R160 to R168): the ALU function of each, shared by the EX stage, and its sequential meaning. -/

namespace Sys2Proof.Machine

/-- `ADD`: `rs_value + rt_value`, checked (R161). -/
def aluAdd (a b : Int) : Res Int := checkAlu (a + b)

/-- `SUB`: `rs_value - rt_value`, checked (R162). -/
def aluSub (a b : Int) : Res Int := checkAlu (a - b)

/-- `AND` on the wide values (R163). -/
def aluAnd (a b : Int) : Res Int := checkAlu (bitAnd a b)

/-- `OR` on the wide values (R164). -/
def aluOr (a b : Int) : Res Int := checkAlu (bitOr a b)

/-- `NOR`: `NOT (rs_value OR rt_value)`, checked (R165). -/
def aluNor (a b : Int) : Res Int := checkAlu (bitNot (bitOr a b))

/-- `SLT`: signed less-than, on the integers or on their low 32 bits by `SLT_MODE` (R166). -/
def aluSlt (c : Config) (a b : Int) : Res Int :=
  match c.sltMode with
  | .wide => checkAlu (if a < b then 1 else 0)
  | .signed32 => checkAlu (if sext 32 (low32 a) < sext 32 (low32 b) then 1 else 0)

/-- `SLTU`: less-than of the low 32 bits as unsigned numbers (R167). -/
def aluSltu (a b : Int) : Res Int := checkAlu (if low32 a < low32 b then 1 else 0)

/-- `ADD $rd,$rs,$rt` (R161). -/
def execAdd (rd rs rt : Nat) (s : State) : Host.Outcome State Fault Refusal :=
  (seqRdRsRt aluAdd rd rs rt s).toOutcome

/-- `SUB $rd,$rs,$rt` (R162). -/
def execSub (rd rs rt : Nat) (s : State) : Host.Outcome State Fault Refusal :=
  (seqRdRsRt aluSub rd rs rt s).toOutcome

/-- `AND $rd,$rs,$rt` (R163). -/
def execAnd (rd rs rt : Nat) (s : State) : Host.Outcome State Fault Refusal :=
  (seqRdRsRt aluAnd rd rs rt s).toOutcome

/-- `OR $rd,$rs,$rt` (R164). -/
def execOr (rd rs rt : Nat) (s : State) : Host.Outcome State Fault Refusal :=
  (seqRdRsRt aluOr rd rs rt s).toOutcome

/-- `NOR $rd,$rs,$rt` (R165). -/
def execNor (rd rs rt : Nat) (s : State) : Host.Outcome State Fault Refusal :=
  (seqRdRsRt aluNor rd rs rt s).toOutcome

/-- `SLT $rd,$rs,$rt` (R166). -/
def execSlt (rd rs rt : Nat) (s : State) : Host.Outcome State Fault Refusal :=
  (seqRdRsRt (aluSlt s.cfg) rd rs rt s).toOutcome

/-- `SLTU $rd,$rs,$rt` (R167). -/
def execSltu (rd rs rt : Nat) (s : State) : Host.Outcome State Fault Refusal :=
  (seqRdRsRt aluSltu rd rs rt s).toOutcome

end Sys2Proof.Machine
end

