-- ==== Sys2Proof/Machine/Control.lean ====
section
/-! DEFINITION. Control transfer (spec/44_control_transfer.md R220 to R226): the branch comparison, shared by the EX stage, and the sequential meanings. -/

namespace Sys2Proof.Machine

/-- The comparison of `BEQ`: `rs_value - rt_value`, checked (R220). -/
def aluBeq (a b : Int) : Res Int := checkAlu (a - b)

/-- The comparison of `BNE`: `rs_value - rt_value`, checked (R221). -/
def aluBne (a b : Int) : Res Int := checkAlu (a - b)

/-- `BEQ $rs,$rt,label`: the target is the immediate itself (R220). -/
def execBeq (rs rt : Nat) (imm : Int) (s : State) : Host.Outcome State Fault Refusal :=
  (seqBranch aluBeq beqCondition rs rt imm s).toOutcome

/-- `BNE $rs,$rt,label` (R221). -/
def execBne (rs rt : Nat) (imm : Int) (s : State) : Host.Outcome State Fault Refusal :=
  (seqBranch aluBne bneCondition rs rt imm s).toOutcome

/-- The target of `J`: the immediate itself (R222). -/
def jumpTarget (imm : Int) : Int := imm

/-- `J label` (R222). -/
def execJ (imm : Int) (s : State) : Host.Outcome State Fault Refusal :=
  (goTo s (jumpTarget imm)).toOutcome

end Sys2Proof.Machine
end

