-- ==== Sys2Proof/Machine/LoadStore.lean ====
section
/-! DEFINITION. Loads and stores (spec/43_load_store.md R200 to R210): the address, the access of each, shared by the MEM stage, and its sequential meaning. -/

namespace Sys2Proof.Machine

/-- The effective address `rs_value + imm`, checked like every ALU result (R200). -/
def effectiveAddress (a imm : Int) : Res Int := checkAlu (a + imm)

/-- The access of `LW` (R201). -/
def accessLw (s : State) (ea : Int) : Res (Int × State) := memRead s ea 4 true
/-- The access of `LH` (R202). -/
def accessLh (s : State) (ea : Int) : Res (Int × State) := memRead s ea 2 true
/-- The access of `LHU` (R203). -/
def accessLhu (s : State) (ea : Int) : Res (Int × State) := memRead s ea 2 false
/-- The access of `LB` (R204). -/
def accessLb (s : State) (ea : Int) : Res (Int × State) := memRead s ea 1 true
/-- The access of `LBU` (R205). -/
def accessLbu (s : State) (ea : Int) : Res (Int × State) := memRead s ea 1 false
/-- The access of `SW` (R206). -/
def accessSw (s : State) (ea v : Int) : Res State := memWrite s ea 4 v
/-- The access of `SH` (R207). -/
def accessSh (s : State) (ea v : Int) : Res State := memWrite s ea 2 v
/-- The access of `SB` (R208). -/
def accessSb (s : State) (ea v : Int) : Res State := memWrite s ea 1 v

/-- `LW $rd,imm($rs)` (R201). -/
def execLw (rd rs : Nat) (imm : Int) (s : State) : Host.Outcome State Fault Refusal :=
  (seqLoad effectiveAddress accessLw rd rs imm s).toOutcome

/-- `LH $rd,imm($rs)` (R202). -/
def execLh (rd rs : Nat) (imm : Int) (s : State) : Host.Outcome State Fault Refusal :=
  (seqLoad effectiveAddress accessLh rd rs imm s).toOutcome

/-- `LHU $rd,imm($rs)` (R203). -/
def execLhu (rd rs : Nat) (imm : Int) (s : State) : Host.Outcome State Fault Refusal :=
  (seqLoad effectiveAddress accessLhu rd rs imm s).toOutcome

/-- `LB $rd,imm($rs)` (R204). -/
def execLb (rd rs : Nat) (imm : Int) (s : State) : Host.Outcome State Fault Refusal :=
  (seqLoad effectiveAddress accessLb rd rs imm s).toOutcome

/-- `LBU $rd,imm($rs)` (R205). -/
def execLbu (rd rs : Nat) (imm : Int) (s : State) : Host.Outcome State Fault Refusal :=
  (seqLoad effectiveAddress accessLbu rd rs imm s).toOutcome

/-- `SW $rt,imm($rs)` (R206). -/
def execSw (rs rt : Nat) (imm : Int) (s : State) : Host.Outcome State Fault Refusal :=
  (seqStore effectiveAddress accessSw rs rt imm s).toOutcome

/-- `SH $rt,imm($rs)` (R207). -/
def execSh (rs rt : Nat) (imm : Int) (s : State) : Host.Outcome State Fault Refusal :=
  (seqStore effectiveAddress accessSh rs rt imm s).toOutcome

/-- `SB $rt,imm($rs)` (R208). -/
def execSb (rs rt : Nat) (imm : Int) (s : State) : Host.Outcome State Fault Refusal :=
  (seqStore effectiveAddress accessSb rs rt imm s).toOutcome

end Sys2Proof.Machine
end

