-- ==== Sys2Proof/Machine/System.lean ====
section
/-! DEFINITION. No-operation and system call (spec/45_system.md R240, R241). -/

namespace Sys2Proof.Machine

/-- The ALU result of `NOP`, `SYSCALL` and `J`: 0 (R240, R241; 44_control_transfer.md R222). -/
def aluIdle : Res Int := checkAlu 0

/-- The one function of the system call: the run ends (R241; 40_pipeline_engine.md R125). -/
def endRun (s : State) : State := s.withStatus .halted

/-- `NOP`: nothing but the advance to the next instruction (R240). -/
def execNop (s : State) : Host.Outcome State Fault Refusal := (advance s).toOutcome

/-- `SYSCALL`: the run is halted, whatever the registers hold (R241). -/
def execSyscall (s : State) : Host.Outcome State Fault Refusal := .next (endRun s)

end Sys2Proof.Machine
end

