-- ==== Sys2Proof/Machine/Stages.lean ====
section
/-! DEFINITION. Phases 1 and 2 of a step: commit and the next-state computation of each stage (spec/40_pipeline_engine.md R111 to R116). -/

namespace Sys2Proof.Machine

/-- Phase 1, commit: the WB result goes to the register file, if its instruction has a destination (R111). -/
def commit (s : State) : Res State :=
  match dest s.pipe.wbr.instr.op with
  | some rd => writeReg s rd s.pipe.wbr.result
  | none => .ok s

/-- The next program counter: a jump in ID, else a taken branch in MEM, else `pc + 4` (R112). -/
def nextPc (p : Pipeline) : Int :=
  match p.idr.instr.op with
  | .j imm => jumpTarget imm
  | _ => if takenBranch p.memr then p.memr.branchTarget else p.ifr.pc + 4

/-- Phase 2, next IF: the eager fetch from the next program counter (R112). -/
def nextIF (s : State) : Res IFRec := fetch s (nextPc s.pipe)

/-- Phase 2, next ID: a jump in ID squashes its successor (R113). -/
def nextID (p : Pipeline) : IDRec :=
  if isJump p.idr.instr.op then .bubble else { instr := p.ifr.instr }

/-- The operand of a slot the instruction reads, `NONE` for one it does not (R114). -/
def readOperand (s : State) : Option Nat → Res (Option Int)
  | some r => do
    let v ← readReg s r
    return some v
  | none => .ok none

/-- Phase 2, next EX: the operands come from the register file as the commit of this step left it (R114). -/
def nextEX (committed : State) (d : IDRec) : Res EXRec := do
  let a ← readOperand committed (readsRs d.instr.op)
  let b ← readOperand committed (readsRt d.instr.op)
  return { instr := d.instr, rsValue := a, rtValue := b, imm := d.instr.op.imm }

/-- An operand an instruction reads; a hand-built record may lack it (10_state.md R35). -/
def operand : Option Int → Res Int
  | some v => .ok v
  | none => refuse .operandMissing

/-- An ALU function of `rs_value` and `rt_value`. -/
def onRsRt (f : Int → Int → Res Int) (e : EXRec) : Res Int := do
  let a ← operand e.rsValue
  let b ← operand e.rtValue
  f a b

/-- An ALU function of `rs_value` and `imm`. -/
def onRsImm (f : Int → Int → Res Int) (e : EXRec) : Res Int := do
  let a ← operand e.rsValue
  f a e.imm

/-- An ALU function of `rt_value` and `imm`. -/
def onRtImm (f : Int → Int → Res Int) (e : EXRec) : Res Int := do
  let b ← operand e.rtValue
  f b e.imm

/-- The ALU, keyed on the EX instruction's type, with the result check (R115; 41_alu_register.md R160). -/
def alu (c : Config) (e : EXRec) : Res Int :=
  match e.instr.op with
  | .nop .. => aluIdle
  | .add .. => onRsRt aluAdd e
  | .sub .. => onRsRt aluSub e
  | .and .. => onRsRt aluAnd e
  | .or .. => onRsRt aluOr e
  | .nor .. => onRsRt aluNor e
  | .slt .. => onRsRt (aluSlt c) e
  | .sltu .. => onRsRt aluSltu e
  | .sll .. => onRtImm (aluSll c) e
  | .srl .. => onRtImm (aluSrl c) e
  | .addi .. => onRsImm aluAddi e
  | .andi .. => onRsImm aluAndi e
  | .ori .. => onRsImm aluOri e
  | .lui .. => aluLui e.imm
  | .lw .. => onRsImm effectiveAddress e
  | .lh .. => onRsImm effectiveAddress e
  | .lhu .. => onRsImm effectiveAddress e
  | .lb .. => onRsImm effectiveAddress e
  | .lbu .. => onRsImm effectiveAddress e
  | .sw .. => onRsImm effectiveAddress e
  | .sh .. => onRsImm effectiveAddress e
  | .sb .. => onRsImm effectiveAddress e
  | .beq .. => onRsRt aluBeq e
  | .bne .. => onRsRt aluBne e
  | .j .. => aluIdle
  | .syscall .. => aluIdle

/-- Phase 2, next MEM: the ALU result, the zero flag, the store data carried along, and the branch target (R115). -/
def nextMEM (c : Config) (e : EXRec) : Res MEMRec := do
  let r ← alu c e
  return { instr := e.instr, aluResult := r, rtValue := e.rtValue, zero := zeroFlag r,
           branchTarget := if isBranch e.instr.op then e.imm else 0 }

/-- A store's access: the data is the MEM record's `rt_value` (R116). -/
def storeAccess (write : State → Int → Int → Res State) (s : State) (m : MEMRec) : Res (Int × State) := do
  let v ← operand m.rtValue
  let s1 ← write s m.aluResult v
  return (m.aluResult, s1)

/-- The data-memory access of the instruction in MEM and its WB result: the loaded value for a load, the ALU
result for every other instruction (R116). The state changes only in data memory. -/
def access (s : State) (m : MEMRec) : Res (Int × State) :=
  match m.instr.op with
  | .lw .. => accessLw s m.aluResult
  | .lh .. => accessLh s m.aluResult
  | .lhu .. => accessLhu s m.aluResult
  | .lb .. => accessLb s m.aluResult
  | .lbu .. => accessLbu s m.aluResult
  | .sw .. => storeAccess accessSw s m
  | .sh .. => storeAccess accessSh s m
  | .sb .. => storeAccess accessSb s m
  | .nop .. | .add .. | .sub .. | .and .. | .or .. | .nor .. | .slt .. | .sltu .. | .sll .. | .srl ..
  | .addi .. | .andi .. | .ori .. | .lui .. | .beq .. | .bne .. | .j .. | .syscall .. => .ok (m.aluResult, s)

/-- Phase 2, next WB (R116). -/
def nextWB (s : State) : Res (WBRec × State) := do
  let (v, s1) ← access s s.pipe.memr
  return ({ instr := s.pipe.memr.instr, result := v }, s1)

end Sys2Proof.Machine
end

