-- ==== Sys2Proof/Machine/Dispatch.lean ====
section
/-! DEFINITION. exec: one arm per constructor of Instr, each one direct call of that instruction's sequential meaning. -/

namespace Sys2Proof.Machine

def exec (i : Instr) (s : State) : Host.Outcome State Fault Refusal :=
  match i with
  | .nop _ => Sys2Proof.Machine.execNop s
  | .add rd rs rt _ => Sys2Proof.Machine.execAdd rd rs rt s
  | .sub rd rs rt _ => Sys2Proof.Machine.execSub rd rs rt s
  | .and rd rs rt _ => Sys2Proof.Machine.execAnd rd rs rt s
  | .or rd rs rt _ => Sys2Proof.Machine.execOr rd rs rt s
  | .nor rd rs rt _ => Sys2Proof.Machine.execNor rd rs rt s
  | .slt rd rs rt _ => Sys2Proof.Machine.execSlt rd rs rt s
  | .sltu rd rs rt _ => Sys2Proof.Machine.execSltu rd rs rt s
  | .sll rd rt imm => Sys2Proof.Machine.execSll rd rt imm s
  | .srl rd rt imm => Sys2Proof.Machine.execSrl rd rt imm s
  | .addi rd rs imm => Sys2Proof.Machine.execAddi rd rs imm s
  | .andi rd rs imm => Sys2Proof.Machine.execAndi rd rs imm s
  | .ori rd rs imm => Sys2Proof.Machine.execOri rd rs imm s
  | .lui rd imm => Sys2Proof.Machine.execLui rd imm s
  | .lw rd rs imm => Sys2Proof.Machine.execLw rd rs imm s
  | .lh rd rs imm => Sys2Proof.Machine.execLh rd rs imm s
  | .lhu rd rs imm => Sys2Proof.Machine.execLhu rd rs imm s
  | .lb rd rs imm => Sys2Proof.Machine.execLb rd rs imm s
  | .lbu rd rs imm => Sys2Proof.Machine.execLbu rd rs imm s
  | .sw rs rt imm => Sys2Proof.Machine.execSw rs rt imm s
  | .sh rs rt imm => Sys2Proof.Machine.execSh rs rt imm s
  | .sb rs rt imm => Sys2Proof.Machine.execSb rs rt imm s
  | .beq rs rt imm => Sys2Proof.Machine.execBeq rs rt imm s
  | .bne rs rt imm => Sys2Proof.Machine.execBne rs rt imm s
  | .j imm => Sys2Proof.Machine.execJ imm s
  | .syscall _ => Sys2Proof.Machine.execSyscall s

end Sys2Proof.Machine
end

