-- ==== Sys2Proof/Machine/Hazard.lean ====
section
/-! DEFINITION. Phase 3 of a step: squash, forwarding and the load-use stall, in this order (spec/40_pipeline_engine.md R118 to R121). -/

namespace Sys2Proof.Machine

/-- `matches(d, k)`: a producer's destination is the consumer's register (R119); `UNUSED` matches nothing (30_encoding.md R81). -/
def regMatches (c : Config) (d : Option Nat) (k : Option Nat) : Bool :=
  match d, k with
  | some d, some k => decide (d = k) && !(c.fwdZeroExcluded && decide (d = 0))
  | _, _ => false

/-- Control-hazard squash: a taken branch in MEM clears next ID, EX and MEM (R118). -/
def squash (cur nxt : Pipeline) : Pipeline :=
  if takenBranch cur.memr then { nxt with idr := .bubble, exr := .bubble, memr := .bubble } else nxt

/-- Forward a value into the operand slots of next EX that the producer's destination matches. -/
def forwardInto (c : Config) (d : Option Nat) (consumer : Instr) (v : Int) (e : EXRec) : EXRec :=
  { e with
    rsValue := if regMatches c d (readsRs consumer) then some v else e.rsValue
    rtValue := if regMatches c d (readsRt consumer) then some v else e.rtValue }

/-- Forwarding from the MEM-stage producer: the about-to-commit WB result (R119). -/
def forwardMem (c : Config) (cur nxt : Pipeline) : Pipeline :=
  { nxt with exr := forwardInto c (dest cur.memr.instr.op) cur.idr.instr.op nxt.wbr.result nxt.exr }

/-- The instruction in ID reads the destination of the instruction in EX (R120). -/
def exHit (c : Config) (cur : Pipeline) : Bool :=
  regMatches c (dest cur.exr.instr.op) (readsRs cur.idr.instr.op) ||
  regMatches c (dest cur.exr.instr.op) (readsRt cur.idr.instr.op)

/-- The load-use condition: the producer in EX is a load (R120). -/
def stalls (c : Config) (cur : Pipeline) : Bool := exHit c cur && isLoad cur.exr.instr.op

/-- The EX-stage producer: a stall behind a load, forwarding of the next-MEM ALU result otherwise (R120). -/
def forwardEx (c : Config) (cur nxt : Pipeline) : Pipeline :=
  if stalls c cur then { nxt with ifr := cur.ifr, idr := cur.idr, exr := .bubble }
  else { nxt with exr := forwardInto c (dest cur.exr.instr.op) cur.idr.instr.op nxt.memr.aluResult nxt.exr }

/-- Phase 3: the three actions in the document's order, each on the result of the one before (R121). -/
def resolveHazards (c : Config) (cur nxt : Pipeline) : Pipeline :=
  forwardEx c cur (forwardMem c cur (squash cur nxt))

end Sys2Proof.Machine
end

