-- ==== Sys2Proof/Machine/Engine.lean ====
section
/-! DEFINITION. One cycle of the pipeline (spec/40_pipeline_engine.md R110 to R124) and one turn of the run loop round it (R125, R126). -/

namespace Sys2Proof.Machine

/-- One call of the document's `step()`: commit, next-state computation, hazard resolution, replacement of
the five records at once (R110). Checks fail in the order of 60_exceptions.md R265. -/
def cycle (s : State) : Res State := do
  let committed ← commit s
  let nIF ← nextIF s
  let nEX ← nextEX committed s.pipe.idr
  let nMEM ← nextMEM s.cfg s.pipe.exr
  let (nWB, accessed) ← nextWB committed
  let nxt : Pipeline := { ifr := nIF, idr := nextID s.pipe, exr := nEX, memr := nMEM, wbr := nWB }
  return accessed.withPipe (resolveHazards s.cfg s.pipe nxt)

/-- The counters after an executed step: one more cycle, and one more retired instruction unless the
pre-step WB instruction was a no-op (R126). -/
def countStep (before after : State) : State :=
  after.withCounters (after.cycles + 1)
    (if isNop before.pipe.wbr.instr.op then after.retired else after.retired + 1)

/-- One turn of the run loop while running: halt before the step when a `SYSCALL` is in WB, or execute the
step, count it, and halt after it, by `HALT_BEFORE_FINAL_STEP` (R125). -/
def turn (s : State) : Res State :=
  if isSyscall s.pipe.wbr.instr.op && s.cfg.haltBeforeFinalStep then .ok (s.withStatus .halted)
  else do
    let s1 ← cycle s
    let s2 := countStep s s1
    return if isSyscall s.pipe.wbr.instr.op then s2.withStatus .halted else s2

/-- One turn of the machine. A halted machine stays as it is, and no step follows a fault
(10_state.md R41; 60_exceptions.md R250). -/
def runTurn (s : State) : Res State :=
  match s.status with
  | .running => turn s
  | .halted => .ok s
  | .faulted f => raise f
  | .rejected e => refuse (.staticError e)

end Sys2Proof.Machine
end

