-- ==== Sys2Proof/Machine/Link.lean ====
section
/-! DEFINITION. How a program enters the machine: the link contract, the entry symbol and the static errors (spec/70_reset_and_hazards.md R280 to R283; spec/60_exceptions.md R251; spec/30_encoding.md R94). -/

namespace Sys2Proof.Machine

/-- What the external parser hands over: pairs of an optional label reference and an instruction (R282). -/
abbrev ParsedProgram := List (Option String × InstrRec)

/-- The symbol table: label names and resolved addresses (R282, R94). -/
abbrev SymbolTable := List (String × Int)

/-- `has(name)` (R282). -/
def SymbolTable.has (t : SymbolTable) (name : String) : Bool := t.any (fun e => e.1 == name)

/-- `lookup(name)`; its precondition is that the name is present (R282). -/
def SymbolTable.lookup (t : SymbolTable) (name : String) : Option Int :=
  (t.find? (fun e => e.1 == name)).map (·.2)

/-- How often a label of this name is defined (R251). -/
def SymbolTable.count (t : SymbolTable) (name : String) : Nat := t.countP (fun e => e.1 == name)

/-- Replace the immediate of an instruction that may carry a label reference: `BEQ`, `BNE` and `J` (R94). -/
def withTarget (t : Int) : Instr → Option Instr
  | .beq rs rt _ => some (.beq rs rt t)
  | .bne rs rt _ => some (.bne rs rt t)
  | .j _ => some (.j t)
  | _ => none

/-- A static error ends everything before the first cycle (R251). -/
def reject {α : Type} (e : StaticError) : Res α := refuse (.staticError e)

/-- Resolve one pair into the final instruction: the given one with `imm` replaced by the label's address
(R282); an ill-formed record is refused (30_encoding.md R90). DESIGN CHOICE, safe (notes/assumptions/19.md): where one
pair has several static errors, the unknown label is reported first, then a label on an instruction that takes none,
then the ill-formed record; the spec gives no order. -/
def resolveLabel (t : SymbolTable) (entry : Option String × InstrRec) : Res InstrRec :=
  let checked (i : Instr) : Res InstrRec :=
    if i.wellFormed then .ok { entry.2 with op := i } else reject .illegalInstruction
  match entry.1 with
  | none => checked entry.2.op
  | some name =>
    match t.lookup name with
    | none => reject (.unresolvedLabel name)
    | some a =>
      match withTarget a entry.2.op with
      | none => reject .illegalInstruction
      | some i => checked i

/-- Write the final instructions at consecutive word addresses (R282). -/
def linkFrom (t : SymbolTable) (s : State) (a : Int) : ParsedProgram → Res State
  | [] => .ok s
  | p :: rest => do
    let r ← resolveLabel t p
    let s1 ← imemWrite s a r
    linkFrom t s1 (a + 4) rest

/-- The entry symbol's address: exactly one label of that name must exist (R251, R283). -/
def entryAddress (c : Config) (t : SymbolTable) : Res Int :=
  match t.lookup c.entrySymbol with
  | some a => if t.count c.entrySymbol = 1 then .ok a else reject .missingEntryLabel
  | none => reject .missingEntryLabel

/-- The register file and the memories initialised, `gp` and `sp` through the register file's own write (R280, 10_state.md R43). -/
def initialState (c : Config) : Res State := do
  let blank := (State.resetWith c).withRegs (Vector.replicate 32 0)
  let s1 ← writeReg blank 28 c.gpInit
  writeReg s1 29 c.spInit

/-- Reset and load, in the order of R280: initialise, link, check the entry symbol, set the pipeline
registers with the checked fetch at `ENTRY` (R281). `none` is a failed parse (R251). -/
def boot (c : Config) (t : SymbolTable) (program : Option ParsedProgram) : Res State :=
  match program with
  | none => reject .parseFailure
  | some p => do
    let s0 ← initialState c
    let s1 ← linkFrom t s0 c.textBase p
    let e ← entryAddress c t
    let first ← fetch s1 e
    let c1 := { c with entry := e.toNat }
    return { s1 with pipe := resetPipe c1 first.instr, cfg := c1 }

/-- Put a record in the slot at the program counter, in instruction memory and in the IF record that
mirrors it (10_state.md R33). -/
def placeAtPc (s : State) (r : InstrRec) : State :=
  (s.withImem (putInstr s.imem s.pc.toNat r)).withIF { instr := r, pc := s.pc }

/-- Load one packed word at the program counter. A word that spells no instruction cannot be in instruction
memory: the run is rejected with `IllegalInstruction` (30_encoding.md R90; 60_exceptions.md R251). DESIGN CHOICE, unsafe
for the displayed line only (notes/assumptions/13.md): the packed form omits the source line and the spec does not say
what it then is (30_encoding.md R83); the record takes `GENERATED`. -/
def placeWord (s : State) (nbits w : Nat) : State :=
  match decodeTableWord nbits w with
  | some i => placeAtPc s { op := i, line := none }
  | none => s.withStatus (.rejected .illegalInstruction)

end Sys2Proof.Machine
end

