-- ==== Sys2Proof/Machine/Observe.lean ====
section
/-! DEFINITION. What the outside sees of a run (spec/60_exceptions.md R271): snapshots, counters and CPI, and the run as a status that only moves from running (spec/10_state.md R41, spec/40_pipeline_engine.md R125, R126). -/

namespace Sys2Proof.Machine

/-- The read-only snapshot before each step: the five pipeline registers and the register file (R271). -/
structure Snapshot where
  pipe : Pipeline
  regs : List Int
  deriving DecidableEq, Repr

/-- The snapshot of a state; registers are shown as they read (60_exceptions.md R271). -/
def snapshot (s : State) : Snapshot :=
  { pipe := s.pipe, regs := (List.range 32).map s.reg }

/-- `CPI = cycles / retired`, defined only when something retired (40_pipeline_engine.md R126; 93 U1). -/
def cpi (s : State) : Option ℚ :=
  if s.retired = 0 then none else some ((s.cycles : ℚ) / (s.retired : ℚ))

/-- What is reported after a run: elapsed cycles, retired instructions, CPI (R271). -/
def report (s : State) : Nat × Nat × Option ℚ := (s.cycles, s.retired, cpi s)

/-- One turn of the run loop with its end recorded: a fault moves the status to `faulted` (10_state.md R41;
60_exceptions.md R250). The rest of a faulted state is the state before the faulting step and is no result (R265). -/
def loopTurn (s : State) : State :=
  match runTurn s with
  | .ok s1 => s1
  | .error (.fault f) => s.withStatus (.faulted f)
  | .error (.refused _) => s

/-- The first `n` turns of the run loop (40_pipeline_engine.md R125). -/
def runLoop : Nat → State → State
  | 0, s => s
  | n + 1, s => runLoop n (loopTurn s)

end Sys2Proof.Machine
end

