-- ==== Sys2Proof/Machine/Step.lean ====
section
/-! DEFINITION. The step of the machine: one turn of the run loop, that is one clock cycle (spec/40_pipeline_engine.md R110, R125). -/

namespace Sys2Proof.Machine

/-- One step: one clock cycle of the pipeline with the run loop's halt and counters (R110, R125, R126). -/
def step (s : State) : Host.Outcome State Fault Refusal := (runTurn s).toOutcome

/-- `s` with the instruction of a packed word loaded where the machine's next instruction stands: in the
instruction-memory slot at the program counter and in the IF record, which mirrors it (10_state.md R33). A step is one
cycle (40_pipeline_engine.md R110), and the instruction in IF at reset reaches WB at step 5 (70_reset_and_hazards.md
R285): the next step runs it into ID, the five steps from reset run it through (`DrainedPipelineRunsTheInstruction`). -/
def State.withFetchWord (s : State) (nbits w : Nat) : State := placeWord s nbits w

end Sys2Proof.Machine
end

