-- ==== Sys2Proof/Safety.lean ====
section
/-! DEFINITION. The terms claims use: valid fetch addresses, the invariant of the machine, drained pipelines, and runs. -/

namespace Sys2Proof.Machine

/-- The address passes the instruction address check (spec/20_memory.md R51). -/
abbrev FetchOk (c : Config) (a : Int) : Prop :=
  (c.textBase : Int) ≤ a ∧ a < 4294967296 ∧ a % 4 = 0

/-- The address passes the data address check for `n` bytes (20_memory.md R55). -/
abbrev DataOk (c : Config) (a : Int) (n : Nat) : Prop :=
  (c.dataBase : Int) ≤ a ∧ a + n < c.stackEnd ∧ a % n = 0

/-- The IF record of an address: the instruction standing there (10_state.md R33). -/
def fetched (s : State) (a : Int) : IFRec := { instr := instrAt s a.toNat, pc := a }

/-- An operand field is present where the instruction reads the slot, and any value in it is in range. -/
abbrev OperandOk (slot : Option Nat) (v : Option Int) : Prop :=
  (slot.isSome → v.isSome) ∧ ∀ x ∈ v, InRange32 x

/-- What holds of the machine at reset and after every step (10_state.md R21, R22, R33 to R37; 30_encoding.md R89;
20_memory.md R56). -/
structure State.Inv (s : State) : Prop where
  /-- The parameters are admissible (00_scope.md R8). -/
  cfg : s.cfg.Admissible
  /-- The data memory is in canonical form. -/
  dmemCanonical : Memory.wf s.dmem = true
  /-- Written bytes lie in `[DATA_BASE, STACK_END - 1)` (20_memory.md R63). -/
  dmemRange : ∀ e ∈ s.dmem, s.cfg.dataBase ≤ e.1 ∧ e.1 + 1 < s.cfg.stackEnd
  /-- The instruction memory is in canonical form. -/
  imemCanonical : IMemory.wf s.imem = true
  /-- Instruction memory holds well-formed records at valid addresses (30_encoding.md R89, 20_memory.md R51). -/
  imemWellFormed : ∀ e ∈ s.imem, FetchOk s.cfg e.1 ∧ e.2.op.wellFormed = true
  /-- Register 0 holds 0 (10_state.md R22). -/
  zeroCell : s.regs[0] = 0
  /-- Every register holds a value of `RANGE32` (10_state.md R21). -/
  regsRange : ∀ i, InRange32 (s.reg i)
  /-- The program counter is a valid instruction address (10_state.md R29). -/
  pcValid : FetchOk s.cfg s.pc
  /-- The IF record mirrors the instruction memory (10_state.md R33). -/
  ifMirrors : s.pipe.ifr = fetched s s.pc
  /-- ID holds a well-formed record. -/
  idWellFormed : s.pipe.idr.instr.op.wellFormed = true
  /-- EX holds a well-formed record with the operands it reads and a copy of its immediate (10_state.md R35). -/
  exWellFormed : s.pipe.exr.instr.op.wellFormed = true
  exRs : OperandOk (readsRs s.pipe.exr.instr.op) s.pipe.exr.rsValue
  exRt : OperandOk (readsRt s.pipe.exr.instr.op) s.pipe.exr.rtValue
  exImm : s.pipe.exr.imm = s.pipe.exr.instr.op.imm
  /-- MEM holds a well-formed record, a result in range with its zero flag, the store data, and a branch's target (10_state.md R36). -/
  memWellFormed : s.pipe.memr.instr.op.wellFormed = true
  memResult : InRange32 s.pipe.memr.aluResult
  memZero : s.pipe.memr.zero = zeroFlag s.pipe.memr.aluResult
  memRt : OperandOk (readsRt s.pipe.memr.instr.op) s.pipe.memr.rtValue
  memTarget : s.pipe.memr.branchTarget = if isBranch s.pipe.memr.instr.op then s.pipe.memr.instr.op.imm else 0
  /-- WB holds a well-formed record and a result in range (10_state.md R37, R25). -/
  wbWellFormed : s.pipe.wbr.instr.op.wellFormed = true
  wbResult : InRange32 s.pipe.wbr.result

/-- The pipeline behind IF holds no instruction. -/
abbrev State.Drained (s : State) : Prop :=
  isNop s.pipe.idr.instr.op = true ∧ isNop s.pipe.exr.instr.op = true ∧
  isNop s.pipe.memr.instr.op = true ∧ isNop s.pipe.wbr.instr.op = true

/-- No instruction but `NOP` stands at any address except the program counter. -/
def State.AloneAtPc (s : State) : Prop :=
  ∀ a : Nat, (a : Int) ≠ s.pc → isNop (instrAt s a).op = true

/-- `n` steps of the machine. -/
abbrev runSteps (n : Nat) (s : State) : Host.Outcome State Fault Refusal := Sys2Proof.core.run n s

/-- The run of `s` halts in the state `t` (40_pipeline_engine.md R125). -/
def State.HaltsIn (s t : State) : Prop := ∃ n, runSteps n s = .next t ∧ t.status = .halted

/-- A safe run: no number of steps ends in a fault or a refusal (60_exceptions.md R250). -/
def State.SafeRun (s : State) : Prop := ∀ n, ∃ t, runSteps n s = .next t

/-- A step executes a cycle: the machine is running and does not halt before the step (40_pipeline_engine.md R125). -/
abbrev State.Executes (s : State) : Prop :=
  s.status = .running ∧ ¬ (isSyscall s.pipe.wbr.instr.op = true ∧ s.cfg.haltBeforeFinalStep = true)

/-- `matches(d, slot)`: the producer's destination is the register the slot reads, and it is not register 0
under `FWD_ZERO_EXCLUDED` (40_pipeline_engine.md R119). -/
def ReadsDest (c : Config) (d slot : Option Nat) : Prop :=
  ∃ k, d = some k ∧ slot = some k ∧ ¬ (c.fwdZeroExcluded = true ∧ k = 0)

/-- The instruction in ID reads the destination of the instruction in EX (40_pipeline_engine.md R120). -/
def HitsEx (s : State) : Prop :=
  ReadsDest s.cfg (dest s.pipe.exr.instr.op) (readsRs s.pipe.idr.instr.op) ∨
  ReadsDest s.cfg (dest s.pipe.exr.instr.op) (readsRt s.pipe.idr.instr.op)

/-- The load-use condition (40_pipeline_engine.md R120). -/
def LoadUse (s : State) : Prop := HitsEx s ∧ isLoad s.pipe.exr.instr.op = true

/-! ### What one instruction leaves behind -/

/-- `t` is `s` after one instruction of the sequential machine that wrote `write` and went on to `next`:
the one register, the IF record, and nothing else outside data memory. Register 0 discards its write. -/
structure Retires (s t : State) (write : Option (Nat × Int)) (next : Int) : Prop where
  regs : ∀ k, t.reg k = match write with
    | some (rd, v) => if k = rd ∧ k ≠ 0 then v else s.reg k
    | none => s.reg k
  goesTo : t.pipe.ifr = fetched s next
  behindIF : t.pipe.idr = s.pipe.idr ∧ t.pipe.exr = s.pipe.exr ∧ t.pipe.memr = s.pipe.memr ∧ t.pipe.wbr = s.pipe.wbr
  imem : t.imem = s.imem
  status : t.status = s.status
  counters : t.cycles = s.cycles ∧ t.retired = s.retired
  cfg : t.cfg = s.cfg

/-- Every byte of data memory reads as before, and no free value was drawn. -/
def SameMemory (s t : State) : Prop := (∀ a, dataByte t a = dataByte s a) ∧ t.fresh = s.fresh

/-- The byte at offset `k` of the `n`-byte datum `v`: under `big` the byte at the lowest address is the most
significant (20_memory.md R57). -/
def datumByte (o : ByteOrder) (n : Nat) (v : Int) (k : Nat) : Byte :=
  match o with
  | .big => BitVec.ofInt 8 (v / 256 ^ (n - 1 - k))
  | .little => BitVec.ofInt 8 (v / 256 ^ k)

/-- The unsigned datum whose byte at offset `k` is `b k` (20_memory.md R57). -/
def datumOf (o : ByteOrder) (n : Nat) (b : Nat → Byte) : Int :=
  ∑ k ∈ Finset.range n, ((b k).toNat : Int) * 256 ^ (match o with | .big => n - 1 - k | .little => k)

/-- The datum as a load delivers it: zero-extended, or sign-extended from its most significant bit (20_memory.md R58). -/
def loadedValue (o : ByteOrder) (n : Nat) (signed : Bool) (b : Nat → Byte) : Int :=
  if signed = true ∧ 2 ^ (8 * n - 1) ≤ datumOf o n b then datumOf o n b - 2 ^ (8 * n) else datumOf o n b

/-- Data memory after an `n`-byte store of `v` at `a`, and only that (20_memory.md R59). -/
def StoredAt (s t : State) (a : Int) (n : Nat) (v : Int) : Prop :=
  (∀ b : Nat, dataByte t b =
    if a ≤ b ∧ (b : Int) < a + n then some (datumByte s.cfg.byteOrder n v (b - a.toNat)) else dataByte s b) ∧
  t.fresh = s.fresh

/-- Bit `k` of an integer in infinite two's complement (00_scope.md R13). -/
abbrev bitOf (v : Int) (k : Nat) : Int := v / 2 ^ k % 2

/-! ### States that differ only in source lines (30_encoding.md R83) -/

/-- Two states that differ at most in the display-only source lines of their instruction records. -/
structure SameButLines (s t : State) : Prop where
  regs : s.regs = t.regs
  dmem : s.dmem = t.dmem
  status : s.status = t.status
  counters : s.cycles = t.cycles ∧ s.retired = t.retired
  fresh : s.fresh = t.fresh
  cfg : s.cfg = t.cfg
  imem : ∀ a, (instrAt s a).op = (instrAt t a).op
  ifr : s.pipe.ifr.instr.op = t.pipe.ifr.instr.op ∧ s.pipe.ifr.pc = t.pipe.ifr.pc
  idr : s.pipe.idr.instr.op = t.pipe.idr.instr.op
  exr : s.pipe.exr.instr.op = t.pipe.exr.instr.op ∧ s.pipe.exr.rsValue = t.pipe.exr.rsValue ∧
    s.pipe.exr.rtValue = t.pipe.exr.rtValue ∧ s.pipe.exr.imm = t.pipe.exr.imm
  memr : s.pipe.memr.instr.op = t.pipe.memr.instr.op ∧ s.pipe.memr.aluResult = t.pipe.memr.aluResult ∧
    s.pipe.memr.rtValue = t.pipe.memr.rtValue ∧ s.pipe.memr.zero = t.pipe.memr.zero ∧
    s.pipe.memr.branchTarget = t.pipe.memr.branchTarget
  wbr : s.pipe.wbr.instr.op = t.pipe.wbr.instr.op ∧ s.pipe.wbr.result = t.pipe.wbr.result

/-! ### The sequential machine (70_reset_and_hazards.md R294) -/

/-- One instruction of the sequential machine: the instruction at the program counter, at once. -/
def seqStep (s : State) : Host.Outcome State Fault Refusal :=
  match s.status with
  | .running => exec s.pipe.ifr.instr.op s
  | .halted => .next s
  | .faulted f => .fault f
  | .rejected e => .refused (.staticError e)

/-- `n` instructions of the sequential machine. -/
def seqRun : Nat → State → Host.Outcome State Fault Refusal
  | 0, s => .next s
  | n + 1, s =>
    match seqStep s with
    | .next s1 => seqRun n s1
    | .fault f => .fault f
    | .refused r => .refused r

/-- The EX record an instruction would have with its operands read from the register file of `s`. -/
def exRecordOf (s : State) (r : InstrRec) : EXRec :=
  { instr := r, rsValue := (readsRs r.op).map s.reg, rtValue := (readsRt r.op).map s.reg, imm := r.op.imm }

/-- The stages of one instruction, one after the other, on the register file of `s`: operand read (R114), ALU
(R115), memory access (R116), commit (R111), and the next program counter (R112). -/
def stagesOf (r : InstrRec) (s : State) : Res State := do
  let e ← nextEX s { instr := r }
  let m ← nextMEM s.cfg e
  let (v, s1) ← access s m
  let s2 ← match dest r.op with
    | some rd => writeReg s1 rd v
    | none => .ok s1
  goTo s2 (if isJump r.op then r.op.imm else if takenBranch m then m.branchTarget else s.pc + 4)

/-- The instruction at an address of the instruction memory. -/
abbrev opAt (s : State) (a : Int) : Instr := (instrAt s a.toNat).op

/-- The machine at `s` is about to take a conditional branch (44_control_transfer.md R220, R221). -/
def TakesBranch (s : State) : Prop :=
  match s.pipe.ifr.instr.op with
  | .beq rs rt _ => s.reg rs = s.reg rt
  | .bne rs rt _ => s.reg rs ≠ s.reg rt
  | _ => False

/-- The machine at `s` is about to execute a system call. -/
abbrev AtSyscall (s : State) : Prop := isSyscall s.pipe.ifr.instr.op = true

/-- The side conditions of the sequential-equivalence conjecture at one instruction of the sequential run, the
machine at `x` (70_reset_and_hazards.md R294 (a) to (e)), and one of the model's own: what is fetched behind
`x` stays below `2^32` (notes/assumptions/16.md). -/
structure HazardFreeAt (x : State) : Prop where
  /-- (a) -/
  noZeroDest : dest x.pipe.ifr.instr.op ≠ some 0
  /-- (b) -/
  noJumpInShadow : TakesBranch x → isJump (opAt x (x.pc + 8)) = false
  /-- (c) -/
  noLoadUseInShadow : TakesBranch x → isLoad (opAt x (x.pc + 4)) = true →
    ∀ d, dest (opAt x (x.pc + 4)) = some d →
      readsRs (opAt x (x.pc + 8)) ≠ some d ∧ readsRt (opAt x (x.pc + 8)) ≠ some d
  /-- (d) and (e): the instruction behind passes its ALU checks -/
  nextPassesAlu : TakesBranch x ∨ AtSyscall x → ∃ r, alu x.cfg (exRecordOf x (instrAt x (x.pc + 4).toNat)) = .ok r
  /-- (d) and (e): a jump there has a valid target -/
  nextJumpValid : TakesBranch x ∨ AtSyscall x → isJump (opAt x (x.pc + 4)) = true → FetchOk x.cfg (opAt x (x.pc + 4)).imm
  /-- (e): so has a jump two slots behind a system call -/
  secondJumpValid : AtSyscall x → isJump (opAt x (x.pc + 8)) = true → FetchOk x.cfg (opAt x (x.pc + 8)).imm
  /-- the model's own -/
  roomToFetch : x.pc + 16 < 4294967296 ∧
    (AtSyscall x → isJump (opAt x (x.pc + 4)) = true → (opAt x (x.pc + 4)).imm + 4 < 4294967296)

end Sys2Proof.Machine
end

