-- ==== Sys2Proof/Certificates/Slice0/Obligations.lean ====
section
/-! DEFINITION. The statements for the provers, from the numbered rules of spec/. A statement about a step speaks of every parameter set and switch setting, since they are part of the state, unless it names one. -/

open Sys2Proof Sys2Proof.Machine

/-! ### Encoding (spec/30_encoding.md R86 to R90: decision D3 of the spec) -/

/-- Decoding the packed word of a well-formed instruction gives it back. -/
def Obligations.DecodeOfEncodeIsIdentity : Prop :=
  ∀ i : Instr, i.wellFormed = true → decode (encode i) = .ok i

/-- What the decoder reads is well formed, and its packed word is the word it was read from. -/
def Obligations.EncodeOfDecodeIsIdentity : Prop :=
  ∀ (w : PackedWord) (i : Instr), decode w = .ok i → i.wellFormed = true ∧ encode i = w

/-- A word spells an instruction iff its tag is 0 to 25, every slot its format uses holds 0 to 31 and every
other slot holds 63. The rd slot is used by tags 1 to 18, rs by 1 to 7, 10 to 12 and 14 to 23, rt by 1 to 9 and 19 to 23. -/
def Obligations.LegalWordsAreExactlyThoseOfTheTable : Prop :=
  ∀ w : PackedWord, (∃ i, decode w = .ok i) ↔
    wordTag w ≤ 25 ∧
    (if 1 ≤ wordTag w ∧ wordTag w ≤ 18 then wordRd w < 32 else wordRd w = 63) ∧
    (if (1 ≤ wordTag w ∧ wordTag w ≤ 7) ∨ (10 ≤ wordTag w ∧ wordTag w ≤ 12) ∨ (14 ≤ wordTag w ∧ wordTag w ≤ 23)
      then wordRs w < 32 else wordRs w = 63) ∧
    (if (1 ≤ wordTag w ∧ wordTag w ≤ 9) ∨ (19 ≤ wordTag w ∧ wordTag w ≤ 23) then wordRt w < 32 else wordRt w = 63)

/-- Every word the decoder reads satisfies the match and mask of its opcode, and the match and mask of no
instruction with another tag. -/
def Obligations.DecodedWordMatchesItsOpcodeOnly : Prop :=
  ∀ (w : PackedWord) (i j : Instr), decode w = .ok i →
    w &&& opcodeMask i = opcodeMatch i ∧ (w &&& opcodeMask j = opcodeMatch j → j.tag = i.tag)

/-- The words of 95_test_vectors.md 2.2. -/
def Sys2Proof.Machine.packingExamples : List (PackedWord × Instr) :=
  [(0x28803F0000000000000005, .addi 8 0 5), (0x28823FFFFFFFFFFFFFFFFF, .addi 8 8 (-1)),
   (0x5FF2000000000000400008, .bne 8 0 0x400008), (0x4FF7490000000000000000, .sw 29 9 0),
   (0x38877F0000000000000000, .lw 8 29 0), (0x208FC90000000000000004, .sll 8 9 4)]

/-- The further words of 95_test_vectors.md P1, P2 and P3. -/
def Sys2Proof.Machine.programWords : List (PackedWord × Instr) :=
  [(0x28903F0000000000000003, .addi 9 0 3), (0x04A2090000000000000000, .add 10 8 9 0), (0x67FFFF0000000000000000, .syscall 0),
   (0x28903F0000000000000007, .addi 9 0 7), (0x28A03F0000000000000009, .addi 10 0 9), (0x04824A0000000000000000, .add 8 9 10 0),
   (0x04B2000000000000000000, .add 11 8 0 0), (0x28903F000000000000004D, .addi 9 0 77), (0x0492000000000000000000, .add 9 8 0 0)]

/-- The further words of 95_test_vectors.md P4 and P5. -/
def Sys2Proof.Machine.loopAndJumpWords : List (PackedWord × Instr) :=
  [(0x28803F0000000000000003, .addi 8 0 3), (0x28903F0000000000000000, .addi 9 0 0), (0x0492480000000000000000, .add 9 9 8 0),
   (0x4FF7090000000000000000, .sw 28 9 0), (0x38A73F0000000000000000, .lw 10 28 0), (0x28803F0000000000000001, .addi 8 0 1),
   (0x63FFFF0000000000400010, .j 0x400010), (0x28803F0000000000000063, .addi 8 0 99), (0x28903F0000000000000062, .addi 9 0 98),
   (0x28A23F000000000000000A, .addi 10 8 10)]

/-- The further words of 95_test_vectors.md P6. -/
def Sys2Proof.Machine.byteOrderWords : List (PackedWord × Instr) :=
  [(0x348FFF0000000000001122, .lui 8 4386), (0x30823F0000000000003380, .ori 8 8 13184), (0x4FF7080000000000000000, .sw 28 8 0),
   (0x48973F0000000000000000, .lbu 9 28 0), (0x44A73F0000000000000003, .lb 10 28 3), (0x3CB73F0000000000000002, .lh 11 28 2),
   (0x40C73F0000000000000000, .lhu 12 28 0), (0x48D73F0000000000000003, .lbu 13 28 3)]

/-- The further words of 95_test_vectors.md H1 to H4. -/
def Sys2Proof.Machine.hazardWords : List (PackedWord × Instr) :=
  [(0x5BF0000000000000400018, .beq 0 0 0x400018), (0x03FFFF0000000000000000, .nop 0), (0x63FFFF0000000000400020, .j 0x400020),
   (0x28903F0000000000000002, .addi 9 0 2), (0x4FF7000000000000000000, .sw 28 0 0), (0x5BF000000000000040001C, .beq 0 0 0x40001c),
   (0x38873F0000000000000000, .lw 8 28 0), (0x28A03F0000000000000007, .addi 10 0 7), (0x28B03F0000000000000009, .addi 11 0 9),
   (0x28003F0000000000000005, .addi 0 0 5), (0x0480000000000000000000, .add 8 0 0 0), (0x0490000000000000000000, .add 9 0 0 0),
   (0x04A0000000000000000000, .add 10 0 0 0)]

/-- Every packed word of the spec's examples (spec/95_test_vectors.md 2.2, 2.3, Part 4 and Part 5) decodes to the
instruction it stands for, and every illegal word to the reason it is illegal. -/
def Obligations.SpecExampleWordsDecode : Prop :=
  (∀ e ∈ packingExamples ++ programWords ++ loopAndJumpWords ++ byteOrderWords ++ hazardWords, decode e.1 = .ok e.2) ∧
  decode 0x6BFFFF0000000000000000 = .error (.illegalTag 26) ∧
  decode 0xFFFFFFFFFFFFFFFFFFFFFF = .error (.illegalTag 63) ∧
  decode 0x04A2210000000000000000 = .error (.illegalSlotCode 33) ∧
  decode 0x04A23F0000000000000000 = .error .usedSlotIsUnused ∧
  decode 0x0000000000000000000000 = .error (.unusedSlotHoldsRegister 0) ∧
  decode 0x67F03F0000000000000000 = .error (.unusedSlotHoldsRegister 0)

/-! ### Reset and the link step (spec/10_state.md R43; spec/70_reset_and_hazards.md R280 to R283) -/

/-- The state after reset, for every parameter set: registers, pipeline, memories, status, counters and the free-value
counter. The pipeline's contents and the unwritten data memory are the spec's decisions D19 and D9. The model's choices:
reset takes parameter set P0 (notes/assumptions/1.md), no free value is drawn (notes/assumptions/3.md), and the `NOP` of a
never-written slot has immediate 0 and no line (notes/assumptions/13.md). -/
def Obligations.ResetState : Prop :=
  State.reset = State.resetWith Config.p0 ∧
  ∀ c : Config,
    let s := State.resetWith c
    (∀ k, s.reg k = if k = 28 then c.gpInit else if k = 29 then c.spInit else 0) ∧
    (∀ a, instrAt s a = .bubble) ∧ (∀ a, dataByte s a = none) ∧
    s.pipe.ifr = fetched s c.entry ∧
    s.pipe.idr = .bubble ∧ s.pipe.exr = .bubble ∧ s.pipe.memr = .bubble ∧ s.pipe.wbr = .bubble ∧
    s.pipe.memr.zero = true ∧ s.cycles = 0 ∧ s.retired = 0 ∧ s.status = .running ∧ s.fresh = 0 ∧ s.cfg = c

/-- The invariant holds after reset, under every admissible parameter set. -/
def Obligations.ResetSatisfiesInvariant : Prop :=
  State.reset.Inv ∧ ∀ c : Config, c.Admissible → (State.resetWith c).Inv

/-- What a successful link and load leaves: the k-th instruction of the program, its label reference resolved
into the immediate, at `TEXT_BASE + 4k`, no-ops everywhere else, the entry label's address in IF, bubbles in the other
four records, and the registers, data memory, status and counters of reset. The model's choices: immediate and line of
the `NOP` in a slot nothing was linked to (notes/assumptions/13.md), the symbol table as a list (notes/assumptions/19.md),
and the parameter `ENTRY` set from the label (notes/assumptions/21.md). -/
def Obligations.BootLoadsTheProgram : Prop :=
  ∀ (c : Config) (t : SymbolTable) (p : ParsedProgram) (s : State), c.Admissible → boot c t (some p) = .ok s →
    (∀ k e, p[k]? = some e →
      (instrAt s (c.textBase + 4 * k)).line = e.2.line ∧
      (e.1 = none → (instrAt s (c.textBase + 4 * k)).op = e.2.op) ∧
      (∀ name, e.1 = some name → ∃ a, t.lookup name = some a ∧
        withTarget a e.2.op = some (instrAt s (c.textBase + 4 * k)).op)) ∧
    (∀ a, (∀ k, k < p.length → a ≠ c.textBase + 4 * k) → instrAt s a = .bubble) ∧
    t.lookup c.entrySymbol = some s.pc ∧ t.count c.entrySymbol = 1 ∧
    s.pipe.idr = .bubble ∧ s.pipe.exr = .bubble ∧ s.pipe.memr = .bubble ∧ s.pipe.wbr = .bubble ∧
    (∀ k, s.reg k = if k = 28 then c.gpInit else if k = 29 then c.spInit else 0) ∧
    (∀ a, dataByte s a = none) ∧ s.status = .running ∧ s.cycles = 0 ∧ s.retired = 0 ∧ s.fresh = 0 ∧
    s.cfg = { c with entry := s.pc.toNat } ∧ s.Inv

/-- The link step and load answer for every program of well-formed instructions that fits, whose label references
stand on `BEQ`, `BNE` and `J` and name labels of the symbol table with a 64-bit address, with exactly one entry label
at a valid address. -/
def Obligations.BootAnswers : Prop :=
  ∀ (c : Config) (t : SymbolTable) (p : ParsedProgram) (e : Int), c.Admissible →
    (∀ x ∈ p, x.2.op.wellFormed = true ∧ ∀ name, x.1 = some name →
      (isBranch x.2.op = true ∨ isJump x.2.op = true) ∧ ∃ a, t.lookup name = some a ∧ Imm64 a) →
    (c.textBase : Int) + 4 * p.length ≤ 4294967296 →
    t.lookup c.entrySymbol = some e → t.count c.entrySymbol = 1 → FetchOk c e →
    ∃ s, boot c t (some p) = .ok s

/-- Static errors end everything before the first cycle. A failed parse; behind any pairs that link, a pair whose label
the symbol table does not have, an ill-formed record, or a label on an instruction that takes none or makes an
ill-formed record; and anything but one entry label: `boot` answers no machine, but the error. A state of status
`rejected` takes no step. The model's choices: which error is reported first (notes/assumptions/19.md) and the
status `rejected` (notes/assumptions/9.md). -/
def Obligations.StaticErrorsStopBeforeTheRun : Prop :=
  (∀ c t, boot c t none = refuse (.staticError .parseFailure)) ∧
  (∀ c t pre x post s0 s1, initialState c = .ok s0 → linkFrom t s0 c.textBase pre = .ok s1 →
    (∀ name, x.1 = some name → t.lookup name = none →
      boot c t (some (pre ++ x :: post)) = refuse (.staticError (.unresolvedLabel name))) ∧
    (x.1 = none → x.2.op.wellFormed = false →
      boot c t (some (pre ++ x :: post)) = refuse (.staticError .illegalInstruction)) ∧
    (∀ name a, x.1 = some name → t.lookup name = some a → (∀ i, withTarget a x.2.op = some i → i.wellFormed = false) →
      boot c t (some (pre ++ x :: post)) = refuse (.staticError .illegalInstruction))) ∧
  (∀ c t p s0 s1, initialState c = .ok s0 → linkFrom t s0 c.textBase p = .ok s1 → t.count c.entrySymbol ≠ 1 →
    boot c t (some p) = refuse (.staticError .missingEntryLabel)) ∧
  (∀ s e, s.status = .rejected e → step s = .refused (.staticError e))

/-! ### Registers and memories -/

/-- R22: register 0 always reads 0, writes to it are discarded after the range check; with it the whole of a
register write: index check, range check, and no other register touched. -/
def Obligations.RegisterWriteThenRead : Prop :=
  ∀ (s : State) (i : Nat) (v : Int),
    readReg s 0 = .ok 0 ∧
    (32 ≤ i → readReg s i = raise (.invalidRegisterNumber i) ∧ writeReg s i v = raise (.invalidRegisterNumber i)) ∧
    (i < 32 → ¬ InRange32 v → writeReg s i v = raise (.registerValueRange v)) ∧
    (i < 32 → InRange32 v → ∃ t, writeReg s i v = .ok t ∧
      (∀ k, k < 32 → readReg t k = if k = i ∧ k ≠ 0 then .ok v else readReg s k) ∧
      t.pipe = s.pipe ∧ t.imem = s.imem ∧ t.dmem = s.dmem)

/-- R51: an instruction address is valid iff it is at least `TEXT_BASE`, a multiple of 4 and below `2^32`; the
range fault is reported before the alignment fault; the check applies to every read and write. Valid
addresses name different slots, numbered `(a - TEXT_BASE) / 4`, iff they differ. -/
def Obligations.InstructionAddressCheck : Prop :=
  ∀ (s : State) (a b : Int) (r : InstrRec),
    ((a < s.cfg.textBase ∨ 4294967296 ≤ a) →
      imemRead s a = raise (.instrAddressInvalid a) ∧ imemWrite s a r = raise (.instrAddressInvalid a)) ∧
    ((s.cfg.textBase : Int) ≤ a → a < 4294967296 → a % 4 ≠ 0 →
      imemRead s a = raise (.instrAddressMisaligned a) ∧ imemWrite s a r = raise (.instrAddressMisaligned a)) ∧
    (FetchOk s.cfg a → (∃ x, imemRead s a = .ok x) ∧ (∃ t, imemWrite s a r = .ok t)) ∧
    (FetchOk s.cfg a → FetchOk s.cfg b → ((a - s.cfg.textBase) / 4 = (b - s.cfg.textBase) / 4 ↔ a = b))

/-- R52: a read of instruction memory returns the record last written at the slot, or the no-operation
instruction if none ever was, and has no effect; a write changes one slot. -/
def Obligations.InstructionMemoryReadsWhatWasLinked : Prop :=
  (∀ (c : Config) (a : Int), FetchOk c a → ∃ r, imemRead (State.resetWith c) a = .ok r ∧ isNop r.op = true) ∧
  ∀ (s t : State) (a b : Int) (r : InstrRec), imemWrite s a r = .ok t → FetchOk s.cfg b →
    imemRead t b = if b = a then .ok r else imemRead s b

/-- R55: the data address check, for reads and writes alike: lower bound, strict upper bound, alignment, in
this order, and before any effect. -/
def Obligations.DataAddressCheck : Prop :=
  ∀ (s : State) (a : Int) (n : Nat) (signed : Bool) (v : Int), n = 1 ∨ n = 2 ∨ n = 4 →
    (a < s.cfg.dataBase →
      memRead s a n signed = raise (.dataAddressInvalid a n) ∧ memWrite s a n v = raise (.dataAddressInvalid a n)) ∧
    ((s.cfg.dataBase : Int) ≤ a → ¬ (a + n < s.cfg.stackEnd) →
      memRead s a n signed = raise (.dataAddressInvalid a n) ∧ memWrite s a n v = raise (.dataAddressInvalid a n)) ∧
    ((s.cfg.dataBase : Int) ≤ a → a + n < s.cfg.stackEnd → a % n ≠ 0 →
      memRead s a n signed = raise (.dataAddressMisaligned a n) ∧ memWrite s a n v = raise (.dataAddressMisaligned a n)) ∧
    (DataOk s.cfg a n → ∀ b m,
      memRead s a n signed ≠ raise (.dataAddressInvalid b m) ∧ memRead s a n signed ≠ raise (.dataAddressMisaligned b m) ∧
      memWrite s a n v ≠ raise (.dataAddressInvalid b m) ∧ memWrite s a n v ≠ raise (.dataAddressMisaligned b m))

/-- A store of `n` bytes puts the bytes of `v mod 2^(8n)` at their places by the byte order, leaves every other
byte of data memory and everything else as it was, and under `NARROW_STORE_CHECK = fault` a value that does
not fit is the fault `StoreValueAssertion` (the spec's decision D10). -/
def Obligations.StoreWritesExactlyItsBytes : Prop :=
  ∀ (s : State) (a : Int) (n : Nat) (v : Int), n = 1 ∨ n = 2 ∨ n = 4 → DataOk s.cfg a n →
    (s.cfg.narrowStoreCheck = .truncate ∨ (-2 ^ (8 * n - 1) ≤ v ∧ v < 2 ^ (8 * n)) →
      ∃ t, memWrite s a n v = .ok t ∧ StoredAt s t a n v ∧ t = { s with dmem := t.dmem }) ∧
    (s.cfg.narrowStoreCheck = .fault → ¬ (-2 ^ (8 * n - 1) ≤ v ∧ v < 2 ^ (8 * n)) →
      memWrite s a n v = raise (.storeValueAssertion v n))

/-- R58: a read of written bytes gives the datum the byte order makes of them, zero-extended or sign-extended
from its most significant bit, and changes nothing. -/
def Obligations.LoadReadsTheBytesStored : Prop :=
  ∀ (s : State) (a : Int) (n : Nat) (signed : Bool) (b : Nat → Byte), n = 1 ∨ n = 2 ∨ n = 4 → DataOk s.cfg a n →
    (∀ k, k < n → dataByte s (a.toNat + k) = some (b k)) →
    memRead s a n signed = .ok (loadedValue s.cfg.byteOrder n signed b, s) ∧
    (signed = true → -2 ^ (8 * n - 1) ≤ loadedValue s.cfg.byteOrder n signed b ∧
      loadedValue s.cfg.byteOrder n signed b < 2 ^ (8 * n - 1)) ∧
    (signed = false → 0 ≤ loadedValue s.cfg.byteOrder n signed b ∧
      loadedValue s.cfg.byteOrder n signed b < 2 ^ (8 * n))

/-- The document's round trip (source property S3): what was stored reads back as `v mod 2^(8n)` unsigned, and
sign-extended when its high bit is set, in both byte orders. -/
def Obligations.StoreThenLoadRoundTrip : Prop :=
  ∀ (s t : State) (a : Int) (n : Nat) (v : Int), n = 1 ∨ n = 2 ∨ n = 4 → memWrite s a n v = .ok t →
    memRead t a n false = .ok (v % 2 ^ (8 * n), t) ∧
    memRead t a n true = .ok (if v % 2 ^ (8 * n) < 2 ^ (8 * n - 1) then v % 2 ^ (8 * n)
      else v % 2 ^ (8 * n) - 2 ^ (8 * n), t)

/-- Where the unwritten bytes below offset `k` of a read at `a` are, by count. -/
def Sys2Proof.Machine.unwrittenBelow (s : State) (a k : Nat) : Nat :=
  (List.range k).countP fun j => (dataByte s (a + j)).isNone

/-- The byte a read at `a` gets at offset `k` under `UNWRITTEN_READ = any`: the stored one, or the next free value,
in rising address order (notes/assumptions/3.md, notes/assumptions/18.md). -/
def Sys2Proof.Machine.drawnByte (s : State) (a k : Nat) : Byte :=
  (dataByte s (a + k)).getD (Config.freeByte (s.fresh + unwrittenBelow s a k))

/-- A read of 1, 2 or 4 bytes, signed or not, that meets unwritten bytes (the spec's decision D9): under `fault` the
fault names the first of them; under `zero` each reads as 0 and nothing changes; under `any` each is a fresh free value,
and nothing changes but the count of values drawn. The statement holds for every value of the free bytes. The model's
choice: the free values are taken in rising address order (notes/assumptions/3.md, notes/assumptions/18.md). -/
def Obligations.UnwrittenByteRead : Prop :=
  ∀ (s : State) (a : Int) (n : Nat) (signed : Bool), n = 1 ∨ n = 2 ∨ n = 4 → DataOk s.cfg a n →
    (s.cfg.unwrittenRead = .fault → ∀ k, k < n → dataByte s (a.toNat + k) = none →
      (∀ j, j < k → dataByte s (a.toNat + j) ≠ none) → memRead s a n signed = raise (.uninitialisedRead (a + k))) ∧
    (s.cfg.unwrittenRead = .zero → memRead s a n signed =
      .ok (loadedValue s.cfg.byteOrder n signed (fun k => (dataByte s (a.toNat + k)).getD 0), s)) ∧
    (s.cfg.unwrittenRead = .any → memRead s a n signed =
      .ok (loadedValue s.cfg.byteOrder n signed (drawnByte s a.toNat),
        { s with fresh := s.fresh + unwrittenBelow s a.toNat n }))

/-- Every memory operation keeps the canonical form of both memories, and two canonical data memories that
read alike are equal data. -/
def Obligations.MemoryOperationsKeepCanonicalForm : Prop :=
  ∀ (s t : State), Memory.wf s.dmem = true → IMemory.wf s.imem = true →
    (∀ a n v, memWrite s a n v = .ok t → Memory.wf t.dmem = true ∧ IMemory.wf t.imem = true) ∧
    (∀ a n sg v, memRead s a n sg = .ok (v, t) → Memory.wf t.dmem = true ∧ IMemory.wf t.imem = true) ∧
    (∀ a r, imemWrite s a r = .ok t → Memory.wf t.dmem = true ∧ IMemory.wf t.imem = true) ∧
    (Memory.wf t.dmem = true → (∀ a, dataByte s a = dataByte t a) → s.dmem = t.dmem)

/-! ### Instructions: the sequential meanings and the stages -/

/-- AND, OR and NOT act on every bit of the infinite two's complement (00_scope.md R13; the spec's decision D15). -/
def Obligations.BitwiseOperationsActOnEveryBit : Prop :=
  ∀ (a b : Int) (k : Nat),
    bitOf (bitAnd a b) k = bitOf a k * bitOf b k ∧
    bitOf (bitOr a b) k = 1 - (1 - bitOf a k) * (1 - bitOf b k) ∧
    bitOf (bitNot a) k = 1 - bitOf a k

/-- The template of a format R instruction (41_alu_register.md) with ALU function `f`: EX, MEM to WB, commit,
the hazard comparison of register 0, and the sequential effect with its frame. -/
def Sys2Proof.Machine.RegRegRule (mk : Nat → Nat → Nat → Int → Instr) (f : Config → Int → Int → Int) : Prop :=
  ∀ (rd rs rt : Nat) (imm : Int), rd < 32 → rs < 32 → rt < 32 →
    (∀ c line a b im, nextMEM c ⟨⟨mk rd rs rt imm, line⟩, some a, some b, im⟩ =
      if InRange32 (f c a b) then .ok ⟨⟨mk rd rs rt imm, line⟩, f c a b, some b, decide (f c a b = 0), 0⟩
      else raise (.arithmeticOverflow (f c a b))) ∧
    (∀ s, s.pipe.memr.instr.op = mk rd rs rt imm → nextWB s = .ok (⟨s.pipe.memr.instr, s.pipe.memr.aluResult⟩, s)) ∧
    (∀ s, s.pipe.wbr.instr.op = mk rd rs rt imm → commit s = writeReg s rd s.pipe.wbr.result) ∧
    ReadsDest { Config.p0 with fwdZeroExcluded := false } (dest (mk rd rs rt imm)) (some rd) ∧
    (∀ s, InRange32 (f s.cfg (s.reg rs) (s.reg rt)) → FetchOk s.cfg (s.pc + 4) →
      ∃ t, exec (mk rd rs rt imm) s = .next t ∧
        Retires s t (some (rd, f s.cfg (s.reg rs) (s.reg rt))) (s.pc + 4) ∧ SameMemory s t) ∧
    (∀ s, ¬ InRange32 (f s.cfg (s.reg rs) (s.reg rt)) →
      exec (mk rd rs rt imm) s = .fault (.arithmeticOverflow (f s.cfg (s.reg rs) (s.reg rt))))

/-- R161, R162: `ADD` and `SUB`: exact sum and difference, fatal outside `[-2^31, 2^32)`. -/
def Obligations.AddAndSub : Prop :=
  RegRegRule .add (fun _ a b => a + b) ∧ RegRegRule .sub (fun _ a b => a - b)

/-- `AND`, `OR`, `NOR` on the wide values (the spec's decision D15); `AND` and `OR` of register values never
fault, and `NOR` faults iff the OR is at least `2^31`. -/
def Obligations.AndOrNor : Prop :=
  RegRegRule .and (fun _ a b => bitAnd a b) ∧ RegRegRule .or (fun _ a b => bitOr a b) ∧
  RegRegRule .nor (fun _ a b => -(bitOr a b) - 1) ∧
  ∀ a b : Int, InRange32 a → InRange32 b →
    InRange32 (bitAnd a b) ∧ InRange32 (bitOr a b) ∧ (InRange32 (-(bitOr a b) - 1) ↔ bitOr a b < 2147483648)

/-- `SLT` and `SLTU` (the spec's decision D14): under `wide` the integers are compared, under `signed32` their
low 32 bits as signed numbers, and `SLTU` compares the low 32 bits unsigned. They never fault. -/
def Obligations.SltAndSltu : Prop :=
  RegRegRule .slt (fun c a b => match c.sltMode with
    | .wide => if a < b then 1 else 0
    | .signed32 => if Int.bmod a 4294967296 < Int.bmod b 4294967296 then 1 else 0) ∧
  RegRegRule .sltu (fun _ a b => if a % 4294967296 < b % 4294967296 then 1 else 0)

/-- The template of a format I instruction with ALU function `f` (42_alu_immediate_shift.md). -/
def Sys2Proof.Machine.RegImmRule (mk : Nat → Nat → Int → Instr) (f : Int → Int → Int) : Prop :=
  ∀ (rd rs : Nat) (imm : Int), rd < 32 → rs < 32 →
    (∀ c line a rtv im, nextMEM c ⟨⟨mk rd rs imm, line⟩, some a, rtv, im⟩ =
      if InRange32 (f a im) then .ok ⟨⟨mk rd rs imm, line⟩, f a im, rtv, decide (f a im = 0), 0⟩
      else raise (.arithmeticOverflow (f a im))) ∧
    (∀ s, s.pipe.memr.instr.op = mk rd rs imm → nextWB s = .ok (⟨s.pipe.memr.instr, s.pipe.memr.aluResult⟩, s)) ∧
    (∀ s, s.pipe.wbr.instr.op = mk rd rs imm → commit s = writeReg s rd s.pipe.wbr.result) ∧
    (∀ s, InRange32 (f (s.reg rs) imm) → FetchOk s.cfg (s.pc + 4) →
      ∃ t, exec (mk rd rs imm) s = .next t ∧ Retires s t (some (rd, f (s.reg rs) imm)) (s.pc + 4) ∧ SameMemory s t) ∧
    (∀ s, ¬ InRange32 (f (s.reg rs) imm) → exec (mk rd rs imm) s = .fault (.arithmeticOverflow (f (s.reg rs) imm)))

/-- `ADDI` (an opcode the spec admits by decision D1): the immediate is used as the integer it is. -/
def Obligations.AddImmediate : Prop := RegImmRule .addi (fun a imm => a + imm)

/-- `ANDI` and `ORI` on the wide values, the immediate neither extended nor masked (the spec's decision D15). -/
def Obligations.AndiAndOri : Prop := RegImmRule .andi bitAnd ∧ RegImmRule .ori bitOr

/-- R183: `LUI` puts `imm * 2^16`, fatal iff `imm < -32768` or `imm > 65535`; it reads no register, so it is
never a consumer of a hazard. -/
def Obligations.LoadUpperImmediate : Prop :=
  ∀ (rd : Nat) (imm : Int), rd < 32 →
    readsRs (.lui rd imm) = none ∧ readsRt (.lui rd imm) = none ∧ (imm * 2 ^ 16) % 2 ^ 16 = 0 ∧
    (∀ c line rsv rtv, nextMEM c ⟨⟨.lui rd imm, line⟩, rsv, rtv, imm⟩ =
      if imm < -32768 ∨ 65535 < imm then raise (.arithmeticOverflow (imm * 2 ^ 16))
      else .ok ⟨⟨.lui rd imm, line⟩, imm * 2 ^ 16, rtv, decide (imm * 2 ^ 16 = 0), 0⟩) ∧
    (∀ s, s.pipe.memr.instr.op = .lui rd imm → nextWB s = .ok (⟨s.pipe.memr.instr, s.pipe.memr.aluResult⟩, s)) ∧
    (∀ s, s.pipe.wbr.instr.op = .lui rd imm → commit s = writeReg s rd s.pipe.wbr.result) ∧
    (∀ s, -32768 ≤ imm → imm ≤ 65535 → FetchOk s.cfg (s.pc + 4) →
      ∃ t, exec (.lui rd imm) s = .next t ∧ Retires s t (some (rd, imm * 2 ^ 16)) (s.pc + 4) ∧ SameMemory s t) ∧
    (∀ s, imm < -32768 ∨ 65535 < imm → exec (.lui rd imm) s = .fault (.arithmeticOverflow (imm * 2 ^ 16)))

/-- `SLL` with a legal amount `n` (the spec's decisions D11, D13): the 32-bit shift of the low 32 bits, delivered
as the signed number those 32 bits are; under `rangecheck` it is an overflow once a one bit is shifted out. -/
def Obligations.ShiftLeftLogical : Prop :=
  ∀ (rd rt n : Nat) (s : State), rd < 32 → rt < 32 → n ≤ 31 → FetchOk s.cfg (s.pc + 4) →
    let wide := s.reg rt % 4294967296 * 2 ^ n
    (s.cfg.sllMode = .truncate32 ∨ wide < 4294967296 →
      ∃ t, exec (.sll rd rt n) s = .next t ∧
        Retires s t (some (rd, Int.bmod wide 4294967296)) (s.pc + 4) ∧ SameMemory s t) ∧
    (s.cfg.sllMode = .rangecheck → ¬ wide < 4294967296 →
      exec (.sll rd rt n) s = .fault (.arithmeticOverflow wide))

/-- `SRL` with a legal amount `n` (the spec's decisions D12, D13): the low 32 bits divided by `2^n`. -/
def Obligations.ShiftRightLogical : Prop :=
  ∀ (rd rt n : Nat) (s : State), rd < 32 → rt < 32 → n ≤ 31 → FetchOk s.cfg (s.pc + 4) →
    ∃ t, exec (.srl rd rt n) s = .next t ∧
      Retires s t (some (rd, s.reg rt % 4294967296 / 2 ^ n)) (s.pc + 4) ∧ SameMemory s t

/-- A shift amount outside 0 to 31 (the spec's decision D13): under `fault` the fault `InvalidShiftAmount`,
under `mod32` the amount mod 32. -/
def Obligations.ShiftAmount : Prop :=
  ∀ (rd rt : Nat) (imm : Int) (s : State), rt < 32 → imm < 0 ∨ 31 < imm →
    (s.cfg.shamtMode = .fault →
      exec (.sll rd rt imm) s = .fault (.invalidShiftAmount imm) ∧ exec (.srl rd rt imm) s = .fault (.invalidShiftAmount imm)) ∧
    (s.cfg.shamtMode = .mod32 →
      exec (.sll rd rt imm) s = exec (.sll rd rt (imm % 32)) s ∧ exec (.srl rd rt imm) s = exec (.srl rd rt (imm % 32)) s)

/-- The template of a load of `n` bytes (43_load_store.md R200 to R205). -/
def Sys2Proof.Machine.LoadRule (mk : Nat → Nat → Int → Instr) (n : Nat) (signed : Bool) : Prop :=
  ∀ (rd rs : Nat) (imm : Int), rd < 32 → rs < 32 →
    (∀ c line a rtv im, nextMEM c ⟨⟨mk rd rs imm, line⟩, some a, rtv, im⟩ =
      if InRange32 (a + im) then .ok ⟨⟨mk rd rs imm, line⟩, a + im, rtv, decide (a + im = 0), 0⟩
      else raise (.arithmeticOverflow (a + im))) ∧
    (∀ s m, m.instr.op = mk rd rs imm → access s m = memRead s m.aluResult n signed) ∧
    (∀ s, s.pipe.wbr.instr.op = mk rd rs imm → commit s = writeReg s rd s.pipe.wbr.result) ∧
    (∀ s (b : Nat → Byte), InRange32 (s.reg rs + imm) → DataOk s.cfg (s.reg rs + imm) n → FetchOk s.cfg (s.pc + 4) →
      (∀ k, k < n → dataByte s ((s.reg rs + imm).toNat + k) = some (b k)) →
      ∃ t, exec (mk rd rs imm) s = .next t ∧
        Retires s t (some (rd, loadedValue s.cfg.byteOrder n signed b)) (s.pc + 4) ∧ SameMemory s t) ∧
    (∀ s, ¬ InRange32 (s.reg rs + imm) → exec (mk rd rs imm) s = .fault (.arithmeticOverflow (s.reg rs + imm))) ∧
    (∀ s f, InRange32 (s.reg rs + imm) → memRead s (s.reg rs + imm) n signed = raise f → exec (mk rd rs imm) s = .fault f)

/-- R200 to R205: `LW`, `LH`, `LHU`, `LB`, `LBU`. -/
def Obligations.Loads : Prop :=
  LoadRule .lw 4 true ∧ LoadRule .lh 2 true ∧ LoadRule .lhu 2 false ∧ LoadRule .lb 1 true ∧ LoadRule .lbu 1 false

/-- The template of a store of `n` bytes (43_load_store.md R200, R206 to R208). -/
def Sys2Proof.Machine.StoreRule (mk : Nat → Nat → Int → Instr) (n : Nat) : Prop :=
  ∀ (rs rt : Nat) (imm : Int), rs < 32 → rt < 32 →
    dest (mk rs rt imm) = none ∧
    (∀ c line a b im, nextMEM c ⟨⟨mk rs rt imm, line⟩, some a, some b, im⟩ =
      if InRange32 (a + im) then .ok ⟨⟨mk rs rt imm, line⟩, a + im, some b, decide (a + im = 0), 0⟩
      else raise (.arithmeticOverflow (a + im))) ∧
    (∀ s m v, m.instr.op = mk rs rt imm → m.rtValue = some v →
      (∀ t, memWrite s m.aluResult n v = .ok t → access s m = .ok (m.aluResult, t)) ∧
      (∀ f, memWrite s m.aluResult n v = raise f → access s m = raise f)) ∧
    (∀ s, s.pipe.wbr.instr.op = mk rs rt imm → commit s = .ok s) ∧
    (∀ s, InRange32 (s.reg rs + imm) → DataOk s.cfg (s.reg rs + imm) n → FetchOk s.cfg (s.pc + 4) →
      s.cfg.narrowStoreCheck = .truncate ∨ (-2 ^ (8 * n - 1) ≤ s.reg rt ∧ s.reg rt < 2 ^ (8 * n)) →
      ∃ t, exec (mk rs rt imm) s = .next t ∧ Retires s t none (s.pc + 4) ∧
        StoredAt s t (s.reg rs + imm) n (s.reg rt)) ∧
    (∀ s, ¬ InRange32 (s.reg rs + imm) → exec (mk rs rt imm) s = .fault (.arithmeticOverflow (s.reg rs + imm))) ∧
    (∀ s f, InRange32 (s.reg rs + imm) → memWrite s (s.reg rs + imm) n (s.reg rt) = raise f →
      exec (mk rs rt imm) s = .fault f)

/-- R206: `SW`; a register value always fits its four bytes. -/
def Obligations.StoreWord : Prop :=
  StoreRule .sw 4 ∧ ∀ v : Int, InRange32 v → -2 ^ (8 * 4 - 1) ≤ v ∧ v < 2 ^ (8 * 4)

/-- `SH` and `SB`, with the narrow-store check on the whole register value (the spec's decision D10). -/
def Obligations.StoreHalfAndByte : Prop := StoreRule .sh 2 ∧ StoreRule .sb 1

/-- The template of a conditional branch whose condition on the operands is `cond` (44_control_transfer.md R220, R221). -/
def Sys2Proof.Machine.BranchRule (mk : Nat → Nat → Int → Instr) (cond : Int → Int → Bool) : Prop :=
  ∀ (rs rt : Nat) (imm : Int), rs < 32 → rt < 32 →
    dest (mk rs rt imm) = none ∧
    (∀ c line a b, nextMEM c ⟨⟨mk rs rt imm, line⟩, some a, some b, imm⟩ =
      if InRange32 (a - b) then .ok ⟨⟨mk rs rt imm, line⟩, a - b, some b, decide (a - b = 0), imm⟩
      else raise (.arithmeticOverflow (a - b))) ∧
    (∀ m, m.instr.op = mk rs rt imm → takenBranch m = cond (if m.zero then 0 else 1) 0) ∧
    (∀ s t, s.Executes → step s = .next t → s.pipe.memr.instr.op = mk rs rt imm → cond (if s.pipe.memr.zero then 0 else 1) 0 = true →
      isJump s.pipe.idr.instr.op = false → ¬ LoadUse s →
      t.pipe.ifr = fetched s s.pipe.memr.branchTarget ∧ t.pipe.idr = .bubble ∧ t.pipe.exr.instr = .bubble ∧ t.pipe.memr = .bubble) ∧
    (∀ s, s.pipe.memr.instr.op = mk rs rt imm → nextWB s = .ok (⟨s.pipe.memr.instr, s.pipe.memr.aluResult⟩, s)) ∧
    (∀ s, s.pipe.wbr.instr.op = mk rs rt imm → commit s = .ok s) ∧
    (∀ s, InRange32 (s.reg rs - s.reg rt) →
      FetchOk s.cfg (if cond (s.reg rs) (s.reg rt) then imm else s.pc + 4) →
      ∃ t, exec (mk rs rt imm) s = .next t ∧
        Retires s t none (if cond (s.reg rs) (s.reg rt) then imm else s.pc + 4) ∧ SameMemory s t) ∧
    (∀ s, ¬ InRange32 (s.reg rs - s.reg rt) → exec (mk rs rt imm) s = .fault (.arithmeticOverflow (s.reg rs - s.reg rt))) ∧
    (∀ s, InRange32 (s.reg rs - s.reg rt) → cond (s.reg rs) (s.reg rt) = true →
      (imm < s.cfg.textBase ∨ 4294967296 ≤ imm → exec (mk rs rt imm) s = .fault (.instrAddressInvalid imm)) ∧
      ((s.cfg.textBase : Int) ≤ imm → imm < 4294967296 → imm % 4 ≠ 0 →
        exec (mk rs rt imm) s = .fault (.instrAddressMisaligned imm)))

/-- `BEQ` and `BNE`: taken iff the operands are equal, or unequal, as integers; the target is the immediate, checked
only when the branch is taken. -/
def Obligations.BranchEqualAndNotEqual : Prop :=
  BranchRule .beq (fun a b => decide (a = b)) ∧ BranchRule .bne (fun a b => decide (a ≠ b))

/-- `J`: the program counter becomes the immediate, nothing else changes; in EX its result is 0 (the spec's
decision D20), it accesses no memory and commits nothing. A target that fails the fetch check faults. -/
def Obligations.Jump : Prop :=
  ∀ (imm : Int),
    readsRs (.j imm) = none ∧ readsRt (.j imm) = none ∧ dest (.j imm) = none ∧
    (∀ c line rsv rtv im, nextMEM c ⟨⟨.j imm, line⟩, rsv, rtv, im⟩ = .ok ⟨⟨.j imm, line⟩, 0, rtv, true, 0⟩) ∧
    (∀ s, FetchOk s.cfg imm → ∃ t, exec (.j imm) s = .next t ∧ Retires s t none imm ∧ SameMemory s t) ∧
    (∀ s, imm < s.cfg.textBase ∨ 4294967296 ≤ imm → exec (.j imm) s = .fault (.instrAddressInvalid imm)) ∧
    (∀ s, (s.cfg.textBase : Int) ≤ imm → imm < 4294967296 → imm % 4 ≠ 0 →
      exec (.j imm) s = .fault (.instrAddressMisaligned imm))

/-- `NOP`: the program counter advances, nothing else changes (its ALU result 0 is the spec's decision D20). At
the top of the address space the advance faults. -/
def Obligations.NoOperation : Prop :=
  ∀ (imm : Int),
    readsRs (.nop imm) = none ∧ readsRt (.nop imm) = none ∧ dest (.nop imm) = none ∧
    (∀ c line rsv rtv im, nextMEM c ⟨⟨.nop imm, line⟩, rsv, rtv, im⟩ = .ok ⟨⟨.nop imm, line⟩, 0, rtv, true, 0⟩) ∧
    (∀ s, s.pipe.memr.instr.op = .nop imm → nextWB s = .ok (⟨s.pipe.memr.instr, s.pipe.memr.aluResult⟩, s)) ∧
    (∀ s, FetchOk s.cfg (s.pc + 4) → ∃ t, exec (.nop imm) s = .next t ∧ Retires s t none (s.pc + 4) ∧ SameMemory s t) ∧
    (∀ s, s.pc + 4 = 4294967296 → exec (.nop imm) s = .fault (.instrAddressInvalid 4294967296))

/-- `SYSCALL`: it reads and writes nothing and passes through EX and MEM without effect; its one function is to
end the run, whatever the state (45_system.md; the halting point is the spec's decision D21). -/
def Obligations.SystemCall : Prop :=
  ∀ (imm : Int),
    readsRs (.syscall imm) = none ∧ readsRt (.syscall imm) = none ∧ dest (.syscall imm) = none ∧
    (∀ c line rsv rtv im, nextMEM c ⟨⟨.syscall imm, line⟩, rsv, rtv, im⟩ = .ok ⟨⟨.syscall imm, line⟩, 0, rtv, true, 0⟩) ∧
    (∀ s, s.pipe.memr.instr.op = .syscall imm → nextWB s = .ok (⟨s.pipe.memr.instr, s.pipe.memr.aluResult⟩, s)) ∧
    (∀ s, exec (.syscall imm) s = .next { s with status := .halted })

/-- No well-formed instruction is refused: `exec` answers a next state or a fault of the spec. -/
def Obligations.NoInstructionIsRefused : Prop :=
  ∀ (i : Instr) (s : State) (r : Refusal), i.wellFormed = true → exec i s ≠ .refused r

/-- The sequential meaning of every instruction but `SYSCALL` is the pipeline's own stages in sequence: operand
read, ALU, access, commit, next program counter. -/
def Obligations.ExecIsTheStagesInSequence : Prop :=
  ∀ (i : Instr) (line : Option Nat) (s : State), isSyscall i = false →
    exec i s = (stagesOf { op := i, line := line } s).toOutcome

/-! ### One cycle of the pipeline (spec/40_pipeline_engine.md) -/

/-- R111: an executed step writes the WB result to the destination of the instruction in WB, if it has one, and
no other register; an operand that nothing forwards is read after that write. -/
def Obligations.CommitPhase : Prop :=
  ∀ s t : State, s.Executes → step s = .next t →
    (∀ k, t.reg k = match dest s.pipe.wbr.instr.op with
      | some rd => if k = rd ∧ k ≠ 0 then s.pipe.wbr.result else s.reg k
      | none => s.reg k) ∧
    (takenBranch s.pipe.memr = false → dest s.pipe.memr.instr.op = none → dest s.pipe.exr.instr.op = none →
      t.pipe.exr.rsValue = (readsRs s.pipe.idr.instr.op).map t.reg ∧
      t.pipe.exr.rtValue = (readsRt s.pipe.idr.instr.op).map t.reg)

/-- R112: the next program counter is the jump target if ID holds a jump, else the target of a taken branch in
MEM, else `pc + 4`; the instruction there is fetched in the same step, and an invalid address faults in it,
even when a stall then discards the fetch. The fault is the fetch's where no other check of the step fails. -/
def Obligations.NextFetch : Prop :=
  ∀ s : State, s.Executes →
    let npc := if isJump s.pipe.idr.instr.op then s.pipe.idr.instr.op.imm
      else if takenBranch s.pipe.memr then s.pipe.memr.branchTarget else s.pc + 4
    (∀ t, step s = .next t → FetchOk s.cfg npc ∧ (¬ LoadUse s → t.pipe.ifr = fetched s npc)) ∧
    (s.Inv → ¬ FetchOk s.cfg npc → ∃ f, step s = .fault f) ∧
    (s.Inv → (∃ r, alu s.cfg s.pipe.exr = .ok r) → (∃ x, access s s.pipe.memr = .ok x) →
      (npc < s.cfg.textBase ∨ 4294967296 ≤ npc → step s = .fault (.instrAddressInvalid npc)) ∧
      ((s.cfg.textBase : Int) ≤ npc → npc < 4294967296 → npc % 4 ≠ 0 → step s = .fault (.instrAddressMisaligned npc)))

/-- R113: a jump in ID turns the instruction advancing into ID into a no-op, otherwise ID takes what IF had
fetched (a stall and a squash in phase 3 apart). -/
def Obligations.JumpSquashesItsSuccessor : Prop :=
  ∀ s t : State, s.Executes → step s = .next t → takenBranch s.pipe.memr = false → ¬ LoadUse s →
    t.pipe.idr = if isJump s.pipe.idr.instr.op then .bubble else { instr := s.pipe.ifr.instr }

/-- The operands delivered to EX: from the EX-stage producer the next-MEM ALU result, else from the MEM-stage
producer the about-to-commit WB result, else the register after this step's commit (the spec's decisions
D17, D18, D29): the youngest producer wins. -/
def Obligations.OperandDelivery : Prop :=
  ∀ (s t : State) (k : Nat), s.Executes → step s = .next t → takenBranch s.pipe.memr = false → ¬ LoadUse s →
    t.pipe.exr.instr = s.pipe.idr.instr ∧ t.pipe.exr.imm = s.pipe.idr.instr.op.imm ∧
    (readsRs s.pipe.idr.instr.op = some k →
      (ReadsDest s.cfg (dest s.pipe.exr.instr.op) (some k) → t.pipe.exr.rsValue = some t.pipe.memr.aluResult) ∧
      (¬ ReadsDest s.cfg (dest s.pipe.exr.instr.op) (some k) → ReadsDest s.cfg (dest s.pipe.memr.instr.op) (some k) →
        t.pipe.exr.rsValue = some t.pipe.wbr.result) ∧
      (¬ ReadsDest s.cfg (dest s.pipe.exr.instr.op) (some k) → ¬ ReadsDest s.cfg (dest s.pipe.memr.instr.op) (some k) →
        t.pipe.exr.rsValue = some (t.reg k))) ∧
    (readsRt s.pipe.idr.instr.op = some k →
      (ReadsDest s.cfg (dest s.pipe.exr.instr.op) (some k) → t.pipe.exr.rtValue = some t.pipe.memr.aluResult) ∧
      (¬ ReadsDest s.cfg (dest s.pipe.exr.instr.op) (some k) → ReadsDest s.cfg (dest s.pipe.memr.instr.op) (some k) →
        t.pipe.exr.rtValue = some t.pipe.wbr.result) ∧
      (¬ ReadsDest s.cfg (dest s.pipe.exr.instr.op) (some k) → ¬ ReadsDest s.cfg (dest s.pipe.memr.instr.op) (some k) →
        t.pipe.exr.rtValue = some (t.reg k))) ∧
    (readsRs s.pipe.idr.instr.op = none → t.pipe.exr.rsValue = none) ∧
    (readsRt s.pipe.idr.instr.op = none → t.pipe.exr.rtValue = none)

/-- The shift amount: the immediate, taken mod 32 under `SHAMT_MODE = mod32` (42_alu_immediate_shift.md R186). -/
def Sys2Proof.Machine.amountOf (c : Config) (im : Int) : Nat :=
  match c.shamtMode with
  | .fault => im.toNat
  | .mod32 => (im % 32).toNat

/-- The ALU table (40_pipeline_engine.md section 1, next MEM) on operand values `a`, `b` and the immediate `im`. Under `SLL_MODE = rangecheck` a
shift that loses a one bit has its whole product as the result, which is out of range. -/
def Sys2Proof.Machine.aluTable (c : Config) (i : Instr) (a b im : Int) : Int :=
  match i with
  | .add .. => a + b
  | .sub .. => a - b
  | .and .. => bitAnd a b
  | .or .. => bitOr a b
  | .nor .. => bitNot (bitOr a b)
  | .slt .. => match c.sltMode with
    | .wide => if a < b then 1 else 0
    | .signed32 => if Int.bmod a 4294967296 < Int.bmod b 4294967296 then 1 else 0
  | .sltu .. => if a % 4294967296 < b % 4294967296 then 1 else 0
  | .addi .. => a + im
  | .andi .. => bitAnd a im
  | .ori .. => bitOr a im
  | .lui .. => im * 2 ^ 16
  | .sll .. =>
    let wide := b % 4294967296 * 2 ^ amountOf c im
    if c.sllMode = .rangecheck ∧ 4294967296 ≤ wide then wide else Int.bmod wide 4294967296
  | .srl .. => b % 4294967296 / 2 ^ amountOf c im
  | .lw .. | .lh .. | .lhu .. | .lb .. | .lbu .. | .sw .. | .sh .. | .sb .. => a + im
  | .beq .. | .bne .. => a - b
  | .j .. | .nop .. | .syscall .. => 0

/-- The ALU result of the instruction in EX is the table's, under every switch setting, tested against
`[-2^31, 2^32)`; it enters MEM with its zero flag, the store data carried along, and the target of a branch. A result
out of range ends the run, squashed or not. The table's rows rest on the spec's decisions D11 to D15 and D20. The model's
choices: the product an overflowing `SLL` reports (notes/assumptions/17.md), and that the ALU's fault is the one
reported where the access of the same step fails too (notes/assumptions/14.md). Shift amounts that fault are in
`ShiftAmount`. -/
def Obligations.AluStage : Prop :=
  ∀ (s : State) (a b : Int), s.Executes →
    (∀ k, readsRs s.pipe.exr.instr.op = some k → s.pipe.exr.rsValue = some a) →
    (∀ k, readsRt s.pipe.exr.instr.op = some k → s.pipe.exr.rtValue = some b) →
    (s.cfg.shamtMode = .mod32 ∨ (0 ≤ s.pipe.exr.imm ∧ s.pipe.exr.imm ≤ 31) ∨
      ∀ rd rt im, s.pipe.exr.instr.op ≠ .sll rd rt im ∧ s.pipe.exr.instr.op ≠ .srl rd rt im) →
    let r := aluTable s.cfg s.pipe.exr.instr.op a b s.pipe.exr.imm
    (∀ t, step s = .next t → InRange32 r ∧ (takenBranch s.pipe.memr = false →
      t.pipe.memr = { instr := s.pipe.exr.instr, aluResult := r, rtValue := s.pipe.exr.rtValue, zero := decide (r = 0),
                      branchTarget := if isBranch s.pipe.exr.instr.op then s.pipe.exr.imm else 0 })) ∧
    (s.Inv → (∃ x, nextIF s = .ok x) → ¬ InRange32 r → step s = .fault (.arithmeticOverflow r))

/-- The instruction in MEM moves to WB whatever phase 3 does: with the loaded value for a load, with its ALU
result otherwise; and the step draws free values and changes data memory by its access alone. -/
def Obligations.AccessAndNextWb : Prop :=
  ∀ s t : State, s.Executes → step s = .next t →
    t.pipe.wbr.instr = s.pipe.memr.instr ∧
    (isLoad s.pipe.memr.instr.op = true → ∃ s', memRead s s.pipe.memr.aluResult (accessSize s.pipe.memr.instr.op)
      (accessSigned s.pipe.memr.instr.op) = .ok (t.pipe.wbr.result, s') ∧ t.fresh = s'.fresh) ∧
    (isLoad s.pipe.memr.instr.op = false → t.pipe.wbr.result = s.pipe.memr.aluResult ∧ t.fresh = s.fresh) ∧
    (isStore s.pipe.memr.instr.op = false → ∀ a, dataByte t a = dataByte s a) ∧
    (isStore s.pipe.memr.instr.op = true → ∃ v, s.pipe.memr.rtValue = some v ∧
      StoredAt s t s.pipe.memr.aluResult (accessSize s.pipe.memr.instr.op) v)

/-- R117, R118: a branch in MEM is taken iff it is a `BEQ` with the zero flag set or a `BNE` with it clear; the
step then clears next ID, EX and MEM to no-ops, fetches from the branch target unless a jump in ID took
priority, and moves the branch itself to WB (a simultaneous load-use stall apart). -/
def Obligations.TakenBranchSquashesThree : Prop :=
  ∀ s t : State, s.Executes → step s = .next t →
    (takenBranch s.pipe.memr = true ↔
      (∃ rs rt im, s.pipe.memr.instr.op = .beq rs rt im ∧ s.pipe.memr.zero = true) ∨
      (∃ rs rt im, s.pipe.memr.instr.op = .bne rs rt im ∧ s.pipe.memr.zero = false)) ∧
    (takenBranch s.pipe.memr = true →
      t.pipe.memr = .bubble ∧ t.pipe.exr.instr = .bubble ∧ t.pipe.wbr.instr = s.pipe.memr.instr ∧
      (¬ LoadUse s → t.pipe.idr = .bubble ∧
        t.pipe.ifr = fetched s (if isJump s.pipe.idr.instr.op then s.pipe.idr.instr.op.imm else s.pipe.memr.branchTarget)))

/-- R120: when the instruction in ID reads the destination of the one in EX, and no taken branch is in MEM: behind a load
the next IF and ID repeat the current ones and next EX is a bubble, while the load moves on; behind any other producer
the next-MEM ALU result is forwarded into each such operand, without a stall. -/
def Obligations.LoadUseStallOrForward : Prop :=
  ∀ s t : State, s.Executes → step s = .next t → takenBranch s.pipe.memr = false → HitsEx s →
    (isLoad s.pipe.exr.instr.op = true →
      t.pipe.ifr = s.pipe.ifr ∧ t.pipe.idr = s.pipe.idr ∧ t.pipe.exr = .bubble ∧
      t.pipe.memr.instr = s.pipe.exr.instr ∧ t.pipe.wbr.instr = s.pipe.memr.instr) ∧
    (isLoad s.pipe.exr.instr.op = false →
      (ReadsDest s.cfg (dest s.pipe.exr.instr.op) (readsRs s.pipe.idr.instr.op) → t.pipe.exr.rsValue = some t.pipe.memr.aluResult) ∧
      (ReadsDest s.cfg (dest s.pipe.exr.instr.op) (readsRt s.pipe.idr.instr.op) → t.pipe.exr.rtValue = some t.pipe.memr.aluResult) ∧
      t.pipe.exr.instr = s.pipe.idr.instr)

/-- Exactly one stall cycle separates a load and a reader of its destination right behind it, and the reader
then receives the loaded value by forwarding (source property S7). -/
def Obligations.LoadUseCostsOneCycle : Prop :=
  ∀ s t u : State, s.Executes → takenBranch s.pipe.memr = false → LoadUse s → step s = .next t →
    t.Executes → step t = .next u →
    t.pipe.ifr = s.pipe.ifr ∧ t.pipe.idr = s.pipe.idr ∧ isNop t.pipe.exr.instr.op = true ∧
    u.pipe.exr.instr = s.pipe.idr.instr ∧ u.pipe.idr.instr = s.pipe.ifr.instr ∧
    u.pipe.wbr.instr = s.pipe.exr.instr ∧
    (ReadsDest s.cfg (dest s.pipe.exr.instr.op) (readsRs s.pipe.idr.instr.op) → u.pipe.exr.rsValue = some u.pipe.wbr.result) ∧
    (ReadsDest s.cfg (dest s.pipe.exr.instr.op) (readsRt s.pipe.idr.instr.op) → u.pipe.exr.rtValue = some u.pipe.wbr.result)

/-- A `J` two slots after a taken branch captures the fetch: the branch target is not fetched, and the `J` itself
is squashed (70_reset_and_hazards.md, first hazard). -/
def Obligations.JumpInShadowCapturesTheFetch : Prop :=
  ∀ (s t : State) (target : Int), s.Executes → takenBranch s.pipe.memr = true → s.pipe.idr.instr.op = .j target →
    step s = .next t →
    t.pipe.ifr = fetched s target ∧ t.pipe.idr = .bubble ∧ t.pipe.exr.instr = .bubble ∧ t.pipe.memr = .bubble ∧
    t.pipe.wbr.instr = s.pipe.memr.instr

/-- A load-use pair right after a taken branch cancels the redirect: the wrong-path instructions in IF and ID
stay, the load and the branch target's fetch are gone (70_reset_and_hazards.md, second hazard; the spec's decision D17). -/
def Obligations.LoadUseInShadowCancelsTheBranch : Prop :=
  ∀ s t : State, s.Executes → takenBranch s.pipe.memr = true → LoadUse s → step s = .next t →
    t.pipe.ifr = s.pipe.ifr ∧ t.pipe.idr = s.pipe.idr ∧ t.pipe.exr = .bubble ∧ t.pipe.memr = .bubble ∧
    t.pipe.wbr.instr = s.pipe.memr.instr

/-- Register 0 as a destination is forwarded unless `FWD_ZERO_EXCLUDED`, though it always reads 0
(70_reset_and_hazards.md, third hazard; the spec's decision D16). -/
def Obligations.ZeroDestinationIsForwarded : Prop :=
  ∀ s t : State, s.Executes → takenBranch s.pipe.memr = false → dest s.pipe.exr.instr.op = some 0 →
    isLoad s.pipe.exr.instr.op = false → readsRs s.pipe.idr.instr.op = some 0 → step s = .next t →
    t.reg 0 = 0 ∧
    (s.cfg.fwdZeroExcluded = false → t.pipe.exr.rsValue = some t.pipe.memr.aluResult) ∧
    (s.cfg.fwdZeroExcluded = true → t.pipe.exr.rsValue = some 0)

/-- An instruction on the wrong path that is in EX faults although the same step squashes it
(the spec's decision D23). -/
def Obligations.WrongPathInstructionFaults : Prop :=
  ∀ (s : State) (f : Fault), s.Inv → s.Executes → takenBranch s.pipe.memr = true → (∃ x, nextIF s = .ok x) →
    alu s.cfg s.pipe.exr = raise f → step s = .fault f

/-- R126: an executed step counts one cycle, and one retired instruction unless the instruction in WB before
the step is a no-op; `CPI` is `cycles / retired`, and no value when nothing retired. The report after a run is the two
counters and `CPI`; the snapshot before a step shows the five pipeline registers and the 32 registers as they read,
and nothing of data memory (60_exceptions.md section 5, debug and trace). -/
def Obligations.Counters : Prop :=
  (∀ s t : State, s.Executes → step s = .next t →
    t.cycles = s.cycles + 1 ∧ t.retired = s.retired + (if isNop s.pipe.wbr.instr.op then 0 else 1)) ∧
  (∀ s : State, s.retired = 0 → cpi s = none) ∧
  (∀ s : State, s.retired ≠ 0 → ∃ q : ℚ, cpi s = some q ∧ q * s.retired = s.cycles) ∧
  (∀ s : State, report s = (s.cycles, s.retired, cpi s)) ∧
  (∀ s : State, (snapshot s).pipe = s.pipe ∧ (snapshot s).regs.length = 32 ∧
    ∀ k, k < 32 → (snapshot s).regs[k]? = some (s.reg k)) ∧
  (∀ s t : State, s.pipe = t.pipe → (∀ k, s.reg k = t.reg k) → snapshot s = snapshot t)

/-- How the run status moves. The run halts when a `SYSCALL` is in WB: before the step, which is not executed or counted,
or after it, by `HALT_BEFORE_FINAL_STEP` (the spec's decision D21); nothing else halts it. A fault ends it: the run loop
records the fault, and every later turn leaves the state as it is. The model's choices: a halted machine's step answers
the same state (notes/assumptions/7.md), and the state recorded with a fault is the one before the faulting step
(notes/assumptions/8.md). -/
def Obligations.HaltOnSystemCall : Prop :=
  (∀ s, s.status = .running → isSyscall s.pipe.wbr.instr.op = true → s.cfg.haltBeforeFinalStep = true →
    step s = .next { s with status := .halted }) ∧
  (∀ s t, s.status = .running → isSyscall s.pipe.wbr.instr.op = true → s.cfg.haltBeforeFinalStep = false →
    step s = .next t → t.status = .halted) ∧
  (∀ s t, s.status = .running → isSyscall s.pipe.wbr.instr.op = false → step s = .next t → t.status = .running) ∧
  (∀ s, s.status = .halted → step s = .next s) ∧
  (∀ s f, s.status = .faulted f → step s = .fault f) ∧
  (∀ s f, s.status = .running → step s = .fault f → loopTurn s = { s with status := .faulted f }) ∧
  (∀ s n, s.status ≠ .running → runLoop n s = s) ∧
  (∀ s n t, runSteps n s = .next t → runLoop n s = t) ∧
  (∀ s n f, s.status = .running → runSteps n s = .fault f → (runLoop n s).status = .faulted f)

/-- Under the invariant the commit and the operand reads of a step cannot fail, and an executing step answers a next
state exactly when its three other checks pass: the fetch, the ALU of the instruction in EX, and the access of the
instruction in MEM; otherwise it faults. -/
def Obligations.StepAnswersExactlyWhenChecksPass : Prop :=
  ∀ s : State, s.Inv → s.Executes →
    ((∃ t, step s = .next t) ↔
      (∃ x, nextIF s = .ok x) ∧ (∃ r, alu s.cfg s.pipe.exr = .ok r) ∧ (∃ p, access s s.pipe.memr = .ok p)) ∧
    ((∃ t, step s = .next t) ∨ (∃ f, step s = .fault f))

/-- Every step keeps the invariant, from every state that meets it; and no step, from any state, changes the
instruction memory or the parameters of the run. -/
def Obligations.StepKeepsInvariant : Prop :=
  ∀ s t : State, step s = .next t → (s.Inv → t.Inv) ∧ t.imem = s.imem ∧ t.cfg = s.cfg

/-- From every state that meets the invariant, a running machine is never refused a step and never raises
`InvalidRegisterNumber` or `RegisterValueRange`. -/
def Obligations.UnreachableStopsAreUnreachable : Prop :=
  ∀ s : State, s.Inv → s.status = .running →
    (∀ r, step s ≠ .refused r) ∧ (∀ i, step s ≠ .fault (.invalidRegisterNumber i)) ∧
    (∀ v, step s ≠ .fault (.registerValueRange v))

/-- The source lines are invisible: two machines that differ only in them take steps that differ only in them,
and stop alike (the spec's decision D27). -/
def Obligations.SourceLinesAreInvisible : Prop :=
  ∀ s t : State, SameButLines s t →
    (∀ s', step s = .next s' → ∃ t', step t = .next t' ∧ SameButLines s' t') ∧
    (∀ f, step s = .fault f → step t = .fault f) ∧
    (∀ r, step s = .refused r → step t = .refused r)

/-! ### The pipeline and the sequential meaning -/

/-- A packed word that decodes is placed at the program counter, in instruction memory and in IF, and nothing
else changes; the next step moves that instruction into ID with the fetch behind it. A word that decodes to
nothing is refused by the next step (the model's own loading convention, notes/assumptions/10.md; its line is `GENERATED`,
notes/assumptions/13.md). -/
def Obligations.FetchWordIsTheNextInstruction : Prop :=
  ∀ (s : State) (w : PackedWord),
    (∀ i, decode w = .ok i →
      let t := s.withFetchWord 88 w.toNat
      t.pipe = { s.pipe with ifr := { instr := { op := i, line := none }, pc := s.pc } } ∧
      instrAt t s.pc.toNat = { op := i, line := none } ∧ (∀ a, a ≠ s.pc.toNat → instrAt t a = instrAt s a) ∧
      t = { s with pipe := t.pipe, imem := t.imem } ∧
      (s.Drained → s.status = .running → FetchOk s.cfg (s.pc + 4) →
        ∃ u, step t = .next u ∧ u.pipe.idr.instr.op = i ∧ u.pipe.ifr = fetched t (s.pc + 4))) ∧
    (∀ e, decode w = .error e → step (s.withFetchWord 88 w.toNat) = .refused (.staticError .illegalInstruction))

/-- A drained pipeline runs the instruction at the program counter, where no other instruction but `NOP` stands in
instruction memory and what is fetched behind it and behind its target stays below `2^32`: five steps leave the
registers, the data memory and the status that the instruction's sequential meaning leaves, the program counter it goes
to has been fetched on the way, and where the sequential meaning faults the pipeline stops with the same fault. So runs
any legal word placed on the reset state, at parameter set P0 (notes/assumptions/1.md, notes/assumptions/10.md). -/
def Obligations.DrainedPipelineRunsTheInstruction : Prop :=
  (∀ s : State, s.Inv → s.status = .running → s.Drained → s.AloneAtPc → s.pc + 20 < 4294967296 →
    (isJump s.pipe.ifr.instr.op = true ∨ isBranch s.pipe.ifr.instr.op = true →
      FetchOk s.cfg s.pipe.ifr.instr.op.imm → s.pipe.ifr.instr.op.imm + 16 < 4294967296) →
    (∀ t, exec s.pipe.ifr.instr.op s = .next t →
      ∃ u, runSteps 5 s = .next u ∧ (∀ k, u.reg k = t.reg k) ∧ (∀ a, dataByte u a = dataByte t a) ∧
        u.status = t.status ∧ u.fresh = t.fresh ∧
        ∃ n v, n ≤ 4 ∧ runSteps n s = .next v ∧ v.pipe.ifr = t.pipe.ifr) ∧
    (∀ f, exec s.pipe.ifr.instr.op s = .fault f → runSteps 5 s = .fault f)) ∧
  (∀ (w : PackedWord) (i : Instr), decode w = .ok i →
    (isJump i = true ∨ isBranch i = true → FetchOk Config.p0 i.imm → i.imm + 16 < 4294967296) →
    let s := State.reset.withFetchWord 88 w.toNat
    (∀ t, exec i s = .next t →
      ∃ u, runSteps 5 s = .next u ∧ (∀ k, u.reg k = t.reg k) ∧ (∀ a, dataByte u a = dataByte t a) ∧ u.status = t.status) ∧
    (∀ f, exec i s = .fault f → runSteps 5 s = .fault f))

/-- The spec's conjecture R294 with one side condition of the model's own (what is fetched behind an instruction
stays below `2^32`): if the sequential run of a loaded program halts and is free of the hazards at every
instruction, the pipelined run halts with the same registers and the same data memory. -/
def Obligations.PipelineEqualsSequentialMachine : Prop :=
  ∀ (s t : State) (n : Nat), s.Inv → s.status = .running → s.Drained → s.cfg.haltBeforeFinalStep = true →
    seqRun n s = .next t → t.status = .halted →
    (∀ k x, seqRun k s = .next x → x.status = .running → HazardFreeAt x) →
    ∃ u, s.HaltsIn u ∧ (∀ k, u.reg k = t.reg k) ∧ (∀ a, dataByte u a = dataByte t a)
end

