-- ==== Sys2Proof/Laws/Cells.lean ====
section
/-! SUPPORT. The canonical lists behind both memories: read after write, and that every update keeps the canonical form. -/

namespace Sys2Proof.Machine

variable {α : Type}

@[simp] theorem cellAt_putCell_same (m : List (Nat × α)) (a : Nat) (v : α) :
    cellAt (putCell m a v) a = some v := by
  induction m with
  | nil => simp [putCell, cellAt]
  | cons e rest ih =>
    obtain ⟨k, w⟩ := e
    unfold putCell
    split
    · simp [cellAt, ih]; omega
    · split <;> simp [cellAt]

theorem cellAt_putCell_other (m : List (Nat × α)) {a b : Nat} (v : α) (h : b ≠ a) :
    cellAt (putCell m a v) b = cellAt m b := by
  induction m with
  | nil => simp [putCell, cellAt]; omega
  | cons e rest ih =>
    obtain ⟨k, w⟩ := e
    unfold putCell
    split
    · simp [cellAt, ih]
    · split
      · simp only [cellAt]; split
        · omega
        · split
          · omega
          · rfl
      · simp only [cellAt]; split
        · omega
        · rfl

/-- What every address holds after a put. -/
theorem cellAt_putCell (m : List (Nat × α)) (a b : Nat) (v : α) :
    cellAt (putCell m a v) b = if b = a then some v else cellAt m b := by
  split
  · subst_vars; simp
  · exact cellAt_putCell_other m v ‹_›

/-- What every address holds after a removal. -/
theorem cellAt_dropCell (m : List (Nat × α)) (a b : Nat) :
    cellAt (dropCell m a) b = if b = a then none else cellAt m b := by
  induction m with
  | nil => simp [dropCell, cellAt]
  | cons e rest ih =>
    obtain ⟨k, w⟩ := e
    unfold dropCell
    split
    · rw [ih]; subst_vars; split
      · rfl
      · simp only [cellAt]; split
        · omega
        · rfl
    · simp only [cellAt, ih]; split
      · split
        · omega
        · rfl
      · rfl

theorem risingFrom_le {lo lo' : Nat} (h : lo' ≤ lo) {m : List (Nat × α)} (hm : risingFrom lo m = true) :
    risingFrom lo' m = true := by
  cases m with
  | nil => rfl
  | cons e rest =>
    simp [risingFrom] at *
    exact ⟨by omega, hm.2⟩

theorem risingFrom_putCell {lo a : Nat} (h : lo ≤ a) (m : List (Nat × α)) (v : α)
    (hm : risingFrom lo m = true) : risingFrom lo (putCell m a v) = true := by
  induction m generalizing lo with
  | nil => simp [putCell, risingFrom, h]
  | cons e rest ih =>
    obtain ⟨k, w⟩ := e
    simp [risingFrom] at hm
    unfold putCell
    split
    · simp [risingFrom, hm.1]; exact ih (by omega) hm.2
    · split
      · subst_vars; simp [risingFrom, hm.1, hm.2]
      · simp [risingFrom, h, hm.2]; omega

theorem risingFrom_dropCell {lo a : Nat} (m : List (Nat × α))
    (hm : risingFrom lo m = true) : risingFrom lo (dropCell m a) = true := by
  induction m generalizing lo with
  | nil => rfl
  | cons e rest ih =>
    obtain ⟨k, w⟩ := e
    simp [risingFrom] at hm
    unfold dropCell
    split
    · exact risingFrom_le (by omega) (ih hm.2)
    · simp [risingFrom, hm.1]; exact ih hm.2

theorem mem_putCell {m : List (Nat × α)} {a : Nat} {v : α} {e : Nat × α} (h : e ∈ putCell m a v) :
    e = (a, v) ∨ e ∈ m := by
  induction m with
  | nil => simpa [putCell] using h
  | cons e' rest ih =>
    obtain ⟨k, w⟩ := e'
    unfold putCell at h
    split at h
    · simp at h ⊢; tauto
    · split at h <;> (simp at h ⊢; tauto)

theorem mem_dropCell {m : List (Nat × α)} {a : Nat} {e : Nat × α} (h : e ∈ dropCell m a) : e ∈ m := by
  induction m with
  | nil => simp [dropCell] at h
  | cons e' rest ih =>
    obtain ⟨k, w⟩ := e'
    unfold dropCell at h
    split at h
    · simp [ih h]
    · simp at h ⊢; tauto

/-- Nothing is listed below the lower bound of a rising list. -/
theorem cellAt_below {lo a : Nat} {m : List (Nat × α)} (hm : risingFrom lo m = true) (h : a < lo) :
    cellAt m a = none := by
  induction m generalizing lo with
  | nil => rfl
  | cons e rest ih =>
    obtain ⟨k, w⟩ := e
    simp [risingFrom] at hm
    simp only [cellAt]
    split
    · omega
    · exact ih hm.2 (by omega)

theorem mem_of_cellAt {m : List (Nat × α)} {a : Nat} {v : α} (h : cellAt m a = some v) : (a, v) ∈ m := by
  induction m with
  | nil => simp [cellAt] at h
  | cons e rest ih =>
    obtain ⟨k, w⟩ := e
    simp only [cellAt] at h
    split at h
    · simp_all
    · simp [ih h]

/-- The canonical form is canonical: two rising lists that read alike are equal. -/
theorem cells_ext {lo : Nat} {m m' : List (Nat × α)} (hm : risingFrom lo m = true) (hm' : risingFrom lo m' = true)
    (h : ∀ a, cellAt m a = cellAt m' a) : m = m' := by
  induction m generalizing lo m' with
  | nil =>
    cases m' with
    | nil => rfl
    | cons e' r' => have := h e'.1; simp [cellAt] at this
  | cons e rest ih =>
    obtain ⟨k, w⟩ := e
    cases m' with
    | nil => have := h k; simp [cellAt] at this
    | cons e' r' =>
      obtain ⟨k', w'⟩ := e'
      simp [risingFrom] at hm hm'
      have hk : k = k' := by
        by_contra hne
        rcases Nat.lt_or_gt_of_ne hne with hlt | hlt
        · have := h k
          rw [show cellAt ((k', w') :: r') k = none by
            simp only [cellAt]; split
            · omega
            · exact cellAt_below hm'.2 (by omega)] at this
          simp [cellAt] at this
        · have := h k'
          rw [show cellAt ((k, w) :: rest) k' = none by
            simp only [cellAt]; split
            · omega
            · exact cellAt_below hm.2 (by omega)] at this
          simp [cellAt] at this
      subst hk
      have hw := h k
      simp [cellAt] at hw
      subst hw
      congr 1
      refine ih hm.2 hm'.2 fun a => ?_
      by_cases ha : a = k
      · subst ha; rw [cellAt_below hm.2 (by omega), cellAt_below hm'.2 (by omega)]
      · have := h a
        simp only [cellAt] at this
        rw [if_neg (Ne.symm ha), if_neg (Ne.symm ha)] at this
        exact this

/-! ### Writing bytes -/

/-- What every address holds after a write of bytes. -/
theorem cellAt_writeBytes (m : List Host.Cell) (a b : Nat) (bs : List Byte) :
    cellAt (writeBytes m a bs) b = if a ≤ b ∧ b < a + bs.length then bs[b - a]? else cellAt m b := by
  induction bs generalizing m a with
  | nil => simp [writeBytes]
  | cons x rest ih =>
    simp only [writeBytes, ih, cellAt_putCell, List.length_cons]
    by_cases h1 : b = a
    · subst h1; simp
    · by_cases h2 : a + 1 ≤ b ∧ b < a + 1 + rest.length
      · rw [if_pos h2, if_pos (by omega)]
        rw [show b - a = (b - (a + 1)) + 1 by omega]; simp
      · rw [if_neg h2, if_neg h1, if_neg (by omega)]

theorem wf_writeBytes (m : List Host.Cell) (a : Nat) (bs : List Byte) (h : Memory.wf m = true) :
    Memory.wf (writeBytes m a bs) = true := by
  induction bs generalizing m a with
  | nil => exact h
  | cons x rest ih => exact ih _ _ (risingFrom_putCell (Nat.zero_le _) m x h)

theorem mem_writeBytes {m : List Host.Cell} {a : Nat} {bs : List Byte} {e : Host.Cell}
    (h : e ∈ writeBytes m a bs) : (a ≤ e.1 ∧ e.1 < a + bs.length) ∨ e ∈ m := by
  induction bs generalizing m a with
  | nil => exact .inr h
  | cons x rest ih =>
    rcases ih h with h | h
    · left; simp; omega
    · rcases mem_putCell h with rfl | h
      · left; simp
      · exact .inr h

/-! ### Instruction memory -/

theorem wf_putInstr (m : List (Nat × InstrRec)) (a : Nat) (r : InstrRec) (h : IMemory.wf m = true) :
    IMemory.wf (putInstr m a r) = true := by
  simp only [IMemory.wf, Bool.and_eq_true, List.all_eq_true] at *
  unfold putInstr
  split
  · exact ⟨risingFrom_dropCell m h.1, fun e he => h.2 e (mem_dropCell he)⟩
  · refine ⟨risingFrom_putCell (Nat.zero_le _) m r h.1, fun e he => ?_⟩
    rcases mem_putCell he with rfl | he
    · simpa using ‹_›
    · exact h.2 e he

/-- What every slot holds after a write of the instruction memory. -/
theorem instrAt_putInstr (s : State) (a b : Nat) (r : InstrRec) :
    instrAt (s.withImem (putInstr s.imem a r)) b = if b = a then r else instrAt s b := by
  unfold instrAt putInstr State.withImem
  by_cases hr : r = unlistedInstr
  · simp only [hr, if_true, cellAt_dropCell]; split <;> simp
  · simp only [hr, if_false, cellAt_putCell]; split <;> simp

end Sys2Proof.Machine
end

