-- ==== Sys2Proof/Laws/Result.lean ====
section
/-! SUPPORT. Computations that may stop: how a bind and an outcome come apart. -/

namespace Sys2Proof.Machine

variable {α β : Type}

@[simp] theorem ok_bind (a : α) (f : α → Res β) : ((Except.ok a : Res α) >>= f) = f a := rfl
@[simp] theorem error_bind (e : Stop) (f : α → Res β) : ((Except.error e : Res α) >>= f) = .error e := rfl
@[simp] theorem pure_eq_ok (a : α) : (pure a : Res α) = .ok a := rfl

/-- A bind answers a result iff both parts do. -/
theorem bind_eq_ok {x : Res α} {f : α → Res β} {b : β} :
    (x >>= f) = .ok b ↔ ∃ a, x = .ok a ∧ f a = .ok b := by
  cases x <;> simp

/-- A bind stops iff the first part stops, or it answers and the second part stops. -/
theorem bind_eq_error {x : Res α} {f : α → Res β} {e : Stop} :
    (x >>= f) = .error e ↔ x = .error e ∨ ∃ a, x = .ok a ∧ f a = .error e := by
  cases x <;> simp

@[simp] theorem toOutcome_ok (a : α) : Res.toOutcome (.ok a) = .next a := rfl
@[simp] theorem toOutcome_raise (f : Fault) : Res.toOutcome (raise f : Res α) = .fault f := rfl
@[simp] theorem toOutcome_refuse (r : Refusal) : Res.toOutcome (refuse r : Res α) = .refused r := rfl

@[simp] theorem raise_bind (f : Fault) (g : α → Res β) : ((raise f : Res α) >>= g) = raise f := rfl
@[simp] theorem refuse_bind (r : Refusal) (g : α → Res β) : ((refuse r : Res α) >>= g) = refuse r := rfl
@[simp] theorem raise_ne_ok (f : Fault) (a : α) : (raise f : Res α) ≠ .ok a := by simp [raise]
@[simp] theorem refuse_ne_ok (r : Refusal) (a : α) : (refuse r : Res α) ≠ .ok a := by simp [refuse]
@[simp] theorem raise_inj {f g : Fault} : (raise f : Res α) = raise g ↔ f = g := by simp [raise]
@[simp] theorem raise_ne_refuse (f : Fault) (r : Refusal) : (raise f : Res α) ≠ refuse r := by simp [raise, refuse]

theorem toOutcome_eq_next {x : Res α} {a : α} : x.toOutcome = .next a ↔ x = .ok a := by
  rcases x with ⟨_ | _⟩ | _ <;> simp [Res.toOutcome]

theorem toOutcome_eq_fault {x : Res α} {f : Fault} : x.toOutcome = .fault f ↔ x = raise f := by
  rcases x with ⟨_ | _⟩ | _ <;> simp [Res.toOutcome, raise]

theorem toOutcome_eq_refused {x : Res α} {r : Refusal} : x.toOutcome = .refused r ↔ x = refuse r := by
  rcases x with ⟨_ | _⟩ | _ <;> simp [Res.toOutcome, refuse]

end Sys2Proof.Machine
end

