-- ==== Sys2Proof/Laws/State.lean ====
section
/-! SUPPORT. One lemma per field per update of State, true by rfl, so that no proof unfolds a record update. -/

namespace Sys2Proof.Machine

variable (s : State)

@[simp] theorem State.withRegs_regs (r : Vector Int 32) : (s.withRegs r).regs = r := rfl
@[simp] theorem State.withRegs_pipe (r : Vector Int 32) : (s.withRegs r).pipe = s.pipe := rfl
@[simp] theorem State.withRegs_imem (r : Vector Int 32) : (s.withRegs r).imem = s.imem := rfl
@[simp] theorem State.withRegs_dmem (r : Vector Int 32) : (s.withRegs r).dmem = s.dmem := rfl
@[simp] theorem State.withRegs_status (r : Vector Int 32) : (s.withRegs r).status = s.status := rfl
@[simp] theorem State.withRegs_cycles (r : Vector Int 32) : (s.withRegs r).cycles = s.cycles := rfl
@[simp] theorem State.withRegs_retired (r : Vector Int 32) : (s.withRegs r).retired = s.retired := rfl
@[simp] theorem State.withRegs_fresh (r : Vector Int 32) : (s.withRegs r).fresh = s.fresh := rfl
@[simp] theorem State.withRegs_cfg (r : Vector Int 32) : (s.withRegs r).cfg = s.cfg := rfl

@[simp] theorem State.withPipe_regs (p : Pipeline) : (s.withPipe p).regs = s.regs := rfl
@[simp] theorem State.withPipe_pipe (p : Pipeline) : (s.withPipe p).pipe = p := rfl
@[simp] theorem State.withPipe_imem (p : Pipeline) : (s.withPipe p).imem = s.imem := rfl
@[simp] theorem State.withPipe_dmem (p : Pipeline) : (s.withPipe p).dmem = s.dmem := rfl
@[simp] theorem State.withPipe_status (p : Pipeline) : (s.withPipe p).status = s.status := rfl
@[simp] theorem State.withPipe_cycles (p : Pipeline) : (s.withPipe p).cycles = s.cycles := rfl
@[simp] theorem State.withPipe_retired (p : Pipeline) : (s.withPipe p).retired = s.retired := rfl
@[simp] theorem State.withPipe_fresh (p : Pipeline) : (s.withPipe p).fresh = s.fresh := rfl
@[simp] theorem State.withPipe_cfg (p : Pipeline) : (s.withPipe p).cfg = s.cfg := rfl

@[simp] theorem State.withIF_regs (r : IFRec) : (s.withIF r).regs = s.regs := rfl
@[simp] theorem State.withIF_pipe (r : IFRec) : (s.withIF r).pipe = { s.pipe with ifr := r } := rfl
@[simp] theorem State.withIF_imem (r : IFRec) : (s.withIF r).imem = s.imem := rfl
@[simp] theorem State.withIF_dmem (r : IFRec) : (s.withIF r).dmem = s.dmem := rfl
@[simp] theorem State.withIF_status (r : IFRec) : (s.withIF r).status = s.status := rfl
@[simp] theorem State.withIF_cycles (r : IFRec) : (s.withIF r).cycles = s.cycles := rfl
@[simp] theorem State.withIF_retired (r : IFRec) : (s.withIF r).retired = s.retired := rfl
@[simp] theorem State.withIF_fresh (r : IFRec) : (s.withIF r).fresh = s.fresh := rfl
@[simp] theorem State.withIF_cfg (r : IFRec) : (s.withIF r).cfg = s.cfg := rfl

@[simp] theorem State.withImem_regs (m : List (Nat × InstrRec)) : (s.withImem m).regs = s.regs := rfl
@[simp] theorem State.withImem_pipe (m : List (Nat × InstrRec)) : (s.withImem m).pipe = s.pipe := rfl
@[simp] theorem State.withImem_imem (m : List (Nat × InstrRec)) : (s.withImem m).imem = m := rfl
@[simp] theorem State.withImem_dmem (m : List (Nat × InstrRec)) : (s.withImem m).dmem = s.dmem := rfl
@[simp] theorem State.withImem_status (m : List (Nat × InstrRec)) : (s.withImem m).status = s.status := rfl
@[simp] theorem State.withImem_cycles (m : List (Nat × InstrRec)) : (s.withImem m).cycles = s.cycles := rfl
@[simp] theorem State.withImem_retired (m : List (Nat × InstrRec)) : (s.withImem m).retired = s.retired := rfl
@[simp] theorem State.withImem_fresh (m : List (Nat × InstrRec)) : (s.withImem m).fresh = s.fresh := rfl
@[simp] theorem State.withImem_cfg (m : List (Nat × InstrRec)) : (s.withImem m).cfg = s.cfg := rfl

@[simp] theorem State.withDmem_regs (m : List Host.Cell) : (s.withDmem m).regs = s.regs := rfl
@[simp] theorem State.withDmem_pipe (m : List Host.Cell) : (s.withDmem m).pipe = s.pipe := rfl
@[simp] theorem State.withDmem_imem (m : List Host.Cell) : (s.withDmem m).imem = s.imem := rfl
@[simp] theorem State.withDmem_dmem (m : List Host.Cell) : (s.withDmem m).dmem = m := rfl
@[simp] theorem State.withDmem_status (m : List Host.Cell) : (s.withDmem m).status = s.status := rfl
@[simp] theorem State.withDmem_cycles (m : List Host.Cell) : (s.withDmem m).cycles = s.cycles := rfl
@[simp] theorem State.withDmem_retired (m : List Host.Cell) : (s.withDmem m).retired = s.retired := rfl
@[simp] theorem State.withDmem_fresh (m : List Host.Cell) : (s.withDmem m).fresh = s.fresh := rfl
@[simp] theorem State.withDmem_cfg (m : List Host.Cell) : (s.withDmem m).cfg = s.cfg := rfl

@[simp] theorem State.withStatus_regs (r : RunStatus) : (s.withStatus r).regs = s.regs := rfl
@[simp] theorem State.withStatus_pipe (r : RunStatus) : (s.withStatus r).pipe = s.pipe := rfl
@[simp] theorem State.withStatus_imem (r : RunStatus) : (s.withStatus r).imem = s.imem := rfl
@[simp] theorem State.withStatus_dmem (r : RunStatus) : (s.withStatus r).dmem = s.dmem := rfl
@[simp] theorem State.withStatus_status (r : RunStatus) : (s.withStatus r).status = r := rfl
@[simp] theorem State.withStatus_cycles (r : RunStatus) : (s.withStatus r).cycles = s.cycles := rfl
@[simp] theorem State.withStatus_retired (r : RunStatus) : (s.withStatus r).retired = s.retired := rfl
@[simp] theorem State.withStatus_fresh (r : RunStatus) : (s.withStatus r).fresh = s.fresh := rfl
@[simp] theorem State.withStatus_cfg (r : RunStatus) : (s.withStatus r).cfg = s.cfg := rfl

@[simp] theorem State.withCounters_regs (c r : Nat) : (s.withCounters c r).regs = s.regs := rfl
@[simp] theorem State.withCounters_pipe (c r : Nat) : (s.withCounters c r).pipe = s.pipe := rfl
@[simp] theorem State.withCounters_imem (c r : Nat) : (s.withCounters c r).imem = s.imem := rfl
@[simp] theorem State.withCounters_dmem (c r : Nat) : (s.withCounters c r).dmem = s.dmem := rfl
@[simp] theorem State.withCounters_status (c r : Nat) : (s.withCounters c r).status = s.status := rfl
@[simp] theorem State.withCounters_cycles (c r : Nat) : (s.withCounters c r).cycles = c := rfl
@[simp] theorem State.withCounters_retired (c r : Nat) : (s.withCounters c r).retired = r := rfl
@[simp] theorem State.withCounters_fresh (c r : Nat) : (s.withCounters c r).fresh = s.fresh := rfl
@[simp] theorem State.withCounters_cfg (c r : Nat) : (s.withCounters c r).cfg = s.cfg := rfl

@[simp] theorem State.withFresh_regs (n : Nat) : (s.withFresh n).regs = s.regs := rfl
@[simp] theorem State.withFresh_pipe (n : Nat) : (s.withFresh n).pipe = s.pipe := rfl
@[simp] theorem State.withFresh_imem (n : Nat) : (s.withFresh n).imem = s.imem := rfl
@[simp] theorem State.withFresh_dmem (n : Nat) : (s.withFresh n).dmem = s.dmem := rfl
@[simp] theorem State.withFresh_status (n : Nat) : (s.withFresh n).status = s.status := rfl
@[simp] theorem State.withFresh_cycles (n : Nat) : (s.withFresh n).cycles = s.cycles := rfl
@[simp] theorem State.withFresh_retired (n : Nat) : (s.withFresh n).retired = s.retired := rfl
@[simp] theorem State.withFresh_fresh (n : Nat) : (s.withFresh n).fresh = n := rfl
@[simp] theorem State.withFresh_cfg (n : Nat) : (s.withFresh n).cfg = s.cfg := rfl

end Sys2Proof.Machine
end

