-- ==== Sys2Proof/Laws/Ops.lean ====
section
/-! SUPPORT. What each shared operation can do, said once: registers, fetch, data memory. -/

namespace Sys2Proof.Machine

/-! ### Registers -/

@[simp] theorem reg_zero (s : State) : s.reg 0 = 0 := by simp [State.reg]

@[simp] theorem reg_withPipe (s : State) (p : Pipeline) (i : Nat) : (s.withPipe p).reg i = s.reg i := rfl
@[simp] theorem reg_withIF (s : State) (r : IFRec) (i : Nat) : (s.withIF r).reg i = s.reg i := rfl
@[simp] theorem reg_withDmem (s : State) (m : List Host.Cell) (i : Nat) : (s.withDmem m).reg i = s.reg i := rfl
@[simp] theorem reg_withFresh (s : State) (n i : Nat) : (s.withFresh n).reg i = s.reg i := rfl
@[simp] theorem reg_withImem (s : State) (m : List (Nat × InstrRec)) (i : Nat) : (s.withImem m).reg i = s.reg i := rfl
@[simp] theorem reg_withStatus (s : State) (r : RunStatus) (i : Nat) : (s.withStatus r).reg i = s.reg i := rfl
@[simp] theorem reg_withCounters (s : State) (c r i : Nat) : (s.withCounters c r).reg i = s.reg i := rfl

/-- A register read answers iff the index is a register's, and then what the register reads as. -/
theorem readReg_eq_ok {s : State} {i : Nat} {v : Int} : readReg s i = .ok v ↔ i < 32 ∧ s.reg i = v := by
  unfold readReg; split <;> simp [*]

theorem readReg_lt {s : State} {i : Nat} (h : i < 32) : readReg s i = .ok (s.reg i) := by simp [readReg, h]

@[simp] theorem setReg_pipe (s : State) (i : Nat) (v : Int) : (setReg s i v).pipe = s.pipe := by
  unfold setReg; split <;> rfl
@[simp] theorem setReg_imem (s : State) (i : Nat) (v : Int) : (setReg s i v).imem = s.imem := by
  unfold setReg; split <;> rfl
@[simp] theorem setReg_dmem (s : State) (i : Nat) (v : Int) : (setReg s i v).dmem = s.dmem := by
  unfold setReg; split <;> rfl
@[simp] theorem setReg_status (s : State) (i : Nat) (v : Int) : (setReg s i v).status = s.status := by
  unfold setReg; split <;> rfl
@[simp] theorem setReg_cycles (s : State) (i : Nat) (v : Int) : (setReg s i v).cycles = s.cycles := by
  unfold setReg; split <;> rfl
@[simp] theorem setReg_retired (s : State) (i : Nat) (v : Int) : (setReg s i v).retired = s.retired := by
  unfold setReg; split <;> rfl
@[simp] theorem setReg_fresh (s : State) (i : Nat) (v : Int) : (setReg s i v).fresh = s.fresh := by
  unfold setReg; split <;> rfl
@[simp] theorem setReg_cfg (s : State) (i : Nat) (v : Int) : (setReg s i v).cfg = s.cfg := by
  unfold setReg; split <;> rfl

/-- What every register reads as after a register was set. -/
theorem reg_setReg (s : State) (i k : Nat) (v : Int) :
    (setReg s i v).reg k = if k = i ∧ 0 < i ∧ i < 32 then v else s.reg k := by
  unfold setReg
  by_cases hi : 0 < i ∧ i < 32
  · rw [dif_pos hi]
    unfold State.reg
    by_cases hk : 0 < k ∧ k < 32
    · rw [dif_pos hk, dif_pos hk]
      simp only [State.withRegs, Vector.getElem_set, hi, and_self, and_true, eq_comm (a := k)]
    · have : k ≠ i := by rintro rfl; exact hk hi
      simp [hk, this]
  · simp [hi]

/-- A register write answers iff index and value are legal, and then sets the register. -/
theorem writeReg_eq_ok {s t : State} {i : Nat} {v : Int} :
    writeReg s i v = .ok t ↔ i < 32 ∧ InRange32 v ∧ setReg s i v = t := by
  unfold writeReg
  by_cases hi : i < 32
  · by_cases hv : InRange32 v
    · rw [if_neg (not_not.2 hi), if_neg (not_not.2 hv), Except.ok.injEq]; exact ⟨fun h => ⟨hi, hv, h⟩, fun h => h.2.2⟩
    · rw [if_neg (not_not.2 hi), if_pos hv]; simp only [raise_ne_ok, false_iff]; exact fun h => hv h.2.1
  · rw [if_pos hi]; simp [hi]

theorem writeReg_ok {s : State} {i : Nat} {v : Int} (hi : i < 32) (hv : InRange32 v) :
    writeReg s i v = .ok (setReg s i v) := writeReg_eq_ok.2 ⟨hi, hv, rfl⟩

/-! ### Fetch -/

theorem checkInstrAddr_eq_ok {c : Config} {a : Int} {k : Nat} :
    checkInstrAddr c a = .ok k ↔ FetchOk c a ∧ a.toNat = k := by
  unfold checkInstrAddr
  by_cases h1 : a < c.textBase ∨ 4294967296 ≤ a
  · rw [if_pos h1]; simp only [raise_ne_ok, false_iff]; omega
  · rw [if_neg h1]
    by_cases h2 : a % 4 ≠ 0
    · rw [if_pos h2]; simp only [raise_ne_ok, false_iff]; omega
    · rw [if_neg h2, Except.ok.injEq]; omega

/-- A fetch answers iff the address is valid, and then with the instruction standing there. -/
theorem fetch_eq_ok {s : State} {a : Int} {r : IFRec} :
    fetch s a = .ok r ↔ FetchOk s.cfg a ∧ fetched s a = r := by
  unfold fetch imemRead
  simp only [bind_eq_ok, checkInstrAddr_eq_ok, pure_eq_ok, Except.ok.injEq]
  constructor
  · rintro ⟨i, ⟨k, ⟨h, rfl⟩, rfl⟩, rfl⟩; exact ⟨h, rfl⟩
  · rintro ⟨h, rfl⟩; exact ⟨_, ⟨_, ⟨h, rfl⟩, rfl⟩, rfl⟩

theorem fetch_ok {s : State} {a : Int} (h : FetchOk s.cfg a) : fetch s a = .ok (fetched s a) :=
  fetch_eq_ok.2 ⟨h, rfl⟩

/-- The same instruction memory fetches the same. -/
theorem fetched_congr {s t : State} (h : t.imem = s.imem) (a : Int) : fetched t a = fetched s a := by
  simp [fetched, instrAt, h]

/-- A change of instruction memory answers iff the address is valid. -/
theorem imemWrite_eq_ok {s t : State} {a : Int} {r : InstrRec} :
    imemWrite s a r = .ok t ↔ FetchOk s.cfg a ∧ s.withImem (putInstr s.imem a.toNat r) = t := by
  unfold imemWrite
  simp only [bind_eq_ok, checkInstrAddr_eq_ok, pure_eq_ok, Except.ok.injEq]
  constructor
  · rintro ⟨k, ⟨h, rfl⟩, rfl⟩; exact ⟨h, rfl⟩
  · rintro ⟨h, rfl⟩; exact ⟨_, ⟨h, rfl⟩, rfl⟩

/-! ### Data memory -/

theorem validate_eq_ok {c : Config} {a : Int} {n k : Nat} :
    validate c a n = .ok k ↔ DataOk c a n ∧ a.toNat = k := by
  unfold validate
  by_cases h1 : a < c.dataBase
  · rw [if_pos h1]; simp only [raise_ne_ok, false_iff]; omega
  · rw [if_neg h1]
    by_cases h2 : a + n < c.stackEnd
    · rw [if_neg (not_not.2 h2)]
      by_cases h3 : a % n ≠ 0
      · rw [if_pos h3]; simp only [raise_ne_ok, false_iff]; exact fun h => h3 h.1.2.2
      · rw [if_neg h3, Except.ok.injEq]
        exact ⟨fun h => ⟨⟨Int.not_lt.1 h1, h2, not_not.1 h3⟩, h⟩, fun h => h.2⟩
    · rw [if_pos h2]; simp only [raise_ne_ok, false_iff]; omega

theorem validate_ok {c : Config} {a : Int} {n : Nat} (h : DataOk c a n) : validate c a n = .ok a.toNat :=
  validate_eq_ok.2 ⟨h, rfl⟩

/-- Reading a byte changes nothing but the count of free values. -/
theorem readByte_frame {s t : State} {a : Nat} {b : Byte} (h : readByte s a = .ok (b, t)) :
    ∃ n, t = s.withFresh n := by
  unfold readByte at h
  split at h
  · simp at h; exact ⟨s.fresh, h.2.symm⟩
  · split at h
    · simp at h
    · simp at h; exact ⟨_, h.2.symm⟩
    · simp at h; exact ⟨s.fresh, h.2.symm⟩

/-- Reading bytes changes nothing but the count of free values, and gives as many bytes as asked for. -/
theorem readBytes_frame {s t : State} {a n : Nat} {bs : List Byte} (h : readBytes s a n = .ok (bs, t)) :
    bs.length = n ∧ ∃ m, t = s.withFresh m := by
  induction n generalizing s a bs with
  | zero => simp [readBytes] at h; exact ⟨by simp [← h.1], s.fresh, h.2.symm⟩
  | succ n ih =>
    simp only [readBytes, bind_eq_ok, pure_eq_ok, Prod.exists, Except.ok.injEq, Prod.mk.injEq] at h
    obtain ⟨b, s1, h1, bs', s2, h2, rfl, rfl⟩ := h
    obtain ⟨m1, rfl⟩ := readByte_frame h1
    obtain ⟨hl, m2, rfl⟩ := ih h2
    exact ⟨by simp [hl], m2, rfl⟩

/-- Bytes that stores have written read as they stand. -/
theorem readBytes_written {s : State} {a : Nat} (bs : List Byte)
    (h : ∀ k (hk : k < bs.length), dataByte s (a + k) = some bs[k]) :
    readBytes s a bs.length = .ok (bs, s) := by
  induction bs generalizing a with
  | nil => rfl
  | cons b rest ih =>
    have h0 := h 0 (by simp)
    simp at h0
    have hb : readByte s a = .ok (b, s) := by simp [readByte, h0]
    have hr : readBytes s (a + 1) rest.length = .ok (rest, s) := ih fun k hk => by
      have := h (k + 1) (by simpa using hk)
      simpa [Nat.add_assoc, Nat.add_comm 1 k] using this
    simp [readBytes, hb, hr]

@[simp] theorem bytesLsbFirst_length (n u : Nat) : (bytesLsbFirst n u).length = n := by
  induction n generalizing u with
  | zero => rfl
  | succ n ih => simp [bytesLsbFirst, ih]

@[simp] theorem splitBytes_length (o : ByteOrder) (n u : Nat) : (splitBytes o n u).length = n := by
  cases o <;> simp [splitBytes]

theorem valueLsbFirst_lt (bs : List Byte) : valueLsbFirst bs < 256 ^ bs.length := by
  induction bs with
  | nil => simp [valueLsbFirst]
  | cons b rest ih =>
    have := b.isLt
    simp only [valueLsbFirst, List.length_cons, Nat.pow_succ]
    omega

theorem joinBytes_lt (o : ByteOrder) (bs : List Byte) : joinBytes o bs < 256 ^ bs.length := by
  cases o
  · simpa [joinBytes] using valueLsbFirst_lt bs.reverse
  · exact valueLsbFirst_lt bs

theorem valueLsbFirst_bytesLsbFirst (n u : Nat) : valueLsbFirst (bytesLsbFirst n u) = u % 256 ^ n := by
  induction n generalizing u with
  | zero => simp [bytesLsbFirst, valueLsbFirst, Nat.mod_one]
  | succ n ih =>
    simp only [bytesLsbFirst, valueLsbFirst, ih, BitVec.toNat_ofNat]
    rw [show 256 ^ (n + 1) = 256 * 256 ^ n by rw [Nat.pow_succ, Nat.mul_comm], Nat.mod_mul]

/-- Splitting into bytes and joining them again is reduction to the datum's width. -/
theorem joinBytes_splitBytes (o : ByteOrder) (n u : Nat) : joinBytes o (splitBytes o n u) = u % 256 ^ n := by
  cases o <;> simp [joinBytes, splitBytes, valueLsbFirst_bytesLsbFirst]

theorem bytesLsbFirst_getElem (n u k : Nat) (h : k < (bytesLsbFirst n u).length) :
    (bytesLsbFirst n u)[k] = BitVec.ofNat 8 (u / 256 ^ k) := by
  induction n generalizing u k with
  | zero => simp [bytesLsbFirst] at h
  | succ n ih =>
    cases k with
    | zero => simp [bytesLsbFirst]
    | succ k =>
      simp only [bytesLsbFirst, List.getElem_cons_succ, ih]
      rw [Nat.div_div_eq_div_mul, Nat.pow_succ, Nat.mul_comm]

/-- A read of data memory answers iff the address is valid and the bytes can be read, with the value their
bytes make, and changes nothing but the count of free values. -/
theorem memRead_eq_ok {s t : State} {a : Int} {n : Nat} {signed : Bool} {v : Int} :
    memRead s a n signed = .ok (v, t) ↔
      DataOk s.cfg a n ∧ ∃ bs, readBytes s a.toNat n = .ok (bs, t) ∧
        (if signed then sext (8 * n) (joinBytes s.cfg.byteOrder bs) else (joinBytes s.cfg.byteOrder bs : Int)) = v := by
  unfold memRead
  simp only [bind_eq_ok, validate_eq_ok, pure_eq_ok, Prod.exists, Except.ok.injEq, Prod.mk.injEq]
  constructor
  · rintro ⟨k, ⟨h, rfl⟩, bs, s1, hb, hv, rfl⟩; exact ⟨h, bs, hb, hv⟩
  · rintro ⟨h, bs, hb, hv⟩; exact ⟨_, ⟨h, rfl⟩, bs, t, hb, hv, rfl⟩

theorem memRead_frame {s t : State} {a : Int} {n : Nat} {signed : Bool} {v : Int}
    (h : memRead s a n signed = .ok (v, t)) : ∃ m, t = s.withFresh m := by
  obtain ⟨_, bs, hb, _⟩ := memRead_eq_ok.1 h
  exact (readBytes_frame hb).2

theorem sext_range {n : Nat} (hn : 0 < n) {u : Int} (h0 : 0 ≤ u) (h1 : u < ((2 ^ n : Nat) : Int)) :
    -((2 ^ (n - 1) : Nat) : Int) ≤ sext n u ∧ sext n u < ((2 ^ (n - 1) : Nat) : Int) := by
  obtain ⟨m, rfl⟩ : ∃ m, n = m + 1 := ⟨n - 1, by omega⟩
  simp only [sext, Nat.add_sub_cancel, Nat.pow_succ] at *
  push_cast at *
  split <;> omega

/-- A value read from data memory is a register value (20_memory.md R58). -/
theorem memRead_range {s t : State} {a : Int} {n : Nat} {signed : Bool} {v : Int}
    (hn : n = 1 ∨ n = 2 ∨ n = 4) (h : memRead s a n signed = .ok (v, t)) : InRange32 v := by
  obtain ⟨_, bs, hb, rfl⟩ := memRead_eq_ok.1 h
  have hl := (readBytes_frame hb).1
  have hj : joinBytes s.cfg.byteOrder bs < 2 ^ (8 * n) := by
    have := joinBytes_lt s.cfg.byteOrder bs
    rwa [hl, show (256 : Nat) = 2 ^ 8 from rfl, ← Nat.pow_mul] at this
  split
  · have := sext_range (n := 8 * n) (by omega) (u := (joinBytes s.cfg.byteOrder bs : Int)) (by omega) (by exact_mod_cast hj)
    generalize sext (8 * n) _ = x at this ⊢
    rcases hn with rfl | rfl | rfl <;> (norm_num at this; constructor <;> omega)
  · rcases hn with rfl | rfl | rfl <;> (norm_num at hj; constructor <;> omega)

theorem checkStoreValue_eq_ok {c : Config} {v : Int} {n : Nat} :
    checkStoreValue c v n = .ok () ↔ c.narrowStoreCheck = .truncate ∨ FitsStore v n := by
  unfold checkStoreValue
  split
  · simp_all
  · rename_i hf
    by_cases h : FitsStore v n
    · rw [if_pos h]; exact ⟨fun _ => .inr h, fun _ => rfl⟩
    · rw [if_neg h, hf]
      exact ⟨fun x => absurd x (raise_ne_ok _ _), fun x => absurd (x.resolve_left (by decide)) h⟩

/-- The bytes a store of `v` puts at rising addresses. -/
abbrev storedBytes (c : Config) (n : Nat) (v : Int) : List Byte :=
  splitBytes c.byteOrder n (v % ((2 ^ (8 * n) : Nat) : Int)).toNat

/-- A write of data memory answers iff the address and the value pass their checks, and then changes the
data memory alone. -/
theorem memWrite_eq_ok {s t : State} {a : Int} {n : Nat} {v : Int} :
    memWrite s a n v = .ok t ↔
      DataOk s.cfg a n ∧ (s.cfg.narrowStoreCheck = .truncate ∨ FitsStore v n) ∧
        s.withDmem (writeBytes s.dmem a.toNat (storedBytes s.cfg n v)) = t := by
  unfold memWrite
  simp only [bind_eq_ok, validate_eq_ok, pure_eq_ok, Except.ok.injEq]
  constructor
  · rintro ⟨k, ⟨h, rfl⟩, _, hc, rfl⟩; exact ⟨h, checkStoreValue_eq_ok.1 hc, rfl⟩
  · rintro ⟨h, hc, rfl⟩; exact ⟨_, ⟨h, rfl⟩, (), checkStoreValue_eq_ok.2 hc, rfl⟩

/-- What every byte reads as after a write: the stored bytes, and the rest as before. -/
theorem dataByte_writeBytes (s : State) (a b : Nat) (bs : List Byte) :
    dataByte (s.withDmem (writeBytes s.dmem a bs)) b =
      if a ≤ b ∧ b < a + bs.length then bs[b - a]? else dataByte s b :=
  cellAt_writeBytes s.dmem a b bs

end Sys2Proof.Machine
end

