-- ==== Sys2Proof/Laws/Alu.lean ====
section
/-! SUPPORT. What the ALU functions can answer: the range check, the bits of AND, OR and NOT, and the ranges of results. -/

namespace Sys2Proof.Machine

/-- The result check answers iff the result is in range, and then the result itself. -/
theorem checkAlu_eq_ok {r v : Int} : checkAlu r = .ok v ↔ InRange32 r ∧ r = v := by
  unfold checkAlu
  by_cases h : InRange32 r
  · rw [if_pos h, Except.ok.injEq]; exact ⟨fun e => ⟨h, e⟩, fun e => e.2⟩
  · rw [if_neg h]; exact ⟨fun e => absurd e (raise_ne_ok _ _), fun e => absurd e.1 h⟩

theorem checkAlu_ok {r : Int} (h : InRange32 r) : checkAlu r = .ok r := if_pos h

theorem checkAlu_raise {r : Int} (h : ¬ InRange32 r) : checkAlu r = raise (.arithmeticOverflow r) := if_neg h

/-- Bit `k` of a non-negative integer in infinite two's complement. -/
theorem bit_ofNat (m k : Nat) : ((Int.ofNat m) / 2 ^ k) % 2 = ((m.testBit k).toNat : Int) := by
  rw [Nat.testBit_eq_decide_div_mod_eq]
  have h : (Int.ofNat m) / 2 ^ k = ((m / 2 ^ k : Nat) : Int) := by simp
  rw [h]
  rcases Nat.mod_two_eq_zero_or_one (m / 2 ^ k) with hb | hb <;>
    simp only [hb, decide_true, decide_false, Bool.toNat_true, Bool.toNat_false, zero_ne_one] <;> omega

/-- Bit `k` of a negative integer in infinite two's complement. -/
theorem bit_negSucc (m k : Nat) : ((Int.negSucc m) / 2 ^ k) % 2 = ((!(m.testBit k)).toNat : Int) := by
  rw [Nat.testBit_eq_decide_div_mod_eq]
  have h : (Int.negSucc m) / 2 ^ k = -((m / 2 ^ k : Nat) : Int) - 1 := by
    rw [show (2 : Int) ^ k = ((2 ^ k : Nat) : Int) by push_cast; rfl]
    rw [Int.negSucc_ediv m (b := ((2 ^ k : Nat) : Int)) (by positivity)]
    have : ((m / 2 ^ k : Nat) : Int) = (m : Int).ediv ((2 ^ k : Nat) : Int) := Int.natCast_ediv m (2 ^ k)
    omega
  rw [h]
  rcases Nat.mod_two_eq_zero_or_one (m / 2 ^ k) with hb | hb <;>
    simp only [hb, decide_true, decide_false, Bool.toNat_true, Bool.toNat_false, zero_ne_one, Bool.not_true, Bool.not_false] <;> omega

/-- Bit `k` of `a AND b` is the product of the bits. -/
theorem bit_bitAnd (a b : Int) (k : Nat) : (bitAnd a b / 2 ^ k) % 2 = (a / 2 ^ k % 2) * (b / 2 ^ k % 2) := by
  cases a <;> cases b <;> simp only [bitAnd, bit_ofNat, bit_negSucc, Nat.testBit_and, Nat.testBit_or, Nat.testBit_xor] <;>
    (rename_i m n; cases m.testBit k <;> cases n.testBit k <;> rfl)

/-- Bit `k` of `a OR b` is 0 iff both bits are. -/
theorem bit_bitOr (a b : Int) (k : Nat) :
    (bitOr a b / 2 ^ k) % 2 = 1 - (1 - a / 2 ^ k % 2) * (1 - b / 2 ^ k % 2) := by
  cases a <;> cases b <;> simp only [bitOr, bit_ofNat, bit_negSucc, Nat.testBit_and, Nat.testBit_or, Nat.testBit_xor] <;>
    (rename_i m n; cases m.testBit k <;> cases n.testBit k <;> rfl)

theorem xor_and_lt {m n b : Nat} (h : m < 2 ^ b) : m ^^^ (m &&& n) < 2 ^ b :=
  Nat.xor_lt_two_pow h (lt_of_le_of_lt Nat.and_le_left h)

/-- `AND` of register values is a register value (41_alu_register.md R163). -/
theorem bitAnd_range {a b : Int} (ha : InRange32 a) (hb : InRange32 b) : InRange32 (bitAnd a b) := by
  obtain ⟨ha0, ha1⟩ := ha
  obtain ⟨hb0, hb1⟩ := hb
  cases a <;> cases b <;> simp only [bitAnd]
  · rename_i m n
    have := @Nat.and_le_left m n
    simp only [Int.ofNat_eq_natCast] at *
    constructor <;> omega
  · rename_i m n
    have := xor_and_lt (m := m) (n := n) (b := 32) (by simp only [Int.ofNat_eq_natCast] at ha1; omega)
    simp only [Int.ofNat_eq_natCast]
    constructor <;> omega
  · rename_i m n
    have := xor_and_lt (m := n) (n := m) (b := 32) (by simp only [Int.ofNat_eq_natCast] at hb1; omega)
    simp only [Int.ofNat_eq_natCast]
    constructor <;> omega
  · rename_i m n
    have := Nat.or_lt_two_pow (x := m) (y := n) (n := 31) (by omega) (by omega)
    constructor <;> omega

/-- `OR` of register values is a register value (41_alu_register.md R164). -/
theorem bitOr_range {a b : Int} (ha : InRange32 a) (hb : InRange32 b) : InRange32 (bitOr a b) := by
  obtain ⟨ha0, ha1⟩ := ha
  obtain ⟨hb0, hb1⟩ := hb
  cases a <;> cases b <;> simp only [bitOr]
  · rename_i m n
    have := Nat.or_lt_two_pow (x := m) (y := n) (n := 32)
      (by simp only [Int.ofNat_eq_natCast] at ha1; omega) (by simp only [Int.ofNat_eq_natCast] at hb1; omega)
    simp only [Int.ofNat_eq_natCast]
    constructor <;> omega
  · rename_i m n
    have := xor_and_lt (m := n) (n := m) (b := 31) (by omega)
    constructor <;> omega
  · rename_i m n
    have := xor_and_lt (m := m) (n := n) (b := 31) (by omega)
    constructor <;> omega
  · rename_i m n
    have := @Nat.and_le_left m n
    constructor <;> omega

theorem low32_range (v : Int) : 0 ≤ low32 v ∧ low32 v < 4294967296 := by unfold low32; omega

end Sys2Proof.Machine
end

