-- ==== Sys2Proof/Laws/Decode.lean ====
section
/-! SUPPORT. The fields of a packed word read back what was laid out in them (spec/30_encoding.md R86). -/

namespace Sys2Proof

section fields
variable (t a b c : BitVec 6) (m : BitVec 64)

theorem field_tag : (t ++ a ++ b ++ c ++ m).extractLsb' 82 6 = t := by
  rw [BitVec.extractLsb'_append_eq_of_le (by omega), BitVec.extractLsb'_append_eq_of_le (by omega),
    BitVec.extractLsb'_append_eq_of_le (by omega), BitVec.extractLsb'_append_eq_of_le (by omega)]
  exact BitVec.extractLsb'_eq_self

theorem field_rd : (t ++ a ++ b ++ c ++ m).extractLsb' 76 6 = a := by
  rw [BitVec.extractLsb'_append_eq_of_le (by omega), BitVec.extractLsb'_append_eq_of_le (by omega),
    BitVec.extractLsb'_append_eq_of_le (by omega)]
  exact BitVec.extractLsb'_append_eq_right

theorem field_rs : (t ++ a ++ b ++ c ++ m).extractLsb' 70 6 = b := by
  rw [BitVec.extractLsb'_append_eq_of_le (by omega), BitVec.extractLsb'_append_eq_of_le (by omega)]
  exact BitVec.extractLsb'_append_eq_right

theorem field_rt : (t ++ a ++ b ++ c ++ m).extractLsb' 64 6 = c := by
  rw [BitVec.extractLsb'_append_eq_of_le (by omega)]
  exact BitVec.extractLsb'_append_eq_right

theorem field_imm : (t ++ a ++ b ++ c ++ m).extractLsb' 0 64 = m :=
  BitVec.extractLsb'_append_eq_right

end fields

section packed
variable {t a b c : Nat} {m : Int}

theorem wordTag_packWord (h : t < 64) : wordTag (packWord t a b c m) = t := by
  unfold wordTag packWord; rw [field_tag]; simp; omega

theorem wordRd_packWord (h : a < 64) : wordRd (packWord t a b c m) = a := by
  unfold wordRd packWord; rw [field_rd]; simp; omega

theorem wordRs_packWord (h : b < 64) : wordRs (packWord t a b c m) = b := by
  unfold wordRs packWord; rw [field_rs]; simp; omega

theorem wordRt_packWord (h : c < 64) : wordRt (packWord t a b c m) = c := by
  unfold wordRt packWord; rw [field_rt]; simp; omega

theorem wordImm_packWord (h : Imm64 m) : wordImm (packWord t a b c m) = m := by
  unfold wordImm packWord; rw [field_imm, BitVec.toInt_ofInt]
  rw [Int.bmod_eq_of_le (by omega) (by omega)]

end packed

@[simp] theorem usedSlot_eq_ok {c r : Nat} : usedSlot c = .ok r ↔ c < 32 ∧ c = r := by
  unfold usedSlot
  by_cases h : c < 32
  · rw [if_pos h]; simp [h]
  · rw [if_neg h]; split <;> simp [h]

@[simp] theorem unusedSlot_eq_ok {c : Nat} {u : Unit} : unusedSlot c = .ok u ↔ c = unusedCode := by
  unfold unusedSlot; split
  · simp [*]
  · split <;> simp [*]

theorem usedSlot_ok {r : Nat} (h : r < 32) : usedSlot r = .ok r := usedSlot_eq_ok.2 ⟨h, rfl⟩

@[simp] theorem unusedSlot_ok : unusedSlot 63 = .ok () := rfl

theorem tag_lt (i : Instr) : i.tag < 26 := by cases i <;> simp [Instr.tag]

/-- A word is the packing of its own five fields. -/
theorem packWord_fields (w : PackedWord) :
    packWord (wordTag w) (wordRd w) (wordRs w) (wordRt w) (wordImm w) = w := by
  unfold packWord wordTag wordRd wordRs wordRt wordImm
  simp only [BitVec.ofNat_toNat, BitVec.setWidth_eq, BitVec.ofInt_toInt]
  rw [BitVec.extractLsb'_append_extractLsb'_eq_extractLsb' (by rfl), BitVec.extractLsb'_append_extractLsb'_eq_extractLsb' (by rfl),
    BitVec.extractLsb'_append_extractLsb'_eq_extractLsb' (by rfl), BitVec.extractLsb'_append_extractLsb'_eq_extractLsb' (by rfl)]
  exact BitVec.extractLsb'_eq_self

end Sys2Proof
end

