-- ==== Sys2Proof/Laws/Engine.lean ====
section
/-! SUPPORT. What one cycle can do, said once: an inversion lemma per phase, and the frame of each. -/

namespace Sys2Proof.Machine

/-! ### Well-formed instructions name registers -/

theorem readsRs_lt {i : Instr} (h : i.wellFormed = true) : ∀ r ∈ readsRs i, r < 32 := by
  cases i <;> simp [Instr.wellFormed, readsRs, Instr.rs?] at * <;> omega

theorem readsRt_lt {i : Instr} (h : i.wellFormed = true) : ∀ r ∈ readsRt i, r < 32 := by
  cases i <;> simp [Instr.wellFormed, readsRt, Instr.rt?] at * <;> omega

theorem dest_lt {i : Instr} (h : i.wellFormed = true) : ∀ r ∈ dest i, r < 32 := by
  cases i <;> simp [Instr.wellFormed, dest, Instr.rd?] at * <;> omega

/-! ### Phase 1 -/

/-- The commit changes the register file alone, and only the destination of the instruction in WB. -/
theorem commit_eq_ok {s t : State} (h : commit s = .ok t) :
    (dest s.pipe.wbr.instr.op = none ∧ t = s) ∨
    ∃ rd, dest s.pipe.wbr.instr.op = some rd ∧ rd < 32 ∧ InRange32 s.pipe.wbr.result ∧
      t = setReg s rd s.pipe.wbr.result := by
  unfold commit at h
  split at h
  · rename_i rd hd
    obtain ⟨h1, h2, rfl⟩ := writeReg_eq_ok.1 h
    exact .inr ⟨rd, hd, h1, h2, rfl⟩
  · rename_i hd
    exact .inl ⟨hd, by simpa using h.symm⟩

/-- The commit of a well-formed WB record answers. -/
theorem commit_ok {s : State} (hw : s.pipe.wbr.instr.op.wellFormed = true) (hr : InRange32 s.pipe.wbr.result) :
    ∃ t, commit s = .ok t := by
  unfold commit
  split
  · rename_i rd hd
    exact ⟨_, writeReg_ok (dest_lt hw rd hd) hr⟩
  · exact ⟨s, rfl⟩

/-- Everything but the register file is as before the commit. -/
theorem commit_frame {s t : State} (h : commit s = .ok t) :
    t.pipe = s.pipe ∧ t.imem = s.imem ∧ t.dmem = s.dmem ∧ t.status = s.status ∧
    t.cycles = s.cycles ∧ t.retired = s.retired ∧ t.fresh = s.fresh ∧ t.cfg = s.cfg := by
  rcases commit_eq_ok h with ⟨_, rfl⟩ | ⟨_, _, _, _, rfl⟩ <;> simp

/-! ### Phase 2 -/

theorem readOperand_eq_ok {s : State} {r : Option Nat} {v : Option Int} :
    readOperand s r = .ok v ↔ (∀ k ∈ r, k < 32) ∧ r.map s.reg = v := by
  cases r with
  | none => simp [readOperand]
  | some k =>
    simp only [readOperand, bind_eq_ok, readReg_eq_ok, pure_eq_ok, Except.ok.injEq, Option.mem_def,
      Option.some.injEq, Option.map_some]
    constructor
    · rintro ⟨x, ⟨h, rfl⟩, rfl⟩; exact ⟨by rintro _ rfl; exact h, rfl⟩
    · rintro ⟨h, rfl⟩; exact ⟨_, ⟨h k rfl, rfl⟩, rfl⟩

/-- Next EX holds the instruction of ID, its immediate, and the registers it reads. -/
theorem nextEX_eq_ok {s : State} {d : IDRec} {e : EXRec} :
    nextEX s d = .ok e ↔ (∀ k ∈ readsRs d.instr.op, k < 32) ∧ (∀ k ∈ readsRt d.instr.op, k < 32) ∧
      e = { instr := d.instr, rsValue := (readsRs d.instr.op).map s.reg,
            rtValue := (readsRt d.instr.op).map s.reg, imm := d.instr.op.imm } := by
  unfold nextEX
  simp only [bind_eq_ok, readOperand_eq_ok, pure_eq_ok, Except.ok.injEq]
  constructor
  · rintro ⟨a, ⟨h1, rfl⟩, b, ⟨h2, rfl⟩, rfl⟩; exact ⟨h1, h2, rfl⟩
  · rintro ⟨h1, h2, rfl⟩; exact ⟨_, ⟨h1, rfl⟩, _, ⟨h2, rfl⟩, rfl⟩

/-- Next MEM holds the instruction of EX, its ALU result with the zero flag, its store data and its target. -/
theorem nextMEM_eq_ok {c : Config} {e : EXRec} {m : MEMRec} :
    nextMEM c e = .ok m ↔ ∃ r, alu c e = .ok r ∧
      m = { instr := e.instr, aluResult := r, rtValue := e.rtValue, zero := zeroFlag r,
            branchTarget := if isBranch e.instr.op then e.imm else 0 } := by
  unfold nextMEM
  simp only [bind_eq_ok, pure_eq_ok, Except.ok.injEq]
  constructor
  · rintro ⟨r, h, rfl⟩; exact ⟨r, h, rfl⟩
  · rintro ⟨r, h, rfl⟩; exact ⟨r, h, rfl⟩

/-- Every result the ALU answers is in range (41_alu_register.md R160). -/
theorem alu_range {c : Config} {e : EXRec} {r : Int} (h : alu c e = .ok r) : InRange32 r := by
  have key : ∀ {x v : Int}, checkAlu x = .ok v → InRange32 v := fun hx => by
    obtain ⟨h1, rfl⟩ := checkAlu_eq_ok.1 hx; exact h1
  unfold alu at h
  split at h <;>
    simp only [onRsRt, onRsImm, onRtImm, bind_eq_ok, aluIdle, aluAdd, aluSub, aluAnd, aluOr, aluNor, aluSltu,
      aluAddi, aluAndi, aluOri, aluLui, effectiveAddress, aluBeq, aluBne, aluSrl] at h <;>
    first
    | exact key h
    | (obtain ⟨_, _, h⟩ := h; exact key h)
    | (obtain ⟨_, _, _, _, h⟩ := h; exact key h)
    | (obtain ⟨_, _, _, _, h⟩ := h; unfold aluSlt at h; split at h <;> exact key h)
    | (obtain ⟨_, _, h⟩ := h
       simp only [aluSll, bind_eq_ok] at h
       obtain ⟨_, _, h⟩ := h
       split at h
       · exact key h
       · split at h
         · exact key h
         · exact absurd h (raise_ne_ok _ _))

theorem operand_eq_ok {o : Option Int} {v : Int} : operand o = .ok v ↔ o = some v := by
  cases o <;> simp [operand]

/-- The access of the instruction in MEM changes data memory and the count of free values alone, and data
memory only for a store. -/
theorem access_frame {s t : State} {m : MEMRec} {v : Int} (h : access s m = .ok (v, t)) :
    ∃ d n, t = (s.withDmem d).withFresh n ∧ (isStore m.instr.op = false → d = s.dmem) := by
  have load : ∀ {a n sg}, memRead s a n sg = .ok (v, t) →
      ∃ d k, t = (s.withDmem d).withFresh k ∧ (isStore m.instr.op = false → d = s.dmem) := fun hr => by
    obtain ⟨k, rfl⟩ := memRead_frame hr; exact ⟨s.dmem, k, rfl, fun _ => rfl⟩
  have store : ∀ {w : State → Int → Int → Res State} {n}, (∀ s' a x, w s' a x = memWrite s' a n x) →
      isStore m.instr.op = true → storeAccess w s m = .ok (v, t) →
      ∃ d k, t = (s.withDmem d).withFresh k ∧ (isStore m.instr.op = false → d = s.dmem) := fun hw hs hr => by
    simp only [storeAccess, bind_eq_ok, pure_eq_ok, Except.ok.injEq, Prod.mk.injEq, hw] at hr
    obtain ⟨_, _, s1, h1, _, rfl⟩ := hr
    obtain ⟨_, _, rfl⟩ := memWrite_eq_ok.1 h1
    exact ⟨writeBytes s.dmem m.aluResult.toNat _, s.fresh, rfl, fun hc => by simp [hs] at hc⟩
  unfold access at h
  split at h
  · exact load h
  · exact load h
  · exact load h
  · exact load h
  · exact load h
  · rename_i heq; exact store (fun _ _ _ => rfl) (by simp [heq, isStore]) h
  · rename_i heq; exact store (fun _ _ _ => rfl) (by simp [heq, isStore]) h
  · rename_i heq; exact store (fun _ _ _ => rfl) (by simp [heq, isStore]) h
  all_goals
    simp only [Except.ok.injEq, Prod.mk.injEq] at h
    exact ⟨s.dmem, s.fresh, h.2.symm, fun _ => rfl⟩

/-- What the access of the instruction in MEM does, by its class: a load reads, a store writes the store data, and
every other instruction passes its ALU result on. -/
theorem access_cases {s t : State} {m : MEMRec} {v : Int} (h : access s m = .ok (v, t)) :
    (isLoad m.instr.op = true ∧ isStore m.instr.op = false ∧
      memRead s m.aluResult (accessSize m.instr.op) (accessSigned m.instr.op) = .ok (v, t)) ∨
    (isLoad m.instr.op = false ∧ isStore m.instr.op = true ∧ v = m.aluResult ∧
      ∃ d, m.rtValue = some d ∧ memWrite s m.aluResult (accessSize m.instr.op) d = .ok t) ∨
    (isLoad m.instr.op = false ∧ isStore m.instr.op = false ∧ v = m.aluResult ∧ t = s) := by
  have store : ∀ {w : State → Int → Int → Res State}, storeAccess w s m = .ok (v, t) →
      v = m.aluResult ∧ ∃ d, m.rtValue = some d ∧ w s m.aluResult d = .ok t := fun hs => by
    simp only [storeAccess, bind_eq_ok, operand_eq_ok, pure_eq_ok, Except.ok.injEq, Prod.mk.injEq] at hs
    obtain ⟨d, hd, t', ht, rfl, rfl⟩ := hs
    exact ⟨rfl, d, hd, ht⟩
  unfold access at h
  generalize m.instr.op = i at *
  cases i <;> simp only at h <;>
    first
    | exact .inl ⟨rfl, rfl, h⟩
    | exact .inr (.inl ⟨rfl, rfl, store h⟩)
    | (simp only [Except.ok.injEq, Prod.mk.injEq] at h; exact .inr (.inr ⟨rfl, rfl, h.1.symm, h.2.symm⟩))

/-- An access moves 1, 2 or 4 bytes. -/
theorem accessSize_cases {i : Instr} (h : isLoad i = true ∨ isStore i = true) :
    accessSize i = 1 ∨ accessSize i = 2 ∨ accessSize i = 4 := by
  cases i <;> simp [isLoad, isStore, accessSize] at *

/-- Next WB holds the instruction of MEM with the result of its access. -/
theorem nextWB_eq_ok {s t : State} {w : WBRec} :
    nextWB s = .ok (w, t) ↔ ∃ v, access s s.pipe.memr = .ok (v, t) ∧ w = { instr := s.pipe.memr.instr, result := v } := by
  unfold nextWB
  simp only [bind_eq_ok, pure_eq_ok, Prod.exists, Except.ok.injEq, Prod.mk.injEq]
  constructor
  · rintro ⟨v, t', h, rfl, rfl⟩; exact ⟨v, h, rfl⟩
  · rintro ⟨v, h, rfl⟩; exact ⟨v, t, h, rfl, rfl⟩

/-! ### The whole cycle -/

/-- What a cycle can do, guards included: it answers iff every phase does, and then with the five computed
records after hazard resolution, the committed registers and the accessed data memory. -/
theorem cycle_eq_ok {s t : State} :
    cycle s = .ok t ↔
      ∃ committed ex mem wb accessed,
        commit s = .ok committed ∧ FetchOk s.cfg (nextPc s.pipe) ∧ nextEX committed s.pipe.idr = .ok ex ∧
        nextMEM s.cfg s.pipe.exr = .ok mem ∧ nextWB committed = .ok (wb, accessed) ∧
        t = accessed.withPipe (resolveHazards s.cfg s.pipe
          { ifr := fetched s (nextPc s.pipe), idr := nextID s.pipe, exr := ex, memr := mem, wbr := wb }) := by
  unfold cycle nextIF
  simp only [bind_eq_ok, pure_eq_ok, Prod.exists, Except.ok.injEq, fetch_eq_ok]
  constructor
  · rintro ⟨c, hc, _, ⟨hf, rfl⟩, ex, hx, m, hm, w, a, hw, rfl⟩
    exact ⟨c, ex, m, w, a, hc, hf, hx, hm, hw, rfl⟩
  · rintro ⟨c, ex, m, w, a, hc, hf, hx, hm, hw, rfl⟩
    exact ⟨c, hc, _, ⟨hf, rfl⟩, ex, hx, m, hm, w, a, hw, rfl⟩

/-- A cycle changes neither instruction memory, status, counters nor parameters. -/
theorem cycle_frame {s t : State} (h : cycle s = .ok t) :
    t.imem = s.imem ∧ t.status = s.status ∧ t.cycles = s.cycles ∧ t.retired = s.retired ∧ t.cfg = s.cfg := by
  obtain ⟨c, ex, m, w, a, hc, -, -, -, hw, rfl⟩ := cycle_eq_ok.1 h
  obtain ⟨v, hv, -⟩ := nextWB_eq_ok.1 hw
  obtain ⟨d, n, rfl, -⟩ := access_frame hv
  obtain ⟨h1, h2, h3, h4, h5, h6, h7, h8⟩ := commit_frame hc
  simp [*]

/-- What one turn of the machine can do: it halts before the step, or it executes and counts the step and
halts after it, or the run was over. -/
theorem runTurn_eq_ok {s t : State} :
    runTurn s = .ok t ↔
      (s.status = .running ∧ isSyscall s.pipe.wbr.instr.op = true ∧ s.cfg.haltBeforeFinalStep = true ∧
        t = s.withStatus .halted) ∨
      (s.status = .running ∧ ¬ (isSyscall s.pipe.wbr.instr.op = true ∧ s.cfg.haltBeforeFinalStep = true) ∧
        ∃ s1, cycle s = .ok s1 ∧
          t = if isSyscall s.pipe.wbr.instr.op then (countStep s s1).withStatus .halted else countStep s s1) ∨
      (s.status = .halted ∧ t = s) := by
  have swap : ∀ {a b : State}, a = b ↔ b = a := eq_comm
  unfold runTurn
  cases hs : s.status with
  | running =>
    simp only [turn, true_and, reduceCtorEq, false_and, or_false]
    cases hw : isSyscall s.pipe.wbr.instr.op <;> cases hh : s.cfg.haltBeforeFinalStep <;>
      simp [bind_eq_ok, swap (a := t)]
  | halted => simp [swap (a := t)]
  | faulted f => simp
  | rejected e => simp

/-- The step the host runs is one turn of the machine. -/
theorem step_eq_next {s t : State} : step s = .next t ↔ runTurn s = .ok t := toOutcome_eq_next

@[simp] theorem countStep_regs (b a : State) : (countStep b a).regs = a.regs := rfl
@[simp] theorem countStep_reg (b a : State) (i : Nat) : (countStep b a).reg i = a.reg i := rfl
@[simp] theorem countStep_pipe (b a : State) : (countStep b a).pipe = a.pipe := rfl
@[simp] theorem countStep_imem (b a : State) : (countStep b a).imem = a.imem := rfl
@[simp] theorem countStep_dmem (b a : State) : (countStep b a).dmem = a.dmem := rfl
@[simp] theorem countStep_status (b a : State) : (countStep b a).status = a.status := rfl
@[simp] theorem countStep_fresh (b a : State) : (countStep b a).fresh = a.fresh := rfl
@[simp] theorem countStep_cfg (b a : State) : (countStep b a).cfg = a.cfg := rfl
@[simp] theorem countStep_cycles (b a : State) : (countStep b a).cycles = a.cycles + 1 := rfl

end Sys2Proof.Machine
end

