-- ==== Sys2Proof/Laws/PerInstr.lean ====
section
/-! SUPPORT. Statements about every instruction, one lemma per constructor. -/

/-- The fields of a well-formed instruction's packed word are its tag, its slot codes and its immediate
(spec/30_encoding.md R86, R88). -/
def Sys2Proof.Laws.PackedFields.Statement (i : Sys2Proof.Instr) : Prop :=
  i.wellFormed = true →
    Sys2Proof.wordTag (Sys2Proof.encode i) = i.tag ∧
    Sys2Proof.wordRd (Sys2Proof.encode i) = Sys2Proof.slotCode i.rd? ∧
    Sys2Proof.wordRs (Sys2Proof.encode i) = Sys2Proof.slotCode i.rs? ∧
    Sys2Proof.wordRt (Sys2Proof.encode i) = Sys2Proof.slotCode i.rt? ∧
    Sys2Proof.wordImm (Sys2Proof.encode i) = i.imm

namespace Sys2Proof.Laws

/-- The statement holds once the slot codes and the immediate fit their fields. -/
theorem packedFields_of_bounds (i : Instr)
    (h : i.wellFormed = true → slotCode i.rd? < 64 ∧ slotCode i.rs? < 64 ∧ slotCode i.rt? < 64 ∧ Imm64 i.imm) :
    PackedFields.Statement i := fun hw => by
  obtain ⟨h1, h2, h3, h4⟩ := h hw
  exact ⟨wordTag_packWord (by have := tag_lt i; omega), wordRd_packWord h1, wordRs_packWord h2, wordRt_packWord h3,
    wordImm_packWord h4⟩

end Sys2Proof.Laws

theorem Sys2Proof.Laws.PackedFields.nop (imm : Int) : Sys2Proof.Laws.PackedFields.Statement (.nop imm) :=
  Sys2Proof.Laws.packedFields_of_bounds _ fun h => by
    simp [Sys2Proof.Instr.wellFormed, Sys2Proof.slotCode, Sys2Proof.Instr.rd?, Sys2Proof.Instr.rs?, Sys2Proof.Instr.rt?, Sys2Proof.Instr.imm] at h ⊢
    omega

theorem Sys2Proof.Laws.PackedFields.add (rd rs rt : Nat) (imm : Int) : Sys2Proof.Laws.PackedFields.Statement (.add rd rs rt imm) :=
  Sys2Proof.Laws.packedFields_of_bounds _ fun h => by
    simp [Sys2Proof.Instr.wellFormed, Sys2Proof.slotCode, Sys2Proof.Instr.rd?, Sys2Proof.Instr.rs?, Sys2Proof.Instr.rt?, Sys2Proof.Instr.imm] at h ⊢
    omega

theorem Sys2Proof.Laws.PackedFields.sub (rd rs rt : Nat) (imm : Int) : Sys2Proof.Laws.PackedFields.Statement (.sub rd rs rt imm) :=
  Sys2Proof.Laws.packedFields_of_bounds _ fun h => by
    simp [Sys2Proof.Instr.wellFormed, Sys2Proof.slotCode, Sys2Proof.Instr.rd?, Sys2Proof.Instr.rs?, Sys2Proof.Instr.rt?, Sys2Proof.Instr.imm] at h ⊢
    omega

theorem Sys2Proof.Laws.PackedFields.and (rd rs rt : Nat) (imm : Int) : Sys2Proof.Laws.PackedFields.Statement (.and rd rs rt imm) :=
  Sys2Proof.Laws.packedFields_of_bounds _ fun h => by
    simp [Sys2Proof.Instr.wellFormed, Sys2Proof.slotCode, Sys2Proof.Instr.rd?, Sys2Proof.Instr.rs?, Sys2Proof.Instr.rt?, Sys2Proof.Instr.imm] at h ⊢
    omega

theorem Sys2Proof.Laws.PackedFields.or (rd rs rt : Nat) (imm : Int) : Sys2Proof.Laws.PackedFields.Statement (.or rd rs rt imm) :=
  Sys2Proof.Laws.packedFields_of_bounds _ fun h => by
    simp [Sys2Proof.Instr.wellFormed, Sys2Proof.slotCode, Sys2Proof.Instr.rd?, Sys2Proof.Instr.rs?, Sys2Proof.Instr.rt?, Sys2Proof.Instr.imm] at h ⊢
    omega

theorem Sys2Proof.Laws.PackedFields.nor (rd rs rt : Nat) (imm : Int) : Sys2Proof.Laws.PackedFields.Statement (.nor rd rs rt imm) :=
  Sys2Proof.Laws.packedFields_of_bounds _ fun h => by
    simp [Sys2Proof.Instr.wellFormed, Sys2Proof.slotCode, Sys2Proof.Instr.rd?, Sys2Proof.Instr.rs?, Sys2Proof.Instr.rt?, Sys2Proof.Instr.imm] at h ⊢
    omega

theorem Sys2Proof.Laws.PackedFields.slt (rd rs rt : Nat) (imm : Int) : Sys2Proof.Laws.PackedFields.Statement (.slt rd rs rt imm) :=
  Sys2Proof.Laws.packedFields_of_bounds _ fun h => by
    simp [Sys2Proof.Instr.wellFormed, Sys2Proof.slotCode, Sys2Proof.Instr.rd?, Sys2Proof.Instr.rs?, Sys2Proof.Instr.rt?, Sys2Proof.Instr.imm] at h ⊢
    omega

theorem Sys2Proof.Laws.PackedFields.sltu (rd rs rt : Nat) (imm : Int) : Sys2Proof.Laws.PackedFields.Statement (.sltu rd rs rt imm) :=
  Sys2Proof.Laws.packedFields_of_bounds _ fun h => by
    simp [Sys2Proof.Instr.wellFormed, Sys2Proof.slotCode, Sys2Proof.Instr.rd?, Sys2Proof.Instr.rs?, Sys2Proof.Instr.rt?, Sys2Proof.Instr.imm] at h ⊢
    omega

theorem Sys2Proof.Laws.PackedFields.sll (rd rt : Nat) (imm : Int) : Sys2Proof.Laws.PackedFields.Statement (.sll rd rt imm) :=
  Sys2Proof.Laws.packedFields_of_bounds _ fun h => by
    simp [Sys2Proof.Instr.wellFormed, Sys2Proof.slotCode, Sys2Proof.Instr.rd?, Sys2Proof.Instr.rs?, Sys2Proof.Instr.rt?, Sys2Proof.Instr.imm] at h ⊢
    omega

theorem Sys2Proof.Laws.PackedFields.srl (rd rt : Nat) (imm : Int) : Sys2Proof.Laws.PackedFields.Statement (.srl rd rt imm) :=
  Sys2Proof.Laws.packedFields_of_bounds _ fun h => by
    simp [Sys2Proof.Instr.wellFormed, Sys2Proof.slotCode, Sys2Proof.Instr.rd?, Sys2Proof.Instr.rs?, Sys2Proof.Instr.rt?, Sys2Proof.Instr.imm] at h ⊢
    omega

theorem Sys2Proof.Laws.PackedFields.addi (rd rs : Nat) (imm : Int) : Sys2Proof.Laws.PackedFields.Statement (.addi rd rs imm) :=
  Sys2Proof.Laws.packedFields_of_bounds _ fun h => by
    simp [Sys2Proof.Instr.wellFormed, Sys2Proof.slotCode, Sys2Proof.Instr.rd?, Sys2Proof.Instr.rs?, Sys2Proof.Instr.rt?, Sys2Proof.Instr.imm] at h ⊢
    omega

theorem Sys2Proof.Laws.PackedFields.andi (rd rs : Nat) (imm : Int) : Sys2Proof.Laws.PackedFields.Statement (.andi rd rs imm) :=
  Sys2Proof.Laws.packedFields_of_bounds _ fun h => by
    simp [Sys2Proof.Instr.wellFormed, Sys2Proof.slotCode, Sys2Proof.Instr.rd?, Sys2Proof.Instr.rs?, Sys2Proof.Instr.rt?, Sys2Proof.Instr.imm] at h ⊢
    omega

theorem Sys2Proof.Laws.PackedFields.ori (rd rs : Nat) (imm : Int) : Sys2Proof.Laws.PackedFields.Statement (.ori rd rs imm) :=
  Sys2Proof.Laws.packedFields_of_bounds _ fun h => by
    simp [Sys2Proof.Instr.wellFormed, Sys2Proof.slotCode, Sys2Proof.Instr.rd?, Sys2Proof.Instr.rs?, Sys2Proof.Instr.rt?, Sys2Proof.Instr.imm] at h ⊢
    omega

theorem Sys2Proof.Laws.PackedFields.lui (rd : Nat) (imm : Int) : Sys2Proof.Laws.PackedFields.Statement (.lui rd imm) :=
  Sys2Proof.Laws.packedFields_of_bounds _ fun h => by
    simp [Sys2Proof.Instr.wellFormed, Sys2Proof.slotCode, Sys2Proof.Instr.rd?, Sys2Proof.Instr.rs?, Sys2Proof.Instr.rt?, Sys2Proof.Instr.imm] at h ⊢
    omega

theorem Sys2Proof.Laws.PackedFields.lw (rd rs : Nat) (imm : Int) : Sys2Proof.Laws.PackedFields.Statement (.lw rd rs imm) :=
  Sys2Proof.Laws.packedFields_of_bounds _ fun h => by
    simp [Sys2Proof.Instr.wellFormed, Sys2Proof.slotCode, Sys2Proof.Instr.rd?, Sys2Proof.Instr.rs?, Sys2Proof.Instr.rt?, Sys2Proof.Instr.imm] at h ⊢
    omega

theorem Sys2Proof.Laws.PackedFields.lh (rd rs : Nat) (imm : Int) : Sys2Proof.Laws.PackedFields.Statement (.lh rd rs imm) :=
  Sys2Proof.Laws.packedFields_of_bounds _ fun h => by
    simp [Sys2Proof.Instr.wellFormed, Sys2Proof.slotCode, Sys2Proof.Instr.rd?, Sys2Proof.Instr.rs?, Sys2Proof.Instr.rt?, Sys2Proof.Instr.imm] at h ⊢
    omega

theorem Sys2Proof.Laws.PackedFields.lhu (rd rs : Nat) (imm : Int) : Sys2Proof.Laws.PackedFields.Statement (.lhu rd rs imm) :=
  Sys2Proof.Laws.packedFields_of_bounds _ fun h => by
    simp [Sys2Proof.Instr.wellFormed, Sys2Proof.slotCode, Sys2Proof.Instr.rd?, Sys2Proof.Instr.rs?, Sys2Proof.Instr.rt?, Sys2Proof.Instr.imm] at h ⊢
    omega

theorem Sys2Proof.Laws.PackedFields.lb (rd rs : Nat) (imm : Int) : Sys2Proof.Laws.PackedFields.Statement (.lb rd rs imm) :=
  Sys2Proof.Laws.packedFields_of_bounds _ fun h => by
    simp [Sys2Proof.Instr.wellFormed, Sys2Proof.slotCode, Sys2Proof.Instr.rd?, Sys2Proof.Instr.rs?, Sys2Proof.Instr.rt?, Sys2Proof.Instr.imm] at h ⊢
    omega

theorem Sys2Proof.Laws.PackedFields.lbu (rd rs : Nat) (imm : Int) : Sys2Proof.Laws.PackedFields.Statement (.lbu rd rs imm) :=
  Sys2Proof.Laws.packedFields_of_bounds _ fun h => by
    simp [Sys2Proof.Instr.wellFormed, Sys2Proof.slotCode, Sys2Proof.Instr.rd?, Sys2Proof.Instr.rs?, Sys2Proof.Instr.rt?, Sys2Proof.Instr.imm] at h ⊢
    omega

theorem Sys2Proof.Laws.PackedFields.sw (rs rt : Nat) (imm : Int) : Sys2Proof.Laws.PackedFields.Statement (.sw rs rt imm) :=
  Sys2Proof.Laws.packedFields_of_bounds _ fun h => by
    simp [Sys2Proof.Instr.wellFormed, Sys2Proof.slotCode, Sys2Proof.Instr.rd?, Sys2Proof.Instr.rs?, Sys2Proof.Instr.rt?, Sys2Proof.Instr.imm] at h ⊢
    omega

theorem Sys2Proof.Laws.PackedFields.sh (rs rt : Nat) (imm : Int) : Sys2Proof.Laws.PackedFields.Statement (.sh rs rt imm) :=
  Sys2Proof.Laws.packedFields_of_bounds _ fun h => by
    simp [Sys2Proof.Instr.wellFormed, Sys2Proof.slotCode, Sys2Proof.Instr.rd?, Sys2Proof.Instr.rs?, Sys2Proof.Instr.rt?, Sys2Proof.Instr.imm] at h ⊢
    omega

theorem Sys2Proof.Laws.PackedFields.sb (rs rt : Nat) (imm : Int) : Sys2Proof.Laws.PackedFields.Statement (.sb rs rt imm) :=
  Sys2Proof.Laws.packedFields_of_bounds _ fun h => by
    simp [Sys2Proof.Instr.wellFormed, Sys2Proof.slotCode, Sys2Proof.Instr.rd?, Sys2Proof.Instr.rs?, Sys2Proof.Instr.rt?, Sys2Proof.Instr.imm] at h ⊢
    omega

theorem Sys2Proof.Laws.PackedFields.beq (rs rt : Nat) (imm : Int) : Sys2Proof.Laws.PackedFields.Statement (.beq rs rt imm) :=
  Sys2Proof.Laws.packedFields_of_bounds _ fun h => by
    simp [Sys2Proof.Instr.wellFormed, Sys2Proof.slotCode, Sys2Proof.Instr.rd?, Sys2Proof.Instr.rs?, Sys2Proof.Instr.rt?, Sys2Proof.Instr.imm] at h ⊢
    omega

theorem Sys2Proof.Laws.PackedFields.bne (rs rt : Nat) (imm : Int) : Sys2Proof.Laws.PackedFields.Statement (.bne rs rt imm) :=
  Sys2Proof.Laws.packedFields_of_bounds _ fun h => by
    simp [Sys2Proof.Instr.wellFormed, Sys2Proof.slotCode, Sys2Proof.Instr.rd?, Sys2Proof.Instr.rs?, Sys2Proof.Instr.rt?, Sys2Proof.Instr.imm] at h ⊢
    omega

theorem Sys2Proof.Laws.PackedFields.j (imm : Int) : Sys2Proof.Laws.PackedFields.Statement (.j imm) :=
  Sys2Proof.Laws.packedFields_of_bounds _ fun h => by
    simp [Sys2Proof.Instr.wellFormed, Sys2Proof.slotCode, Sys2Proof.Instr.rd?, Sys2Proof.Instr.rs?, Sys2Proof.Instr.rt?, Sys2Proof.Instr.imm] at h ⊢
    omega

theorem Sys2Proof.Laws.PackedFields.syscall (imm : Int) : Sys2Proof.Laws.PackedFields.Statement (.syscall imm) :=
  Sys2Proof.Laws.packedFields_of_bounds _ fun h => by
    simp [Sys2Proof.Instr.wellFormed, Sys2Proof.slotCode, Sys2Proof.Instr.rd?, Sys2Proof.Instr.rs?, Sys2Proof.Instr.rt?, Sys2Proof.Instr.imm] at h ⊢
    omega
end

