-- ==== Sys2Proof/Tests/Slice0.lean ====
section
/-! SUPPORT. Tests: ill-formed instructions, words written out from the spec's encoding (spec/30_encoding.md R86; spec/95_test_vectors.md Part 2 and 4), one-step tests against the vectors of spec/95_test_vectors.md Part 3 to 6, and a witness for the hypotheses of every obligation that has any. -/

namespace Sys2Proof.Tests

open Sys2Proof.Machine

/-! ### WellFormed refuses each ill-formed slot and immediate (30_encoding.md R89) -/

theorem test_illformed_nop_imm : (Instr.nop 0x8000000000000000).wellFormed = false := by decide
theorem test_illformed_syscall_imm : (Instr.syscall (-0x8000000000000001)).wellFormed = false := by decide
theorem test_illformed_j_imm : (Instr.j 0x8000000000000000).wellFormed = false := by decide
theorem test_illformed_add : (Instr.add 32 0 0 0).wellFormed = false ∧ (Instr.add 0 32 0 0).wellFormed = false ∧
    (Instr.add 0 0 32 0).wellFormed = false ∧ (Instr.add 0 0 0 0x8000000000000000).wellFormed = false := by decide
theorem test_illformed_sub : (Instr.sub 63 0 0 0).wellFormed = false ∧ (Instr.sub 0 63 0 0).wellFormed = false ∧
    (Instr.sub 0 0 63 0).wellFormed = false := by decide
theorem test_illformed_and : (Instr.and 32 0 0 0).wellFormed = false ∧ (Instr.and 0 32 0 0).wellFormed = false ∧
    (Instr.and 0 0 32 0).wellFormed = false := by decide
theorem test_illformed_or : (Instr.or 32 0 0 0).wellFormed = false ∧ (Instr.or 0 32 0 0).wellFormed = false ∧
    (Instr.or 0 0 32 0).wellFormed = false := by decide
theorem test_illformed_nor : (Instr.nor 32 0 0 0).wellFormed = false ∧ (Instr.nor 0 32 0 0).wellFormed = false ∧
    (Instr.nor 0 0 32 0).wellFormed = false := by decide
theorem test_illformed_slt : (Instr.slt 32 0 0 0).wellFormed = false ∧ (Instr.slt 0 32 0 0).wellFormed = false ∧
    (Instr.slt 0 0 32 0).wellFormed = false := by decide
theorem test_illformed_sltu : (Instr.sltu 32 0 0 0).wellFormed = false ∧ (Instr.sltu 0 32 0 0).wellFormed = false ∧
    (Instr.sltu 0 0 32 0).wellFormed = false := by decide
theorem test_illformed_shifts : (Instr.sll 32 0 0).wellFormed = false ∧ (Instr.sll 0 32 0).wellFormed = false ∧
    (Instr.srl 32 0 0).wellFormed = false ∧ (Instr.srl 0 32 0).wellFormed = false := by decide
theorem test_illformed_immediates : (Instr.addi 32 0 0).wellFormed = false ∧ (Instr.addi 0 32 0).wellFormed = false ∧
    (Instr.andi 32 0 0).wellFormed = false ∧ (Instr.andi 0 32 0).wellFormed = false ∧
    (Instr.ori 32 0 0).wellFormed = false ∧ (Instr.ori 0 32 0).wellFormed = false ∧
    (Instr.lui 32 0).wellFormed = false ∧ (Instr.lui 0 0x8000000000000000).wellFormed = false := by decide
theorem test_illformed_loads : (Instr.lw 32 0 0).wellFormed = false ∧ (Instr.lw 0 32 0).wellFormed = false ∧
    (Instr.lh 32 0 0).wellFormed = false ∧ (Instr.lh 0 32 0).wellFormed = false ∧
    (Instr.lhu 32 0 0).wellFormed = false ∧ (Instr.lhu 0 32 0).wellFormed = false ∧
    (Instr.lb 32 0 0).wellFormed = false ∧ (Instr.lb 0 32 0).wellFormed = false ∧
    (Instr.lbu 32 0 0).wellFormed = false ∧ (Instr.lbu 0 32 0).wellFormed = false := by decide
theorem test_illformed_stores : (Instr.sw 32 0 0).wellFormed = false ∧ (Instr.sw 0 32 0).wellFormed = false ∧
    (Instr.sh 32 0 0).wellFormed = false ∧ (Instr.sh 0 32 0).wellFormed = false ∧
    (Instr.sb 32 0 0).wellFormed = false ∧ (Instr.sb 0 32 0).wellFormed = false := by decide
theorem test_illformed_branches : (Instr.beq 32 0 0).wellFormed = false ∧ (Instr.beq 0 32 0).wellFormed = false ∧
    (Instr.bne 32 0 0).wellFormed = false ∧ (Instr.bne 0 32 0).wellFormed = false := by decide

/-! ### Words written out bit by bit: tag 6 bits, rd 6, rs 6, rt 6, immediate 64 (30_encoding.md R84, R86) -/

theorem test_decode_nop : decode 0x03FFFF0000000000000000 = .ok (.nop 0) := by decide
theorem test_decode_add : decode 0x04A2090000000000000000 = .ok (.add 10 8 9 0) := by decide
theorem test_decode_sub : decode 0x09F01E0000000000000000 = .ok (.sub 31 0 30 0) := by decide
theorem test_decode_and : decode 0x0C10830000000000000000 = .ok (.and 1 2 3 0) := by decide
theorem test_decode_or : decode 0x1104520000000000000000 = .ok (.or 16 17 18 0) := by decide
theorem test_decode_nor : decode 0x14824AFFFFFFFFFFFFFFFF = .ok (.nor 8 9 10 (-1)) := by decide
theorem test_decode_slt : decode 0x1841460000000000000000 = .ok (.slt 4 5 6 0) := by decide
theorem test_decode_sltu : decode 0x1D865A0000000000000000 = .ok (.sltu 24 25 26 0) := by decide
theorem test_decode_sll : decode 0x208FC90000000000000004 = .ok (.sll 8 9 4) := by decide
theorem test_decode_srl : decode 0x248FC9000000000000001F = .ok (.srl 8 9 31) := by decide
theorem test_decode_addi : decode 0x28823FFFFFFFFFFFFFFFFF = .ok (.addi 8 8 (-1)) := by decide
theorem test_decode_andi : decode 0x2C827F000000000000FF00 = .ok (.andi 8 9 0xff00) := by decide
theorem test_decode_ori : decode 0x30823F0000000000003380 = .ok (.ori 8 8 0x3380) := by decide
theorem test_decode_lui : decode 0x348FFF0000000000001122 = .ok (.lui 8 0x1122) := by decide
theorem test_decode_lw : decode 0x38877F0000000000000000 = .ok (.lw 8 29 0) := by decide
theorem test_decode_lh : decode 0x3CB73F0000000000000002 = .ok (.lh 11 28 2) := by decide
theorem test_decode_lhu : decode 0x40C73F0000000000000000 = .ok (.lhu 12 28 0) := by decide
theorem test_decode_lb : decode 0x44A73F0000000000000003 = .ok (.lb 10 28 3) := by decide
theorem test_decode_lbu : decode 0x48D73FFFFFFFFFFFFFFFFC = .ok (.lbu 13 28 (-4)) := by decide
theorem test_decode_sw : decode 0x4FF7490000000000000000 = .ok (.sw 29 9 0) := by decide
theorem test_decode_sh : decode 0x53F7090000000000000002 = .ok (.sh 28 9 2) := by decide
theorem test_decode_sb : decode 0x57F709FFFFFFFFFFFFFFFF = .ok (.sb 28 9 (-1)) := by decide
theorem test_decode_beq : decode 0x5BF0000000000000400018 = .ok (.beq 0 0 0x400018) := by decide
theorem test_decode_bne : decode 0x5FF2000000000000400008 = .ok (.bne 8 0 0x400008) := by decide
theorem test_decode_j : decode 0x63FFFF0000000000400010 = .ok (.j 0x400010) := by decide
theorem test_decode_syscall : decode 0x67FFFF0000000000000000 = .ok (.syscall 0) := by decide

/-- The illegal words of 95_test_vectors.md 2.3. -/
theorem test_decode_illegal_tags : decode 0x6BFFFF0000000000000000 = .error (.illegalTag 26) ∧
    decode 0xFFFFFFFFFFFFFFFFFFFFFF = .error (.illegalTag 63) := by decide
theorem test_decode_illegal_slots : decode 0x04A2210000000000000000 = .error (.illegalSlotCode 33) ∧
    decode 0x04A23F0000000000000000 = .error .usedSlotIsUnused ∧
    decode 0 = .error (.unusedSlotHoldsRegister 0) ∧
    decode 0x67F03F0000000000000000 = .error (.unusedSlotHoldsRegister 0) := by decide
theorem test_decodeTableWord : decodeTableWord 88 0x04A2090000000000000000 = some (.add 10 8 9 0) ∧
    decodeTableWord 88 0x6BFFFF0000000000000000 = none := by decide

/-- `match` of every opcode (95_test_vectors.md 2.1). -/
theorem test_match_register : [Instr.nop 0, .add 1 2 3 4, .sub 1 2 3 4, .and 1 2 3 4, .or 1 2 3 4, .nor 1 2 3 4,
      .slt 1 2 3 4, .sltu 1 2 3 4, .sll 1 2 3, .srl 1 2 3].map opcodeMatch =
    [0x03FFFF0000000000000000, 0x0400000000000000000000, 0x0800000000000000000000, 0x0C00000000000000000000,
      0x1000000000000000000000, 0x1400000000000000000000, 0x1800000000000000000000, 0x1C00000000000000000000,
      0x200FC00000000000000000, 0x240FC00000000000000000] := by decide
theorem test_match_immediate : [Instr.addi 1 2 3, .andi 1 2 3, .ori 1 2 3, .lui 1 2, .lw 1 2 3, .lh 1 2 3, .lhu 1 2 3,
      .lb 1 2 3, .lbu 1 2 3].map opcodeMatch =
    [0x28003F0000000000000000, 0x2C003F0000000000000000, 0x30003F0000000000000000, 0x340FFF0000000000000000,
      0x38003F0000000000000000, 0x3C003F0000000000000000, 0x40003F0000000000000000, 0x44003F0000000000000000,
      0x48003F0000000000000000] := by decide
theorem test_match_rest : [Instr.sw 1 2 3, .sh 1 2 3, .sb 1 2 3, .beq 1 2 3, .bne 1 2 3, .j 1, .syscall 1].map opcodeMatch =
    [0x4FF0000000000000000000, 0x53F0000000000000000000, 0x57F0000000000000000000, 0x5BF0000000000000000000,
      0x5FF0000000000000000000, 0x63FFFF0000000000000000, 0x67FFFF0000000000000000] := by decide
/-- `mask` of each format (95_test_vectors.md 2.1). -/
theorem test_masks : [Instr.nop 0, .add 1 2 3 4, .sll 1 2 3, .addi 1 2 3, .lui 1 2, .lw 1 2 3, .sw 1 2 3, .beq 1 2 3,
      .j 1].map opcodeMask =
    [0xFFFFFF0000000000000000, 0xFC00000000000000000000, 0xFC0FC00000000000000000, 0xFC003F0000000000000000,
      0xFC0FFF0000000000000000, 0xFC003F0000000000000000, 0xFFF0000000000000000000, 0xFFF0000000000000000000,
      0xFFFFFF0000000000000000] := by decide
theorem test_encode_sll : encode (.sll 8 9 4) = 0x208FC90000000000000004 := by decide

/-! ### Helpers: small states, and what an outcome says -/

/-- The reset state with values in `$t0`, `$t1` and `$t2`. -/
def regs3 (a b c : Int) : State := setReg (setReg (setReg State.reset 8 a) 9 b) 10 c

/-- The same with bytes written from `0x10008000`. -/
def bytes (s : State) (bs : List Byte) : State := s.withDmem (writeBytes [] 0x10008000 bs)

/-- A state under other parameters. -/
def under (s : State) (f : Config → Config) : State := { s with cfg := f s.cfg }

/-- The value of a register after an outcome. -/
def regOf (o : Host.Outcome State Fault Refusal) (k : Nat) : Option Int :=
  match o with
  | .next t => some (t.reg k)
  | .fault _ => none
  | .refused _ => none

/-- The fault of an outcome. -/
def faultOf (o : Host.Outcome State Fault Refusal) : Option Fault :=
  match o with
  | .next _ => none
  | .fault f => some f
  | .refused _ => none

/-- The program counter after an outcome. -/
def pcOf (o : Host.Outcome State Fault Refusal) : Option Int :=
  match o with
  | .next t => some t.pc
  | .fault _ => none
  | .refused _ => none

/-- The pipeline after an outcome. -/
def pipeOf (o : Host.Outcome State Fault Refusal) : Option Pipeline :=
  match o with
  | .next t => some t.pipe
  | .fault _ => none
  | .refused _ => none

/-- The bytes from `0x10008000` after an outcome. -/
def bytesOf (o : Host.Outcome State Fault Refusal) (n : Nat) : List (Option Byte) :=
  match o with
  | .next t => (List.range n).map (fun k => dataByte t (0x10008000 + k))
  | .fault _ => []
  | .refused _ => []

/-! ### One instruction: the vectors of 95_test_vectors.md 3.1 to 3.6 -/

theorem test_add : regOf (exec (.add 8 9 10 0) (regs3 0 2147483647 1)) 8 = some 2147483648 := by decide
theorem test_add_overflow : faultOf (exec (.add 8 9 10 0) (regs3 0 4294967295 1)) = some (.arithmeticOverflow 4294967296) := by decide
theorem test_sub : regOf (exec (.sub 8 9 10 0) (regs3 0 0 (-2147483648))) 8 = some 2147483648 := by decide
theorem test_sub_overflow : faultOf (exec (.sub 8 9 10 0) (regs3 0 4294967295 (-1))) = some (.arithmeticOverflow 4294967296) := by decide
theorem test_and : regOf (exec (.and 8 9 10 0) (regs3 0 (-1) 4294967295)) 8 = some 4294967295 := by decide
theorem test_and_mixed : regOf (exec (.and 8 9 10 0) (regs3 0 (-256) 0x1234)) 8 = some 0x1200 := by decide
theorem test_or : regOf (exec (.or 8 9 10 0) (regs3 0 (-1) 4294967295)) 8 = some (-1) := by decide
theorem test_or_mixed : regOf (exec (.or 8 9 10 0) (regs3 0 (-2147483648) 1)) 8 = some (-2147483647) := by decide
theorem test_nor : regOf (exec (.nor 8 9 10 0) (regs3 0 0xF0F0 0x0F0F)) 8 = some (-65536) := by decide
theorem test_nor_overflow : faultOf (exec (.nor 8 9 10 0) (regs3 0 2147483648 0)) = some (.arithmeticOverflow (-2147483649)) := by decide
theorem test_slt_wide : regOf (exec (.slt 8 9 10 0) (regs3 0 4294967295 0)) 8 = some 0 := by decide
theorem test_slt_signed32 : regOf (exec (.slt 8 9 10 0) (under (regs3 0 4294967295 0) ({ · with sltMode := .signed32 }))) 8 = some 1 := by decide
theorem test_sltu : regOf (exec (.sltu 8 9 10 0) (regs3 0 (-2) 4294967295)) 8 = some 1 := by decide
theorem test_sltu_equal_low_bits : regOf (exec (.sltu 8 9 10 0) (regs3 0 4294967295 (-1))) 8 = some 0 := by decide
theorem test_sll : regOf (exec (.sll 8 9 31) (regs3 0 3 0)) 8 = some (-2147483648) := by decide
theorem test_sll_rangecheck : faultOf (exec (.sll 8 9 1) (under (regs3 0 (-1) 0) ({ · with sllMode := .rangecheck }))) =
    some (.arithmeticOverflow 8589934590) := by decide
theorem test_srl : regOf (exec (.srl 8 9 31) (regs3 0 (-1) 0)) 8 = some 1 := by decide
theorem test_srl_amount : faultOf (exec (.srl 8 9 32) (regs3 0 1 0)) = some (.invalidShiftAmount 32) := by decide
theorem test_addi : regOf (exec (.addi 8 0 4294967295) (regs3 0 0 0)) 8 = some 4294967295 := by decide
theorem test_addi_overflow : faultOf (exec (.addi 8 9 (-1)) (regs3 0 (-2147483648) 0)) = some (.arithmeticOverflow (-2147483649)) := by decide
theorem test_andi : regOf (exec (.andi 8 9 0xFF00) (regs3 0 0x12345678 0)) 8 = some 0x5600 := by decide
theorem test_ori : regOf (exec (.ori 8 9 (-1)) (regs3 0 0 0)) 8 = some (-1) := by decide
theorem test_ori_overflow : faultOf (exec (.ori 8 9 (-4294967296)) (regs3 0 5 0)) = some (.arithmeticOverflow (-4294967291)) := by decide
theorem test_lui : regOf (exec (.lui 8 32768) (regs3 0 0 0)) 8 = some 2147483648 := by decide
theorem test_lui_overflow : faultOf (exec (.lui 8 (-32769)) (regs3 0 0 0)) = some (.arithmeticOverflow (-2147549184)) := by decide
theorem test_lw : regOf (exec (.lw 8 28 0) (bytes (regs3 0 0 0) [0x11, 0x22, 0x33, 0x80])) 8 = some 287454080 := by decide
theorem test_lw_same_register : regOf (exec (.lw 8 8 0) (bytes (regs3 0x10008000 0 0) [0xFF, 0xFF, 0xFF, 0xFE])) 8 = some (-2) := by decide
theorem test_lh : regOf (exec (.lh 8 28 0) (bytes (regs3 0 0 0) [0x80, 0x33])) 8 = some (-32717) := by decide
theorem test_lhu : regOf (exec (.lhu 8 28 0) (bytes (regs3 0 0 0) [0x80, 0x33])) 8 = some 32819 := by decide
theorem test_lhu_little : regOf (exec (.lhu 8 28 0) (under (bytes (regs3 0 0 0) [0x11, 0x22]) ({ · with byteOrder := .little }))) 8 = some 0x2211 := by decide
theorem test_lb : regOf (exec (.lb 8 28 3) (bytes (regs3 0 0 0) [0x11, 0x22, 0x33, 0x80])) 8 = some (-128) := by decide
theorem test_lbu : regOf (exec (.lbu 8 28 3) (bytes (regs3 0 0 0) [0x11, 0x22, 0x33, 0x80])) 8 = some 128 := by decide
theorem test_lbu_unwritten : faultOf (exec (.lbu 8 28 1) (bytes (regs3 0 0 0) [0x11])) = some (.uninitialisedRead 0x10008001) := by decide
theorem test_sw : bytesOf (exec (.sw 28 9 0) (regs3 0 77 0)) 5 = [some 0, some 0, some 0, some 0x4D, none] := by decide
theorem test_sw_little : bytesOf (exec (.sw 28 9 0) (under (regs3 0 0x11223380 0) ({ · with byteOrder := .little }))) 4 =
    [some 0x80, some 0x33, some 0x22, some 0x11] := by decide
theorem test_sh : bytesOf (exec (.sh 28 9 2) (regs3 0 4660 0)) 4 = [none, none, some 0x12, some 0x34] := by decide
theorem test_sh_truncate : bytesOf (exec (.sh 28 9 0) (under (regs3 0 (-32769) 0) ({ · with narrowStoreCheck := .truncate }))) 2 =
    [some 0x7F, some 0xFF] := by decide
theorem test_sb : bytesOf (exec (.sb 28 9 0) (regs3 0 65 0)) 2 = [some 0x41, none] := by decide
theorem test_sb_assertion : faultOf (exec (.sb 28 9 0) (regs3 0 300 0)) = some (.storeValueAssertion 300 1) := by decide
theorem test_beq : pcOf (exec (.beq 8 9 0x400018) (regs3 5 5 0)) = some 0x400018 := by decide
theorem test_beq_overflow : faultOf (exec (.beq 8 9 0x400018) (regs3 (-1) 4294967295 0)) = some (.arithmeticOverflow (-4294967296)) := by decide
theorem test_bne : pcOf (exec (.bne 8 9 0x400018) (regs3 5 6 0)) = some 0x400018 := by decide
theorem test_bne_not_taken : pcOf (exec (.bne 8 9 2) (regs3 5 5 0)) = some 0x400004 := by decide
theorem test_j : pcOf (exec (.j 0x400010) (regs3 0 0 0)) = some 0x400010 := by decide
theorem test_j_misaligned : faultOf (exec (.j 0x400002) (regs3 0 0 0)) = some (.instrAddressMisaligned 0x400002) := by decide
theorem test_nop : pcOf (exec (.nop 7) (regs3 0 0 0)) = some 0x400004 := by decide
theorem test_syscall : (match exec (.syscall 7) (regs3 1 2 3) with | .next t => some t.status | _ => none) = some .halted := by decide
/-- 95_test_vectors.md 3.3: the last words and bytes of data memory, and the order of its checks. -/
theorem test_data_top : (memWrite State.reset 0x7FFFFFF8 4 0).isOk = true ∧ memWrite State.reset 0x7FFFFFFC 4 0 = raise (.dataAddressInvalid 0x7FFFFFFC 4) ∧
    (memWrite State.reset 0x7FFFFFFE 1 0).isOk = true ∧ memWrite State.reset 0x7FFFFFFF 1 0 = raise (.dataAddressInvalid 0x7FFFFFFF 1) ∧
    memWrite State.reset 0x7FFFFFFD 4 0 = raise (.dataAddressInvalid 0x7FFFFFFD 4) := by decide
/-- 95_test_vectors.md S11. -/
theorem test_names : nameOf 0 = .ok "zero" ∧ nameOf 8 = .ok "t0" ∧ nameOf 16 = .ok "s0" ∧ nameOf 24 = .ok "t8" ∧
    nameOf 28 = .ok "gp" ∧ nameOf 31 = .ok "ra" ∧ nameOf 32 = raise (.invalidRegisterNumber 32) := by decide

/-! ### One cycle of the pipeline, from the traces of 95_test_vectors.md Part 4 to 6 -/

/-- A record without a source line. -/
def rec (i : Instr) : InstrRec := { op := i, line := none }

/-- A pipeline state over an empty program: the program counter, and what ID, EX, MEM and WB hold. -/
def stages (pc : Int) (d : Instr) (e : EXRec) (m : MEMRec) (w : WBRec) (s : State) : State :=
  s.withPipe { ifr := { instr := .bubble, pc := pc }, idr := { instr := rec d }, exr := e, memr := m, wbr := w }

def ex (i : Instr) (a b : Option Int) : EXRec := { instr := rec i, rsValue := a, rtValue := b, imm := i.imm }
def mem (i : Instr) (r : Int) (b : Option Int) : MEMRec :=
  { instr := rec i, aluResult := r, rtValue := b, zero := zeroFlag r, branchTarget := if isBranch i then i.imm else 0 }
def wb (i : Instr) (r : Int) : WBRec := { instr := rec i, result := r }

/-- P1, step 4: the `ADD` in ID takes 5 from the MEM-stage producer and 3 from the EX-stage producer. -/
def p1c3 : State :=
  stages 0x40000c (.add 10 8 9 0) (ex (.addi 9 0 3) (some 0) none) (mem (.addi 8 0 5) 5 none) .bubble State.reset
theorem test_p1_forwarding : pipeOf (step p1c3) =
    some { ifr := { instr := .bubble, pc := 0x400010 }, idr := .bubble, exr := ex (.add 10 8 9 0) (some 5) (some 3),
           memr := mem (.addi 9 0 3) 3 none, wbr := wb (.addi 8 0 5) 5 } := by decide

/-- P3, steps 5 and 6: the stall behind the `LW`, and the loaded value forwarded after it. -/
def p3c4 : State :=
  stages 0x400010 (.add 9 8 0 0) (ex (.lw 8 29 0) (some 2147483640) none) (mem (.sw 29 9 0) 2147483640 (some 77))
    (wb (.addi 9 0 77) 77) State.reset
def p3c5 : State :=
  stages 0x400010 (.add 9 8 0 0) .bubble (mem (.lw 8 29 0) 2147483640 none) (wb (.sw 29 9 0) 2147483640)
    ((setReg State.reset 9 77).withDmem [(2147483640, 0), (2147483641, 0), (2147483642, 0), (2147483643, 0x4D)])
theorem test_p3_stall : pipeOf (step p3c4) = some p3c5.pipe := by decide
theorem test_p3_after_stall : pipeOf (step p3c5) =
    some { ifr := { instr := .bubble, pc := 0x400014 }, idr := .bubble, exr := ex (.add 9 8 0 0) (some 77) (some 0),
           memr := .bubble, wbr := wb (.lw 8 29 0) 77 } := by decide +kernel

/-- P4, step 8: the taken `BNE` squashes three instructions and redirects the fetch. -/
def p4c7 : State :=
  stages 0x40001c (.lw 10 28 0) (ex (.sw 28 9 0) (some 0x10008000) (some 3)) (mem (.bne 8 0 0x400008) 2 (some 0))
    (wb (.addi 8 8 (-1)) 2) State.reset
theorem test_p4_squash : pipeOf (step p4c7) =
    some { ifr := { instr := .bubble, pc := 0x400008 }, idr := .bubble, exr := .bubble, memr := .bubble,
           wbr := wb (.bne 8 0 0x400008) 2 } := by decide

/-- P5, step 3: the jump in ID. -/
theorem test_p5_jump : pipeOf (step (stages 0x400008 (.j 0x400010) (ex (.addi 8 0 1) (some 0) none) .bubble .bubble State.reset)) =
    some { ifr := { instr := .bubble, pc := 0x400010 }, idr := .bubble, exr := ex (.j 0x400010) none none,
           memr := mem (.addi 8 0 1) 1 none, wbr := .bubble } := by decide

/-- H1, step 4: the `J` two slots after a taken branch captures the fetch. -/
def h1c3 : State := stages 0x40000c (.j 0x400020) .bubble (mem (.beq 0 0 0x400018) 0 (some 0)) .bubble State.reset
theorem test_h1 : pipeOf (step h1c3) =
    some { ifr := { instr := .bubble, pc := 0x400020 }, idr := .bubble, exr := .bubble, memr := .bubble,
           wbr := wb (.beq 0 0 0x400018) 0 } := by decide

/-- H2, step 5: the load-use pair behind a taken branch cancels the redirect. -/
def h2c4 : State :=
  stages 0x400010 (.add 9 8 0 0) (ex (.lw 8 28 0) (some 0x10008000) none) (mem (.beq 0 0 0x40001c) 0 (some 0))
    (wb (.sw 28 0 0) 0x10008000) State.reset
theorem test_h2 : pipeOf (step h2c4) =
    some { ifr := { instr := .bubble, pc := 0x400010 }, idr := { instr := rec (.add 9 8 0 0) }, exr := .bubble,
           memr := .bubble, wbr := wb (.beq 0 0 0x40001c) 0 } := by decide

/-- H3, step 3: register 0 as a destination is forwarded, unless `FWD_ZERO_EXCLUDED`. -/
def h3c2 : State := stages 0x400008 (.add 8 0 0 0) (ex (.addi 0 0 5) (some 0) none) .bubble .bubble State.reset
theorem test_h3 : (pipeOf (step h3c2)).map (·.exr) = some (ex (.add 8 0 0 0) (some 5) (some 5)) := by decide
theorem test_h3_excluded : (pipeOf (step (under h3c2 ({ · with fwdZeroExcluded := true })))).map (·.exr) =
    some (ex (.add 8 0 0 0) (some 0) (some 0)) := by decide

/-- F5, step 6: the wrong-path `ADDI` in EX faults while the taken `BEQ` is in MEM. -/
def f5c5 : State :=
  stages 0x400014 (.nop 0) (ex (.addi 9 8 1) (some 4294967295) none) (mem (.beq 0 0 0x400014) 0 (some 0))
    (wb (.ori 8 8 0xFFFF) 4294967295) State.reset
theorem test_f5 : faultOf (step f5c5) = some (.arithmeticOverflow 4294967296) := by decide

/-- F7 and F8, step 2. -/
theorem test_f7 : faultOf (step (stages 0x400004 (.j 0x400002) .bubble .bubble .bubble State.reset)) = some (.instrAddressMisaligned 0x400002) := by decide
theorem test_f8 : faultOf (step (stages 0x400004 (.j 0x1000) .bubble .bubble .bubble State.reset)) = some (.instrAddressInvalid 0x1000) := by decide

/-- H4: a `SYSCALL` in WB halts the run before the step, or after it. -/
def h4c5 : State :=
  stages 0x400014 (.nop 0) (ex (.addi 9 0 2) (some 0) none) (mem (.sw 28 8 0) 0x10008000 (some 1)) (wb (.syscall 0) 0) State.reset
theorem test_h4 : (match step h4c5 with | .next t => some (t.status, t.cycles, t.retired) | _ => none) = some (.halted, 0, 0) := by decide
theorem test_h4_after : (match step (under h4c5 ({ · with haltBeforeFinalStep := false })) with
    | .next t => some (t.status, t.cycles, t.retired, dataByte t 0x10008003) | _ => none) = some (.halted, 1, 1, some 1) := by decide

/-- F9: a program without the entry label; a program with it, loaded at `TEXT_BASE`. -/
theorem test_f9 : boot Config.p0 [] (some []) = refuse (.staticError .missingEntryLabel) := by decide
theorem test_boot : (match boot Config.p0 [("main", 0x400000), ("L", 0x400004)] (some [(some "L", rec (.j 0)), (none, rec (.syscall 0))]) with
    | .ok s => [s.pipe.ifr.instr, instrAt s 0x400000, instrAt s 0x400004, instrAt s 0x400008] | .error _ => []) =
    [rec (.j 0x400004), rec (.j 0x400004), rec (.syscall 0), .bubble] := by decide

/-- `withFetchWord`: the word stands in IF and the next step moves it into ID. -/
theorem test_withFetchWord : (pipeOf (step (State.reset.withFetchWord 88 0x04A2090000000000000000))).map (·.idr.instr.op) =
    some (.add 10 8 9 0) := by decide

/-! ### Witnesses: for every obligation that has hypotheses, a state and operands that meet them together -/

/-- The invariant, as a check that evaluates. -/
def checkInv (s : State) : Bool :=
  decide (s.cfg.Admissible ∧ Memory.wf s.dmem = true ∧
    (∀ e ∈ s.dmem, s.cfg.dataBase ≤ e.1 ∧ e.1 + 1 < s.cfg.stackEnd) ∧ IMemory.wf s.imem = true ∧
    (∀ e ∈ s.imem, FetchOk s.cfg e.1 ∧ e.2.op.wellFormed = true) ∧ s.regs[0] = 0 ∧
    (∀ i ∈ List.range 32, InRange32 (s.reg i)) ∧ FetchOk s.cfg s.pc ∧ s.pipe.ifr = fetched s s.pc) &&
  decide (s.pipe.idr.instr.op.wellFormed = true ∧ s.pipe.exr.instr.op.wellFormed = true ∧
    OperandOk (readsRs s.pipe.exr.instr.op) s.pipe.exr.rsValue ∧ OperandOk (readsRt s.pipe.exr.instr.op) s.pipe.exr.rtValue ∧
    s.pipe.exr.imm = s.pipe.exr.instr.op.imm) &&
  decide (s.pipe.memr.instr.op.wellFormed = true ∧ InRange32 s.pipe.memr.aluResult ∧
    s.pipe.memr.zero = zeroFlag s.pipe.memr.aluResult ∧ OperandOk (readsRt s.pipe.memr.instr.op) s.pipe.memr.rtValue ∧
    s.pipe.memr.branchTarget = (if isBranch s.pipe.memr.instr.op then s.pipe.memr.instr.op.imm else 0) ∧
    s.pipe.wbr.instr.op.wellFormed = true ∧ InRange32 s.pipe.wbr.result)

theorem inv_of_check {s : State} (h : checkInv s = true) : s.Inv := by
  unfold checkInv at h
  obtain ⟨hab, hc⟩ := Bool.and_eq_true_iff.1 h
  obtain ⟨ha, hb⟩ := Bool.and_eq_true_iff.1 hab
  obtain ⟨h1, h2, h3, h4, h5, h6, h7, h8, h9⟩ := of_decide_eq_true ha
  obtain ⟨h10, h11, h12, h13, h14⟩ := of_decide_eq_true hb
  obtain ⟨h15, h16, h17, h18, h19, h20, h21⟩ := of_decide_eq_true hc
  refine ⟨h1, h2, h3, h4, h5, h6, fun i => ?_, h8, h9, h10, h11, h12, h13, h14, h15, h16, h17, h18, h19, h20, h21⟩
  by_cases hi : i < 32
  · exact h7 i (List.mem_range.2 hi)
  · unfold State.reg
    rw [dif_neg fun h => hi h.2]
    exact ⟨by omega, by omega⟩

theorem witness_DecodeOfEncodeIsIdentity : (Instr.add 31 0 31 (-0x8000000000000000)).wellFormed = true ∧
    (Instr.sw 0 31 0x7FFFFFFFFFFFFFFF).wellFormed = true := by decide
theorem witness_EncodeOfDecodeIsIdentity : decode 0x04A2090000000000000000 = .ok (.add 10 8 9 0) := by decide
theorem witness_DecodedWordMatchesItsOpcodeOnly : decode 0x04A2090000000000000000 = .ok (.add 10 8 9 0) ∧
    (0x04A2090000000000000000 : PackedWord) &&& opcodeMask (.add 0 0 0 0) = opcodeMatch (.add 0 0 0 0) := by decide
theorem witness_ResetSatisfiesInvariant : Config.p0.Admissible := by decide
theorem witness_BootLoadsTheProgram : Config.p0.Admissible ∧
    ∃ s, boot Config.p0 [("main", 0x400000), ("L", 0x400004)] (some [(some "L", rec (.j 0)), (none, rec (.syscall 0))]) = .ok s :=
  ⟨by decide, _, rfl⟩
/-- Label references on `J` and on `BEQ`; the entry label behind the two instructions, at the boundary. -/
theorem witness_BootAnswers : Config.p0.Admissible ∧
    (∀ x ∈ [(some "L", rec (.j 0)), (some "L", rec (.beq 0 0 0)), (none, rec (.syscall 0))], x.2.op.wellFormed = true ∧
      ∀ name, x.1 = some name → (isBranch x.2.op = true ∨ isJump x.2.op = true) ∧
        ∃ a, SymbolTable.lookup [("main", 0x40000C), ("L", 0x400004)] name = some a ∧ Imm64 a) ∧
    (Config.p0.textBase : Int) + 4 * (3 : Nat) ≤ 4294967296 ∧
    SymbolTable.lookup [("main", 0x40000C), ("L", 0x400004)] Config.p0.entrySymbol = some 0x40000C ∧
    SymbolTable.count [("main", 0x40000C), ("L", 0x400004)] Config.p0.entrySymbol = 1 ∧ FetchOk Config.p0 0x40000C := by
  refine ⟨by decide, ?_, by decide, by decide, by decide, by decide⟩
  simp only [List.forall_mem_cons, rec, Option.some.injEq, reduceCtorEq, false_implies, implies_true]
  exact ⟨⟨by decide, fun _ h => h ▸ ⟨.inr rfl, 0x400004, rfl, by decide⟩⟩,
    ⟨by decide, fun _ h => h ▸ ⟨.inl rfl, 0x400004, rfl, by decide⟩⟩, by decide, by simp⟩
/-- Behind a pair that links: a missing label, an ill-formed record, a label on `ADD`, a label that makes an ill-formed
record; a program with two entry labels, and one with none. -/
theorem witness_StaticErrorsStopBeforeTheRun :
    (∃ s0 s1, initialState Config.p0 = .ok s0 ∧ linkFrom [("L", 4)] s0 Config.p0.textBase [(some "L", rec (.j 0))] = .ok s1) ∧
    SymbolTable.lookup [("L", 4)] "M" = none ∧ (rec (.add 32 0 0 0)).op.wellFormed = false ∧
    (SymbolTable.lookup [("L", 4)] "L" = some 4 ∧ withTarget 4 (rec (.add 0 0 0 0)).op = none) ∧
    (SymbolTable.lookup [("L", 0x8000000000000000)] "L" = some 0x8000000000000000 ∧
      (withTarget 0x8000000000000000 (rec (.j 0)).op).map Instr.wellFormed = some false) ∧
    SymbolTable.count [("main", 0), ("main", 4)] Config.p0.entrySymbol ≠ 1 ∧ SymbolTable.count [] Config.p0.entrySymbol ≠ 1 ∧
    (State.reset.withStatus (.rejected .parseFailure)).status = .rejected .parseFailure :=
  ⟨⟨_, _, rfl, rfl⟩, by decide, by decide, by decide, by decide, by decide, by decide, rfl⟩

/-- Index and value at their boundaries, clause by clause (95_test_vectors.md S1, S2). -/
theorem witness_RegisterWriteThenRead : writeReg State.reset 32 0 = raise (.invalidRegisterNumber 32) ∧
    writeReg State.reset 0 4294967296 = raise (.registerValueRange 4294967296) ∧
    writeReg State.reset 31 (-2147483649) = raise (.registerValueRange (-2147483649)) ∧
    (writeReg State.reset 31 4294967295).isOk = true ∧ (writeReg State.reset 8 (-2147483648)).isOk = true ∧
    (writeReg State.reset 0 5).isOk = true := by decide
/-- 95_test_vectors.md S5. -/
theorem witness_InstructionAddressCheck : imemRead State.reset 0x3FFFFF = raise (.instrAddressInvalid 0x3FFFFF) ∧
    imemRead State.reset 0x100000000 = raise (.instrAddressInvalid 0x100000000) ∧
    imemRead State.reset 0x400002 = raise (.instrAddressMisaligned 0x400002) ∧
    imemRead State.reset 0xFFFFFFFE = raise (.instrAddressMisaligned 0xFFFFFFFE) ∧
    FetchOk Config.p0 0x400000 ∧ FetchOk Config.p0 0xFFFFFFFC := by decide
theorem witness_InstructionMemoryReadsWhatWasLinked : FetchOk Config.p0 0xFFFFFFFC ∧
    ∃ t, imemWrite State.reset 0xFFFFFFFC (rec (.syscall 0)) = .ok t := ⟨by decide, _, rfl⟩
/-- Each clause at its boundary; the first and the last address in range. -/
theorem witness_DataAddressCheck : (0xFFFFFFC : Int) < Config.p0.dataBase ∧
    ((Config.p0.dataBase : Int) ≤ 0x7FFFFFFC ∧ ¬ ((0x7FFFFFFC : Int) + (4 : Nat) < Config.p0.stackEnd)) ∧
    ((Config.p0.dataBase : Int) ≤ 0x10000001 ∧ (0x10000001 : Int) + (2 : Nat) < Config.p0.stackEnd ∧ (0x10000001 : Int) % (2 : Nat) ≠ 0) ∧
    DataOk Config.p0 0x10000000 4 ∧ DataOk Config.p0 0x7FFFFFF8 4 ∧ DataOk Config.p0 0x7FFFFFFE 1 := by decide
theorem witness_StoreWritesExactlyItsBytes : DataOk Config.p0 0x7FFFFFFC 2 ∧
    (-2 ^ (8 * 2 - 1) ≤ (65535 : Int) ∧ (65535 : Int) < 2 ^ (8 * 2)) ∧ Config.p0.narrowStoreCheck = .fault ∧
    ¬ (-2 ^ (8 * 2 - 1) ≤ (65536 : Int) ∧ (65536 : Int) < 2 ^ (8 * 2)) ∧
    ¬ (-2 ^ (8 * 2 - 1) ≤ (-32769 : Int) ∧ (-32769 : Int) < 2 ^ (8 * 2)) := by decide
theorem witness_LoadReadsTheBytesStored : DataOk Config.p0 0x10008000 2 ∧
    ∀ k, k < 2 → dataByte (bytes State.reset [0x80, 0x33]) ((0x10008000 : Int).toNat + k) =
      some ((fun k => if k = 0 then 0x80 else 0x33 : Nat → Byte) k) := by decide
theorem witness_StoreThenLoadRoundTrip : ∃ t, memWrite State.reset 0x7FFFFFF8 4 4294967295 = .ok t := ⟨_, rfl⟩
/-- The lowest and the highest datum of each width; a halfword whose second byte is the first unwritten one; the three settings. -/
theorem witness_UnwrittenByteRead : DataOk Config.p0 0x10000000 1 ∧ DataOk Config.p0 0x7FFFFFFE 1 ∧ DataOk Config.p0 0x7FFFFFFC 2 ∧
    DataOk Config.p0 0x7FFFFFF8 4 ∧ dataByte State.reset (0x7FFFFFFE : Int).toNat = none ∧
    (DataOk Config.p0 0x10008000 2 ∧ dataByte (bytes State.reset [0x11]) ((0x10008000 : Int).toNat + 1) = none ∧
      ∀ j, j < 1 → dataByte (bytes State.reset [0x11]) ((0x10008000 : Int).toNat + j) ≠ none) ∧
    State.reset.cfg.unwrittenRead = .fault ∧
    (under State.reset ({ · with unwrittenRead := .zero })).cfg.unwrittenRead = .zero ∧
    (under State.reset ({ · with unwrittenRead := .any })).cfg.unwrittenRead = .any := by decide
theorem witness_MemoryOperationsKeepCanonicalForm : Memory.wf State.reset.dmem = true ∧ IMemory.wf State.reset.imem = true ∧
    (∃ t, memWrite State.reset 0x10000000 1 5 = .ok t) ∧
    (∃ v t, memRead (bytes State.reset [1]) 0x10008000 1 false = .ok (v, t)) ∧
    (∃ t, imemWrite State.reset 0x400000 .bubble = .ok t) := ⟨rfl, rfl, ⟨_, rfl⟩, ⟨_, _, rfl⟩, ⟨_, rfl⟩⟩

/-- Registers at the boundary, a result in range and one out of range, and room for the next fetch. -/
theorem witness_AddAndSub : InRange32 ((regs3 0 4294967294 1).reg 9 + (regs3 0 4294967294 1).reg 10) ∧
    ¬ InRange32 ((regs3 0 4294967295 1).reg 9 + (regs3 0 4294967295 1).reg 10) ∧
    InRange32 ((regs3 0 0 (-2147483648)).reg 9 - (regs3 0 0 (-2147483648)).reg 10) ∧
    ¬ InRange32 ((regs3 0 4294967295 (-1)).reg 9 - (regs3 0 4294967295 (-1)).reg 10) ∧
    FetchOk State.reset.cfg (State.reset.pc + 4) ∧ (rec (.add 0 31 31 0)).op.wellFormed = true := by decide
theorem witness_AndOrNor : InRange32 (bitAnd (-2147483648) 4294967295) ∧ InRange32 (bitOr (-2147483648) 4294967295) ∧
    InRange32 (-(bitOr 2147483647 0) - 1) ∧ ¬ InRange32 (-(bitOr 2147483648 0) - 1) := by decide
theorem witness_SltAndSltu : InRange32 (1 : Int) ∧ FetchOk State.reset.cfg (State.reset.pc + 4) := by decide
theorem witness_AddImmediate : InRange32 ((regs3 0 7 0).reg 9 + (-7)) ∧ ¬ InRange32 ((regs3 0 0 0).reg 0 + 4294967296) ∧
    FetchOk (regs3 0 7 0).cfg ((regs3 0 7 0).pc + 4) := by decide
theorem witness_AndiAndOri : InRange32 (bitAnd (-1) 65535) ∧ ¬ InRange32 (bitAnd (-2147483648) (-4294967296)) ∧
    InRange32 (bitOr 0 (-1)) ∧ ¬ InRange32 (bitOr 0 4294967296) := by decide
theorem witness_LoadUpperImmediate : ((-32768 : Int) ≤ -32768 ∧ (65535 : Int) ≤ 65535) ∧
    ((-32769 : Int) < -32768 ∧ (65535 : Int) < 65536) ∧ FetchOk State.reset.cfg (State.reset.pc + 4) := by decide
theorem witness_ShiftLeftLogical : FetchOk (regs3 0 3 0).cfg ((regs3 0 3 0).pc + 4) ∧ (regs3 0 3 0).cfg.sllMode = .truncate32 ∧
    (regs3 0 1 0).reg 9 % 4294967296 * 2 ^ 31 < 4294967296 ∧
    (under (regs3 0 3 0) ({ · with sllMode := .rangecheck })).cfg.sllMode = .rangecheck ∧
    ¬ ((regs3 0 3 0).reg 9 % 4294967296 * 2 ^ 31 < 4294967296) := by decide
theorem witness_ShiftRightLogical : FetchOk (regs3 0 (-1) 0).cfg ((regs3 0 (-1) 0).pc + 4) := by decide
theorem witness_ShiftAmount : ((-1 : Int) < 0 ∧ (31 : Int) < 32) ∧ State.reset.cfg.shamtMode = .fault ∧
    (under State.reset ({ · with shamtMode := .mod32 })).cfg.shamtMode = .mod32 := by decide
/-- A readable word, halfword and byte; an address sum out of range; a faulting read. -/
theorem witness_Loads : InRange32 ((bytes State.reset [1, 2, 3, 4]).reg 28 + 0) ∧ DataOk Config.p0 (State.reset.reg 28 + 0) 4 ∧
    FetchOk Config.p0 (State.reset.pc + 4) ∧
    (∀ k, k < 4 → dataByte (bytes State.reset [1, 2, 3, 4]) ((0x10008000 : Int).toNat + k) = some (BitVec.ofNat 8 (k + 1))) ∧
    ¬ InRange32 ((regs3 (-2147483648) 0 0).reg 8 + (-1)) ∧
    memRead State.reset (State.reset.reg 28 + 1) 2 true = raise (.dataAddressMisaligned 0x10008001 2) := by decide
theorem witness_StoreWord : DataOk Config.p0 (State.reset.reg 29 + 0) 4 ∧ InRange32 (State.reset.reg 29 + 0) ∧
    (-2 ^ (8 * 4 - 1) ≤ (4294967295 : Int) ∧ (4294967295 : Int) < 2 ^ (8 * 4)) ∧ ¬ InRange32 ((regs3 4294967295 0 0).reg 8 + 1) ∧
    memWrite State.reset (State.reset.reg 0 + 0) 4 0 = raise (.dataAddressInvalid 0 4) := by decide
theorem witness_StoreHalfAndByte : DataOk Config.p0 (State.reset.reg 28 + 2) 2 ∧ DataOk Config.p0 (State.reset.reg 28 + 3) 1 ∧
    (-2 ^ (8 * 2 - 1) ≤ (-32768 : Int) ∧ (-32768 : Int) < 2 ^ (8 * 2)) ∧ (-2 ^ (8 * 1 - 1) ≤ (255 : Int) ∧ (255 : Int) < 2 ^ (8 * 1)) ∧
    memWrite State.reset (State.reset.reg 28) 1 256 = raise (.storeValueAssertion 256 1) := by decide
theorem witness_BranchEqualAndNotEqual : InRange32 ((regs3 5 5 0).reg 8 - (regs3 5 5 0).reg 9) ∧ FetchOk Config.p0 0xFFFFFFFC ∧
    ¬ InRange32 ((regs3 (-2147483648) 1 0).reg 8 - (regs3 (-2147483648) 1 0).reg 9) ∧
    (p4c7.Executes ∧ p4c7.pipe.memr.instr.op = .bne 8 0 0x400008 ∧ p4c7.pipe.memr.zero = false ∧
      isJump p4c7.pipe.idr.instr.op = false) ∧ (∃ t, step p4c7 = .next t) ∧
    (decide ((regs3 5 5 0).reg 8 = (regs3 5 5 0).reg 9) = true ∧ decide ((regs3 5 6 0).reg 8 ≠ (regs3 5 6 0).reg 9) = true ∧
      (0x3FFFFC : Int) < Config.p0.textBase ∧ (4294967296 : Int) ≤ 0x100000000 ∧
      ((Config.p0.textBase : Int) ≤ 0x400002 ∧ (0x400002 : Int) < 4294967296 ∧ (0x400002 : Int) % 4 ≠ 0)) :=
  ⟨by decide, by decide, by decide, by decide, ⟨_, rfl⟩, by decide⟩
theorem witness_not_LoadUse : ¬ LoadUse p4c7 ∧ ¬ LoadUse p1c3 := by
  constructor <;> (rintro ⟨-, h⟩; exact absurd h (by decide))
theorem witness_Jump : FetchOk Config.p0 0x400000 ∧ ((0x3FFFFC : Int) < Config.p0.textBase) ∧
    ((Config.p0.textBase : Int) ≤ 0x400002 ∧ (0x400002 : Int) % 4 ≠ 0) := by decide
theorem witness_NoOperation : FetchOk Config.p0 (State.reset.pc + 4) ∧
    (stages 0xFFFFFFFC (.nop 0) .bubble .bubble .bubble State.reset).pc + 4 = 4294967296 := by decide
theorem witness_SystemCall : (mem (.syscall 7) 0 none).instr.op = .syscall 7 := rfl
/-- An instruction of each shape in MEM and in WB, for the stage clauses of the instruction statements. -/
theorem witness_StageClauses : p1c3.pipe.memr.instr.op = .addi 8 0 5 ∧ p3c5.pipe.memr.instr.op = .lw 8 29 0 ∧
    (p3c4.pipe.memr.instr.op = .sw 29 9 0 ∧ p3c4.pipe.memr.rtValue = some 77) ∧ p4c7.pipe.wbr.instr.op = .addi 8 8 (-1) ∧
    p3c5.pipe.wbr.instr.op = .sw 29 9 0 ∧ (stages 0x400008 (.nop 0) .bubble (mem (.add 8 9 10 0) 8 (some 3)) (wb (.lui 8 1) 65536)
      State.reset).pipe.memr.instr.op = .add 8 9 10 0 := ⟨rfl, rfl, ⟨rfl, rfl⟩, rfl, rfl, rfl⟩
theorem witness_NoInstructionIsRefused : (Instr.lw 31 31 0).wellFormed = true := by decide
theorem witness_ExecIsTheStagesInSequence : isSyscall (.lw 8 29 0) = false := by decide

/-- States of the pipeline that execute a step and answer: P1, P3 and P4 of 95_test_vectors.md. -/
theorem witness_CommitPhase : p4c7.Executes ∧ (∃ t, step p4c7 = .next t) ∧
    (stages 0x400008 (.add 8 9 10 0) .bubble .bubble (wb (.addi 9 0 4) 4) State.reset).Executes ∧
    dest (stages 0x400008 (.add 8 9 10 0) .bubble .bubble (wb (.addi 9 0 4) 4) State.reset).pipe.exr.instr.op = none ∧
    ∃ t, step (stages 0x400008 (.add 8 9 10 0) .bubble .bubble (wb (.addi 9 0 4) 4) State.reset) = .next t :=
  ⟨by decide, ⟨_, rfl⟩, by decide, by decide, _, rfl⟩
/-- A jump below `TEXT_BASE` and one to a misaligned address, with the other checks of the step passing; a fetch that passes. -/
theorem witness_NextFetch : ((stages 0x400004 (.j 0x1000) .bubble .bubble .bubble State.reset).Executes ∧
      (stages 0x400004 (.j 0x1000) .bubble .bubble .bubble State.reset).Inv ∧ ¬ FetchOk Config.p0 0x1000 ∧
      (∃ r, alu Config.p0 .bubble = .ok r) ∧
      ∃ x, access (stages 0x400004 (.j 0x1000) .bubble .bubble .bubble State.reset) .bubble = .ok x) ∧
    (stages 0x400004 (.j 0x400002) .bubble .bubble .bubble State.reset).Inv ∧ State.reset.Executes ∧ p4c7.Inv ∧
    ∃ t, step p4c7 = .next t :=
  ⟨⟨by decide, inv_of_check (by decide), by decide, ⟨_, rfl⟩, _, rfl⟩, inv_of_check (by decide), by decide,
    inv_of_check (by decide), _, rfl⟩
theorem witness_JumpSquashesItsSuccessor : (stages 0x400008 (.j 0x400010) .bubble .bubble .bubble State.reset).Executes ∧
    takenBranch (stages 0x400008 (.j 0x400010) .bubble .bubble .bubble State.reset).pipe.memr = false ∧
    ∃ t, step (stages 0x400008 (.j 0x400010) .bubble .bubble .bubble State.reset) = .next t := ⟨by decide, by decide, _, rfl⟩
theorem witness_OperandDelivery : p1c3.Executes ∧ takenBranch p1c3.pipe.memr = false ∧
    readsRs p1c3.pipe.idr.instr.op = some 8 ∧ readsRt p1c3.pipe.idr.instr.op = some 9 ∧ ∃ t, step p1c3 = .next t :=
  ⟨by decide, by decide, by decide, by decide, _, rfl⟩
theorem witness_OperandDelivery_producers : ReadsDest p1c3.cfg (dest p1c3.pipe.exr.instr.op) (readsRt p1c3.pipe.idr.instr.op) ∧
    ReadsDest p1c3.cfg (dest p1c3.pipe.memr.instr.op) (readsRs p1c3.pipe.idr.instr.op) ∧
    ¬ ReadsDest p1c3.cfg (dest p1c3.pipe.exr.instr.op) (readsRs p1c3.pipe.idr.instr.op) :=
  ⟨⟨9, by decide, by decide, by decide⟩, ⟨8, by decide, by decide, by decide⟩, fun ⟨_, h, h', _⟩ =>
    absurd (h.trans h'.symm) (by decide)⟩
/-- A shift by 31 in EX, an overflow in EX, and the states of P1. -/
theorem witness_AluStage : p1c3.Executes ∧ (readsRs p1c3.pipe.exr.instr.op = some 0 ∧ p1c3.pipe.exr.rsValue = some 0) ∧
    (∃ t, step p1c3 = .next t) ∧ f5c5.Executes ∧ f5c5.Inv ∧ (∃ x, nextIF f5c5 = .ok x) ∧
    ¬ InRange32 (aluTable f5c5.cfg f5c5.pipe.exr.instr.op 4294967295 0 f5c5.pipe.exr.imm) ∧
    (0 ≤ (ex (.sll 8 9 31) none (some 3)).imm ∧ (ex (.sll 8 9 31) none (some 3)).imm ≤ 31) :=
  ⟨by decide, by decide, ⟨_, rfl⟩, by decide, inv_of_check (by decide), ⟨_, rfl⟩, by decide, by decide⟩
theorem witness_AccessAndNextWb : p3c4.Executes ∧ isStore p3c4.pipe.memr.instr.op = true ∧ (∃ t, step p3c4 = .next t) ∧
    p3c5.Executes ∧ isLoad p3c5.pipe.memr.instr.op = true ∧ ∃ t, step p3c5 = .next t :=
  ⟨by decide, by decide, ⟨_, rfl⟩, by decide, by decide, _, rfl⟩
theorem witness_TakenBranchSquashesThree : p4c7.Executes ∧ takenBranch p4c7.pipe.memr = true ∧ h1c3.Executes ∧
    takenBranch h1c3.pipe.memr = true ∧ isJump h1c3.pipe.idr.instr.op = true ∧ (∃ t, step p4c7 = .next t) ∧ ∃ t, step h1c3 = .next t :=
  ⟨by decide, by decide, by decide, by decide, by decide, ⟨_, rfl⟩, _, rfl⟩
theorem witness_LoadUseStallOrForward : (p3c4.Executes ∧ takenBranch p3c4.pipe.memr = false ∧ HitsEx p3c4 ∧
      isLoad p3c4.pipe.exr.instr.op = true ∧ ∃ t, step p3c4 = .next t) ∧
    (p1c3.Executes ∧ takenBranch p1c3.pipe.memr = false ∧ HitsEx p1c3 ∧ isLoad p1c3.pipe.exr.instr.op = false ∧
      ∃ t, step p1c3 = .next t) :=
  ⟨⟨by decide, by decide, .inl ⟨8, by decide, by decide, by decide⟩, by decide, _, rfl⟩,
    by decide, by decide, .inr ⟨9, by decide, by decide, by decide⟩, by decide, _, rfl⟩
theorem witness_LoadUseCostsOneCycle : p3c4.Executes ∧ takenBranch p3c4.pipe.memr = false ∧ LoadUse p3c4 ∧
    ∃ t u, step p3c4 = .next t ∧ t.Executes ∧ step t = .next u :=
  ⟨by decide, by decide, ⟨.inl ⟨8, by decide, by decide, by decide⟩, by decide⟩, _, _, rfl, by decide, rfl⟩
theorem witness_JumpInShadowCapturesTheFetch : h1c3.Executes ∧ takenBranch h1c3.pipe.memr = true ∧
    h1c3.pipe.idr.instr.op = .j 0x400020 ∧ ∃ t, step h1c3 = .next t := ⟨by decide, by decide, rfl, _, rfl⟩
theorem witness_LoadUseInShadowCancelsTheBranch : h2c4.Executes ∧ takenBranch h2c4.pipe.memr = true ∧ LoadUse h2c4 ∧
    ∃ t, step h2c4 = .next t :=
  ⟨by decide, by decide, ⟨.inl ⟨8, by decide, by decide, by decide⟩, by decide⟩, _, rfl⟩
theorem witness_ZeroDestinationIsForwarded : h3c2.Executes ∧ takenBranch h3c2.pipe.memr = false ∧
    dest h3c2.pipe.exr.instr.op = some 0 ∧ isLoad h3c2.pipe.exr.instr.op = false ∧ readsRs h3c2.pipe.idr.instr.op = some 0 ∧
    h3c2.cfg.fwdZeroExcluded = false ∧ (∃ t, step h3c2 = .next t) ∧
    ∃ t, step (under h3c2 ({ · with fwdZeroExcluded := true })) = .next t :=
  ⟨by decide, by decide, by decide, by decide, by decide, by decide, ⟨_, rfl⟩, _, rfl⟩
theorem witness_WrongPathInstructionFaults : f5c5.Inv ∧ f5c5.Executes ∧ takenBranch f5c5.pipe.memr = true ∧
    (∃ x, nextIF f5c5 = .ok x) ∧ alu f5c5.cfg f5c5.pipe.exr = raise (.arithmeticOverflow 4294967296) :=
  ⟨inv_of_check (by decide), by decide, by decide, ⟨_, rfl⟩, by decide⟩
theorem witness_Counters : p4c7.Executes ∧ (∃ t, step p4c7 = .next t) ∧ State.reset.retired = 0 ∧
    (State.reset.withCounters 7 3).retired ≠ 0 ∧
    (State.reset.pipe = (State.reset.withFresh 1).pipe ∧ ∀ k, State.reset.reg k = (State.reset.withFresh 1).reg k) :=
  ⟨by decide, ⟨_, rfl⟩, rfl, by decide, rfl, fun _ => rfl⟩
/-- Both halting points, a step that does not halt, and a running step that faults. -/
theorem witness_HaltOnSystemCall : h4c5.status = .running ∧ isSyscall h4c5.pipe.wbr.instr.op = true ∧
    h4c5.cfg.haltBeforeFinalStep = true ∧ (∃ t, step (under h4c5 ({ · with haltBeforeFinalStep := false })) = .next t) ∧
    isSyscall p4c7.pipe.wbr.instr.op = false ∧ (∃ t, step p4c7 = .next t) ∧ runSteps 1 p4c7 = step p4c7 ∧
    (f5c5.status = .running ∧ step f5c5 = .fault (.arithmeticOverflow 4294967296) ∧
      runSteps 1 f5c5 = .fault (.arithmeticOverflow 4294967296)) ∧
    (State.reset.withStatus (.faulted (.arithmeticOverflow 0))).status = .faulted (.arithmeticOverflow 0) :=
  ⟨rfl, rfl, rfl, ⟨_, rfl⟩, rfl, ⟨_, rfl⟩, rfl, ⟨rfl, rfl, rfl⟩, rfl⟩
theorem witness_StepAnswersExactlyWhenChecksPass : p4c7.Inv ∧ p4c7.Executes := ⟨inv_of_check (by decide), by decide⟩
theorem witness_StepKeepsInvariant : p3c4.Inv ∧ ∃ t, step p3c4 = .next t := ⟨inv_of_check (by decide), _, rfl⟩
theorem witness_UnreachableStopsAreUnreachable : p4c7.Inv ∧ p4c7.status = .running := ⟨inv_of_check (by decide), rfl⟩
/-- The two states differ in the line of the instruction in ID. -/
theorem witness_SourceLinesAreInvisible :
    SameButLines p1c3 (p1c3.withPipe { p1c3.pipe with idr := { instr := { op := .add 10 8 9 0, line := some 3 } } }) ∧
    ∃ t, step p1c3 = .next t :=
  ⟨⟨rfl, rfl, rfl, ⟨rfl, rfl⟩, rfl, rfl, fun _ => rfl, ⟨rfl, rfl⟩, rfl, ⟨rfl, rfl, rfl, rfl⟩, ⟨rfl, rfl, rfl, rfl, rfl⟩, ⟨rfl, rfl⟩⟩, _, rfl⟩
theorem witness_FetchWordIsTheNextInstruction : decode 0x04A2090000000000000000 = .ok (.add 10 8 9 0) ∧
    decode 0x6BFFFF0000000000000000 = .error (.illegalTag 26) ∧ State.reset.Drained ∧ State.reset.status = .running ∧
    FetchOk State.reset.cfg (State.reset.pc + 4) := by decide

/-- A drained machine with one instruction at its program counter. -/
def drained (i : Instr) : State := placeAtPc State.reset (rec i)

theorem drained_alone (i : Instr) : (drained i).AloneAtPc := by
  intro a ha
  have hne : a ≠ 0x400000 := fun h => ha (by subst h; rfl)
  have h1 : instrAt (drained i) a = if a = 0x400000 then rec i else instrAt State.reset a :=
    instrAt_putInstr State.reset 0x400000 a (rec i)
  rw [h1, if_neg hne]
  rfl
theorem witness_DrainedPipelineRunsTheInstruction : (drained (.addi 8 0 5)).Inv ∧ (drained (.addi 8 0 5)).status = .running ∧
    (drained (.addi 8 0 5)).Drained ∧ (drained (.addi 8 0 5)).AloneAtPc ∧ (drained (.addi 8 0 5)).pc + 20 < 4294967296 ∧
    (∃ t, exec (.addi 8 0 5) (drained (.addi 8 0 5)) = .next t) ∧
    exec (.j 2) (drained (.j 2)) = .fault (.instrAddressInvalid 2) ∧ (drained (.j 2)).Inv :=
  ⟨inv_of_check (by decide), rfl, by decide, drained_alone _, by decide, ⟨_, rfl⟩, rfl, inv_of_check (by decide)⟩
/-- Words placed on the reset state: an `ADDI` that completes, a `J` to a valid target, and one to an invalid target. -/
theorem witness_DrainedPipelineRunsTheInstruction_fromReset :
    (decode 0x28803F0000000000000005 = .ok (.addi 8 0 5) ∧
      ∃ t, exec (.addi 8 0 5) (State.reset.withFetchWord 88 0x28803F0000000000000005) = .next t) ∧
    (decode 0x63FFFF0000000000400010 = .ok (.j 0x400010) ∧ FetchOk Config.p0 0x400010 ∧ (0x400010 : Int) + 16 < 4294967296 ∧
      ∃ t, exec (.j 0x400010) (State.reset.withFetchWord 88 0x63FFFF0000000000400010) = .next t) ∧
    (decode 0x63FFFF0000000000001000 = .ok (.j 0x1000) ∧ ¬ FetchOk Config.p0 0x1000 ∧
      exec (.j 0x1000) (State.reset.withFetchWord 88 0x63FFFF0000000000001000) = .fault (.instrAddressInvalid 0x1000)) :=
  ⟨⟨by decide, _, rfl⟩, ⟨by decide, by decide, by decide, _, rfl⟩, by decide, by decide, rfl⟩
/-- Five steps from reset run the placed word (70_reset_and_hazards.md R285). -/
theorem test_fiveStepsFromReset : regOf (runSteps 5 (State.reset.withFetchWord 88 0x28803F0000000000000005)) 8 = some 5 := by
  decide +kernel
/-- `BEQ $zero, $zero, 0x400010` at the program counter, and a `SYSCALL` at its target. -/
def branchThenSyscall : State :=
  let s := drained (.beq 0 0 0x400010)
  s.withImem (putInstr s.imem 0x400010 (rec (.syscall 0)))

/-- The sequential run of a halted machine stays where it is. -/
theorem seqRun_halted {s : State} (h : s.status = .halted) (n : Nat) : seqRun n s = .next s := by
  induction n with
  | zero => rfl
  | succ n ih => simp only [seqRun, seqStep, h, ih]

/-- A run with a taken branch: it halts, and every instruction of it is free of the hazards. -/
theorem witness_PipelineEqualsSequentialMachine : branchThenSyscall.Inv ∧ branchThenSyscall.status = .running ∧
    branchThenSyscall.Drained ∧ branchThenSyscall.cfg.haltBeforeFinalStep = true ∧ TakesBranch branchThenSyscall ∧
    (∃ t, seqRun 2 branchThenSyscall = .next t ∧ t.status = .halted) ∧
    ∀ k x, seqRun k branchThenSyscall = .next x → x.status = .running → HazardFreeAt x := by
  refine ⟨inv_of_check (by decide), rfl, by decide, rfl, rfl, ⟨_, rfl, rfl⟩, fun k x h hx => ?_⟩
  match k, h with
  | 0, h =>
    cases h
    exact ⟨by decide, fun _ => by decide, fun _ h => absurd h (by decide), fun _ => ⟨0, by decide⟩,
      fun _ h => absurd h (by decide), fun h => absurd h (by decide), by decide, fun h => absurd h (by decide)⟩
  | 1, h =>
    cases h
    exact ⟨by decide, fun _ => by decide, fun _ h => absurd h (by decide), fun _ => ⟨0, by decide⟩,
      fun _ h => absurd h (by decide), fun _ h => absurd h (by decide), by decide, fun _ h => absurd h (by decide)⟩
  | k + 2, h =>
    have hrun : ∃ t, t.status = .halted ∧ seqRun (k + 2) branchThenSyscall = seqRun k t := ⟨_, rfl, rfl⟩
    obtain ⟨t, ht, e⟩ := hrun
    rw [e, seqRun_halted ht] at h
    cases h
    rw [ht] at hx
    cases hx

end Sys2Proof.Tests
end

section
/-! Register reads and writes (spec/10_state.md R22 to R25): the faulting cases, and what a read returns after a write. -/

namespace Sys2Proof.Machine

/-- R24: a read of an index that is no register's faults. -/
theorem readReg_ge {s : State} {i : Nat} (hi : 32 ≤ i) : readReg s i = raise (.invalidRegisterNumber i) :=
  if_neg (Nat.not_lt.2 hi)

/-- R25: the index check comes first, whatever the value. -/
theorem writeReg_ge {s : State} {i : Nat} (v : Int) (hi : 32 ≤ i) :
    writeReg s i v = raise (.invalidRegisterNumber i) :=
  if_pos (Nat.not_lt.2 hi)

/-- R22, R25: the range check comes before the store, and so before register 0 discards the value. -/
theorem writeReg_outOfRange {s : State} {i : Nat} {v : Int} (hi : i < 32) (hv : ¬ InRange32 v) :
    writeReg s i v = raise (.registerValueRange v) := by
  rw [writeReg, if_neg (not_not.2 hi), if_pos hv]

/-- Only a read of the register that was set sees the value, and no read of register 0 does. -/
theorem readReg_setReg {i k : Nat} (s : State) (v : Int) (hk : k < 32) :
    readReg (setReg s i v) k = if k = i ∧ k ≠ 0 then .ok v else readReg s k := by
  have hstored : (k = i ∧ 0 < i ∧ i < 32) ↔ (k = i ∧ k ≠ 0) := by omega
  simp only [readReg_lt hk, reg_setReg, hstored, apply_ite Except.ok]

/-- Settles O11: the index check and the range check precede the store, and the store changes one register only. -/
theorem registerWriteThenRead : Obligations.RegisterWriteThenRead := by
  unfold Obligations.RegisterWriteThenRead
  intro s i v
  refine ⟨?readZero, fun hi => ⟨readReg_ge hi, writeReg_ge v hi⟩, writeReg_outOfRange, fun hi hv => ?stored⟩
  case readZero => exact readReg_eq_ok.2 ⟨by decide, reg_zero s⟩
  case stored =>
    exact ⟨setReg s i v, writeReg_ok hi hv, fun _ => readReg_setReg s v,
      setReg_pipe s i v, setReg_imem s i v, setReg_dmem s i v⟩

end Sys2Proof.Machine
end

section
/-! Instruction and data memory (spec/20_memory.md R51 to R55): the address checks, and what a read of
instruction memory answers. -/

namespace Sys2Proof.Machine

/-! ### Instruction memory -/

/-- R51: an address outside `[TEXT_BASE, 2^32)` is the range fault, aligned or not. -/
theorem checkInstrAddr_outOfRange {c : Config} {a : Int} (h : a < c.textBase ∨ 4294967296 ≤ a) :
    checkInstrAddr c a = raise (.instrAddressInvalid a) := if_pos h

/-- R51: the alignment fault is left to the addresses in range. -/
theorem checkInstrAddr_misaligned {c : Config} {a : Int} (hlo : (c.textBase : Int) ≤ a) (hhi : a < 4294967296)
    (hal : a % 4 ≠ 0) : checkInstrAddr c a = raise (.instrAddressMisaligned a) := by
  have hin : ¬ (a < c.textBase ∨ 4294967296 ≤ a) := by omega
  rw [checkInstrAddr, if_neg hin, if_pos hal]

/-- R51: reads and writes of instruction memory make the same check. -/
theorem imem_raise_of_checkInstrAddr {s : State} {a : Int} {f : Fault} (r : InstrRec)
    (h : checkInstrAddr s.cfg a = raise f) : imemRead s a = raise f ∧ imemWrite s a r = raise f := by
  constructor
  · rw [imemRead, h, raise_bind]
  · rw [imemWrite, h, raise_bind]

/-- R52: at a valid address the read answers, with the record standing there. -/
theorem imemRead_ok {s : State} {a : Int} (h : FetchOk s.cfg a) : imemRead s a = .ok (instrAt s a.toNat) := by
  rw [imemRead, checkInstrAddr_eq_ok.2 ⟨h, rfl⟩, ok_bind, pure_eq_ok]

/-- R51: two valid addresses with one slot number are the same address. -/
theorem slotNumber_inj {c : Config} {a b : Int} (ha : FetchOk c a) (hb : FetchOk c b) :
    (a - c.textBase) / 4 = (b - c.textBase) / 4 ↔ a = b := by
  omega

/-- Settles O12: each failing test of the address check is the fault of the read and of the write. -/
theorem instructionAddressCheck : Obligations.InstructionAddressCheck := by
  unfold Obligations.InstructionAddressCheck
  intro s a b r
  refine ⟨fun h => ?outOfRange, fun hlo hhi hal => ?misaligned, fun h => ?valid, slotNumber_inj⟩
  case outOfRange => exact imem_raise_of_checkInstrAddr r (checkInstrAddr_outOfRange h)
  case misaligned => exact imem_raise_of_checkInstrAddr r (checkInstrAddr_misaligned hlo hhi hal)
  case valid => exact ⟨⟨_, imemRead_ok h⟩, ⟨_, imemWrite_eq_ok.2 ⟨h, rfl⟩⟩⟩

/-- R52: a read after a write sees the record at the slot written, and what stood there before at every other. -/
theorem imemRead_imemWrite {s t : State} {a b : Int} {r : InstrRec} (hw : imemWrite s a r = .ok t)
    (hb : FetchOk s.cfg b) : imemRead t b = if b = a then .ok r else imemRead s b := by
  obtain ⟨ha, rfl⟩ := imemWrite_eq_ok.1 hw
  have hslot : b.toNat = a.toNat ↔ b = a := by omega
  rw [imemRead_ok (s := s.withImem (putInstr s.imem a.toNat r)) hb, imemRead_ok hb, instrAt_putInstr]
  simp only [hslot, apply_ite Except.ok]

/-- Settles O13: no slot is written at reset, and the read after a write is `imemRead_imemWrite`. -/
theorem instructionMemoryReadsWhatWasLinked : Obligations.InstructionMemoryReadsWhatWasLinked := by
  unfold Obligations.InstructionMemoryReadsWhatWasLinked
  refine ⟨fun c a h => ?atReset, fun s t a b r => imemRead_imemWrite⟩
  case atReset =>
    have hslot : instrAt (State.resetWith c) a.toNat = .bubble := rfl
    exact ⟨.bubble, by rw [imemRead_ok (s := State.resetWith c) h, hslot], rfl⟩

/-! ### Data memory -/

/-- R55: the lower bound is tested first. -/
theorem validate_below {c : Config} {a : Int} (n : Nat) (h : a < c.dataBase) :
    validate c a n = raise (.dataAddressInvalid a n) := if_pos h

/-- R55: the upper bound is strict, and tested before alignment. -/
theorem validate_above {c : Config} {a : Int} {n : Nat} (hlo : (c.dataBase : Int) ≤ a)
    (hhi : ¬ (a + n < c.stackEnd)) : validate c a n = raise (.dataAddressInvalid a n) := by
  rw [validate, if_neg (Int.not_lt.2 hlo), if_pos hhi]

/-- R55: the alignment fault is left to the addresses in range. -/
theorem validate_misaligned {c : Config} {a : Int} {n : Nat} (hlo : (c.dataBase : Int) ≤ a)
    (hhi : a + n < c.stackEnd) (hal : a % n ≠ 0) : validate c a n = raise (.dataAddressMisaligned a n) := by
  rw [validate, if_neg (Int.not_lt.2 hlo), if_neg (not_not.2 hhi), if_pos hal]

/-- R55: reads and writes of data memory make the same check, before any effect. -/
theorem mem_raise_of_validate {s : State} {a : Int} {n : Nat} {f : Fault} (signed : Bool) (v : Int)
    (h : validate s.cfg a n = raise f) : memRead s a n signed = raise f ∧ memWrite s a n v = raise f := by
  constructor
  · rw [memRead, h, raise_bind]
  · rw [memWrite, h, raise_bind]

/-- R62: only an unwritten byte stops a read, by the fault that names it. -/
theorem readByte_error {s : State} {a : Nat} {e : Stop} (h : readByte s a = .error e) :
    e = .fault (.uninitialisedRead a) := by
  unfold readByte at h
  split at h
  · cases h
  · split at h <;> cases h
    rfl

/-- R58, R62: a read of several bytes stops at an unwritten byte only. -/
theorem readBytes_error {s : State} {a n : Nat} {e : Stop} (h : readBytes s a n = .error e) :
    ∃ k : Nat, e = .fault (.uninitialisedRead k) := by
  induction n generalizing s a with
  | zero => cases h
  | succ n ih =>
    simp only [readBytes, bind_eq_error, pure_eq_ok, Prod.exists, reduceCtorEq, and_false, exists_false,
      or_false] at h
    obtain hfirst | ⟨_, _, _, hrest⟩ := h
    · exact ⟨a, readByte_error hfirst⟩
    · exact ih hrest

/-- R58: behind the address check a read stops at an unwritten byte only. -/
theorem memRead_error {s : State} {a : Int} {n : Nat} {signed : Bool} {e : Stop} (hok : DataOk s.cfg a n)
    (h : memRead s a n signed = .error e) : ∃ k : Nat, e = .fault (.uninitialisedRead k) := by
  simp only [memRead, validate_ok hok, ok_bind, bind_eq_error, pure_eq_ok, reduceCtorEq, and_false,
    exists_false, or_false] at h
  exact readBytes_error h

/-- R59: the store check has one fault. -/
theorem checkStoreValue_error {c : Config} {v : Int} {n : Nat} {e : Stop} (h : checkStoreValue c v n = .error e) :
    e = .fault (.storeValueAssertion v n) := by
  unfold checkStoreValue at h
  split at h
  · cases h
  · split at h <;> cases h
    rfl

/-- R59: behind the address check a write stops at a value that does not fit only. -/
theorem memWrite_error {s : State} {a : Int} {n : Nat} {v : Int} {e : Stop} (hok : DataOk s.cfg a n)
    (h : memWrite s a n v = .error e) : e = .fault (.storeValueAssertion v n) := by
  simp only [memWrite, validate_ok hok, ok_bind, bind_eq_error, pure_eq_ok, reduceCtorEq, and_false,
    exists_false, or_false] at h
  exact checkStoreValue_error h

/-- R55: behind the address check a read meets no address fault. -/
theorem memRead_ne_addressFault {s : State} {a : Int} {n : Nat} (signed : Bool) (hok : DataOk s.cfg a n)
    (b : Int) (m : Nat) :
    memRead s a n signed ≠ raise (.dataAddressInvalid b m) ∧ memRead s a n signed ≠ raise (.dataAddressMisaligned b m) := by
  constructor <;>
  · intro h
    obtain ⟨k, hk⟩ := memRead_error hok h
    cases hk

/-- R55: behind the address check a write meets no address fault. -/
theorem memWrite_ne_addressFault {s : State} {a : Int} {n : Nat} (v : Int) (hok : DataOk s.cfg a n)
    (b : Int) (m : Nat) :
    memWrite s a n v ≠ raise (.dataAddressInvalid b m) ∧ memWrite s a n v ≠ raise (.dataAddressMisaligned b m) := by
  constructor <;>
  · intro h
    cases memWrite_error hok h

/-- Settles O14: each failing test of `validate` is the fault of the read and of the write, and when all pass
neither has an address fault left. -/
theorem dataAddressCheck : Obligations.DataAddressCheck := by
  unfold Obligations.DataAddressCheck
  intro s a n signed v _
  refine ⟨fun h => ?below, fun hlo hhi => ?above, fun hlo hhi hal => ?misaligned, fun hok b m => ?valid⟩
  case below => exact mem_raise_of_validate signed v (validate_below n h)
  case above => exact mem_raise_of_validate signed v (validate_above hlo hhi)
  case misaligned => exact mem_raise_of_validate signed v (validate_misaligned hlo hhi hal)
  case valid =>
    obtain ⟨hrInvalid, hrMisaligned⟩ := memRead_ne_addressFault signed hok b m
    exact ⟨hrInvalid, hrMisaligned, memWrite_ne_addressFault v hok b m⟩

end Sys2Proof.Machine
end

section
/-! An executed step (spec/40_pipeline_engine.md R110 to R126): what it answers, each pipeline register after it, and
the faults of its fetch. -/

namespace Sys2Proof.Machine

/-! ### The run loop round a cycle -/

/-- What the run loop makes of the cycle's state `after`: it counts the step, and halts behind a `SYSCALL` in WB
(R125, R126). -/
def finishStep (before after : State) : State :=
  if isSyscall before.pipe.wbr.instr.op then (countStep before after).withStatus .halted else countStep before after

@[simp] theorem finishStep_reg (b a : State) : (finishStep b a).reg = a.reg := by
  unfold finishStep; split <;> rfl
@[simp] theorem finishStep_pipe (b a : State) : (finishStep b a).pipe = a.pipe := by
  unfold finishStep; split <;> rfl
@[simp] theorem finishStep_dmem (b a : State) : (finishStep b a).dmem = a.dmem := by
  unfold finishStep; split <;> rfl
@[simp] theorem finishStep_fresh (b a : State) : (finishStep b a).fresh = a.fresh := by
  unfold finishStep; split <;> rfl
@[simp] theorem finishStep_cycles (b a : State) : (finishStep b a).cycles = a.cycles + 1 := by
  unfold finishStep; split <;> rfl
theorem finishStep_retired (b a : State) :
    (finishStep b a).retired = if isNop b.pipe.wbr.instr.op then a.retired else a.retired + 1 := by
  unfold finishStep; split <;> rfl

/-- A step that executes is its cycle, counted. -/
theorem step_eq_next_of_executes {s t : State} (he : s.Executes) :
    step s = .next t ↔ ∃ s1, cycle s = .ok s1 ∧ t = finishStep s s1 := by
  obtain ⟨hrun, hhalt⟩ := he
  rw [step_eq_next, runTurn_eq_ok]
  constructor
  · rintro (⟨-, hsys, hbefore, -⟩ | ⟨-, -, hcycle⟩ | ⟨hhalted, -⟩)
    · exact absurd ⟨hsys, hbefore⟩ hhalt
    · exact hcycle
    · rw [hrun] at hhalted; cases hhalted
  · exact fun hcycle => .inr (.inl ⟨hrun, hhalt, hcycle⟩)

/-- A fault of the cycle is the fault of the step. -/
theorem step_eq_fault_of_cycle {s : State} {f : Fault} (he : s.Executes) (h : cycle s = raise f) :
    step s = .fault f := by
  obtain ⟨hrun, hhalt⟩ := he
  have hturn : turn s = raise f := by simp [turn, h, hhalt]
  rw [step, runTurn, hrun]
  exact toOutcome_eq_fault.2 hturn

/-! ### Phase 3: when a producer matches, and each record after the three actions -/

/-- R119: the model's test is `ReadsDest`. -/
theorem regMatches_iff {c : Config} {d k : Option Nat} : regMatches c d k = true ↔ ReadsDest c d k := by
  match d, k with
  | some d, some k => grind [regMatches, ReadsDest]
  | none, _ | some _, none => simp [regMatches, ReadsDest]

theorem exHit_iff {s : State} : exHit s.cfg s.pipe = true ↔ HitsEx s := by
  simp only [exHit, HitsEx, Bool.or_eq_true, regMatches_iff]

/-- R120: the stall test is the load-use condition. -/
theorem stalls_iff {s : State} : stalls s.cfg s.pipe = true ↔ LoadUse s := by
  simp only [stalls, LoadUse, Bool.and_eq_true, exHit_iff]

/-- R119: an instruction without a destination forwards nothing. -/
@[simp] theorem forwardInto_none (c : Config) (i : Instr) (v : Int) (e : EXRec) : forwardInto c none i v e = e := rfl

@[simp] theorem forwardInto_instr (c : Config) (d : Option Nat) (i : Instr) (v : Int) (e : EXRec) :
    (forwardInto c d i v e).instr = e.instr := rfl

theorem forwardInto_rsValue {c : Config} {d : Option Nat} {i : Instr} (v : Int) (e : EXRec)
    (h : ReadsDest c d (readsRs i)) : (forwardInto c d i v e).rsValue = some v := if_pos (regMatches_iff.2 h)

theorem forwardInto_rtValue {c : Config} {d : Option Nat} {i : Instr} (v : Int) (e : EXRec)
    (h : ReadsDest c d (readsRt i)) : (forwardInto c d i v e).rtValue = some v := if_pos (regMatches_iff.2 h)

section
variable (c : Config) (cur nxt : Pipeline)

theorem resolveHazards_ifr :
    (resolveHazards c cur nxt).ifr = if stalls c cur then cur.ifr else nxt.ifr := by
  unfold resolveHazards forwardEx forwardMem squash; split <;> split <;> rfl

theorem resolveHazards_idr :
    (resolveHazards c cur nxt).idr =
      if stalls c cur then cur.idr else if takenBranch cur.memr then .bubble else nxt.idr := by
  unfold resolveHazards forwardEx forwardMem squash; split <;> split <;> rfl

theorem resolveHazards_memr :
    (resolveHazards c cur nxt).memr = if takenBranch cur.memr then .bubble else nxt.memr := by
  unfold resolveHazards forwardEx forwardMem squash; split <;> split <;> rfl

theorem resolveHazards_wbr : (resolveHazards c cur nxt).wbr = nxt.wbr := by
  unfold resolveHazards forwardEx forwardMem squash; split <;> split <;> rfl

/-- R121: the EX-stage producer forwards last, so it wins over the MEM-stage producer. -/
theorem resolveHazards_exr :
    (resolveHazards c cur nxt).exr =
      if stalls c cur then .bubble
      else forwardInto c (dest cur.exr.instr.op) cur.idr.instr.op (resolveHazards c cur nxt).memr.aluResult
        (forwardInto c (dest cur.memr.instr.op) cur.idr.instr.op nxt.wbr.result
          (if takenBranch cur.memr then .bubble else nxt.exr)) := by
  unfold resolveHazards forwardEx forwardMem squash; split <;> split <;> rfl

end

/-! ### The records of phase 2 -/

/-- R112: the priority of the next program counter. -/
theorem nextPc_eq (p : Pipeline) :
    nextPc p = if isJump p.idr.instr.op then p.idr.instr.op.imm
      else if takenBranch p.memr then p.memr.branchTarget else p.ifr.pc + 4 := by
  unfold nextPc; cases p.idr.instr.op <;> rfl

/-- R117: which branches are taken. -/
theorem takenBranch_iff {m : MEMRec} :
    takenBranch m = true ↔
      (∃ rs rt im, m.instr.op = .beq rs rt im ∧ m.zero = true) ∨
      (∃ rs rt im, m.instr.op = .bne rs rt im ∧ m.zero = false) := by
  unfold takenBranch branchTaken beqCondition bneCondition
  cases m.instr.op <;> simp

/-- The five records of phase 2 in a step from `s` to `t` whose ALU result is `r` and whose WB result is `v`; the
operands are the registers of `t`, since the commit comes first (R111 to R116). -/
def computedRecords (s t : State) (r v : Int) : Pipeline where
  ifr := fetched s (nextPc s.pipe)
  idr := nextID s.pipe
  exr := exRecordOf t s.pipe.idr.instr
  memr := { instr := s.pipe.exr.instr, aluResult := r, rtValue := s.pipe.exr.rtValue, zero := zeroFlag r,
            branchTarget := if isBranch s.pipe.exr.instr.op then s.pipe.exr.imm else 0 }
  wbr := { instr := s.pipe.memr.instr, result := v }

section
variable {s t : State} (he : s.Executes) (h : step s = .next t)
include he h

/-- What an executed step can do: its checks pass, the registers are those the commit left, and phase 3 works on
the computed records. -/
theorem step_inversion : ∃ committed accessed r v, commit s = .ok committed ∧ FetchOk s.cfg (nextPc s.pipe) ∧
    alu s.cfg s.pipe.exr = .ok r ∧ access committed s.pipe.memr = .ok (v, accessed) ∧ t.reg = committed.reg ∧
    t.dmem = accessed.dmem ∧ t.fresh = accessed.fresh ∧
    t.pipe = resolveHazards s.cfg s.pipe (computedRecords s t r v) := by
  obtain ⟨s1, hcycle, ht⟩ := (step_eq_next_of_executes he).1 h
  obtain ⟨committed, ex, mem, wb, accessed, hcommit, hfetch, hex, hmem, hwb, hs1⟩ := cycle_eq_ok.1 hcycle
  obtain ⟨hpipe, -⟩ := commit_frame hcommit
  obtain ⟨-, -, rfl⟩ := nextEX_eq_ok.1 hex
  obtain ⟨r, halu, rfl⟩ := nextMEM_eq_ok.1 hmem
  obtain ⟨v, haccess, rfl⟩ := nextWB_eq_ok.1 hwb
  rw [hpipe] at haccess
  have hreg : t.reg = committed.reg := by
    obtain ⟨d, n, rfl, -⟩ := access_frame haccess
    rw [ht, finishStep_reg, hs1]; rfl
  refine ⟨committed, accessed, r, v, hcommit, hfetch, halu, haccess, hreg, by simp [ht, hs1], by simp [ht, hs1], ?_⟩
  rw [computedRecords, exRecordOf, hreg, ht, hs1, finishStep_pipe, State.withPipe_pipe, hpipe]

/-- The pipeline registers after the step: phase 3 on the computed records, the ALU having answered. -/
theorem step_pipe : ∃ r v, alu s.cfg s.pipe.exr = .ok r ∧
    t.pipe = resolveHazards s.cfg s.pipe (computedRecords s t r v) := by
  obtain ⟨-, -, r, v, -, -, halu, -, -, -, -, hpipe⟩ := step_inversion he h
  exact ⟨r, v, halu, hpipe⟩

/-- R111: the registers after the step are those of the commit. -/
theorem step_reg (k : Nat) : t.reg k = match dest s.pipe.wbr.instr.op with
    | some rd => if k = rd ∧ k ≠ 0 then s.pipe.wbr.result else s.reg k
    | none => s.reg k := by
  obtain ⟨committed, -, -, -, hcommit, -, -, -, hreg, -⟩ := step_inversion he h
  rw [hreg]
  obtain ⟨hdest, rfl⟩ | ⟨rd, hdest, hrd, -, rfl⟩ := commit_eq_ok hcommit
  · rw [hdest]
  · have hstored : (k = rd ∧ 0 < rd ∧ rd < 32) ↔ (k = rd ∧ k ≠ 0) := by omega
    simp only [hdest, reg_setReg, hstored]

/-- R112: the check of the next program counter has passed. -/
theorem step_nextPc_valid : FetchOk s.cfg (nextPc s.pipe) := by
  obtain ⟨-, -, -, -, -, hfetch, -⟩ := step_inversion he h
  exact hfetch

/-- R112, R120: next IF is the fetch, unless a stall keeps the current one. -/
theorem step_ifr : t.pipe.ifr = if stalls s.cfg s.pipe then s.pipe.ifr else fetched s (nextPc s.pipe) := by
  obtain ⟨r, v, -, hpipe⟩ := step_pipe he h
  rw [hpipe, resolveHazards_ifr]; rfl

/-- R113, R118, R120: next ID, a stall over a squash. -/
theorem step_idr : t.pipe.idr =
    if stalls s.cfg s.pipe then s.pipe.idr else if takenBranch s.pipe.memr then .bubble else nextID s.pipe := by
  obtain ⟨r, v, -, hpipe⟩ := step_pipe he h
  rw [hpipe, resolveHazards_idr]; rfl

/-- R114, R118 to R120: next EX, with the results that stand in MEM and WB after the step forwarded into it. -/
theorem step_exr : t.pipe.exr =
    if stalls s.cfg s.pipe then .bubble
    else forwardInto s.cfg (dest s.pipe.exr.instr.op) s.pipe.idr.instr.op t.pipe.memr.aluResult
      (forwardInto s.cfg (dest s.pipe.memr.instr.op) s.pipe.idr.instr.op t.pipe.wbr.result
        (if takenBranch s.pipe.memr then .bubble else exRecordOf t s.pipe.idr.instr)) := by
  obtain ⟨r, v, -, hpipe⟩ := step_pipe he h
  rw [hpipe, resolveHazards_exr, resolveHazards_wbr]; rfl

/-- R115, R118: next MEM holds the instruction of EX with the ALU's result, unless a taken branch squashes it. -/
theorem step_memr : ∃ r, alu s.cfg s.pipe.exr = .ok r ∧ t.pipe.memr =
    if takenBranch s.pipe.memr then .bubble
    else { instr := s.pipe.exr.instr, aluResult := r, rtValue := s.pipe.exr.rtValue, zero := zeroFlag r,
           branchTarget := if isBranch s.pipe.exr.instr.op then s.pipe.exr.imm else 0 } := by
  obtain ⟨r, v, halu, hpipe⟩ := step_pipe he h
  exact ⟨r, halu, by rw [hpipe, resolveHazards_memr]; rfl⟩

/-- R116: the instruction of MEM moves to WB whatever phase 3 does. -/
theorem step_wbr_instr : t.pipe.wbr.instr = s.pipe.memr.instr := by
  obtain ⟨r, v, -, hpipe⟩ := step_pipe he h
  rw [hpipe, resolveHazards_wbr]; rfl

/-- R126: one cycle more, and one retired instruction more unless WB held a no-op. -/
theorem step_counters : t.cycles = s.cycles + 1 ∧
    t.retired = s.retired + (if isNop s.pipe.wbr.instr.op then 0 else 1) := by
  obtain ⟨s1, hcycle, rfl⟩ := (step_eq_next_of_executes he).1 h
  obtain ⟨-, -, hcycles, hretired, -⟩ := cycle_frame hcycle
  constructor
  · rw [finishStep_cycles, hcycles]
  · rw [finishStep_retired, hretired]; split <;> rfl

end

/-! ### Faults of the fetch -/

/-- R51: an address that is no fetch address is refused by a fault. -/
theorem checkInstrAddr_raises {c : Config} {a : Int} (h : ¬ FetchOk c a) : ∃ f, checkInstrAddr c a = raise f := by
  by_cases hrange : a < c.textBase ∨ 4294967296 ≤ a
  · exact ⟨_, checkInstrAddr_outOfRange hrange⟩
  · exact ⟨_, checkInstrAddr_misaligned (by omega) (by omega) (by omega)⟩

/-- R112: under the invariant nothing stops the step before its fetch, so the fault of the next program counter is
the step's. -/
theorem step_eq_fault_of_nextPc {s : State} {f : Fault} (hinv : s.Inv) (he : s.Executes)
    (h : checkInstrAddr s.cfg (nextPc s.pipe) = raise f) : step s = .fault f := by
  obtain ⟨committed, hcommit⟩ := commit_ok hinv.wbWellFormed hinv.wbResult
  refine step_eq_fault_of_cycle he ?_
  simp only [cycle, hcommit, nextIF, fetch, imemRead, h, ok_bind, raise_bind]

/-! ### The statements -/

/-- Settles O39: the second part is `step_exr` with no producer and no squash. -/
theorem commitPhase : Obligations.CommitPhase := by
  unfold Obligations.CommitPhase
  intro s t he h
  refine ⟨step_reg he h, fun htaken hmem hex => ?_⟩
  have hstall : stalls s.cfg s.pipe = false := by simp [stalls, exHit, hex, regMatches]
  have hexr : t.pipe.exr = exRecordOf t s.pipe.idr.instr := by
    simpa [hstall, htaken, hmem, hex] using step_exr he h
  rw [hexr]
  exact ⟨rfl, rfl⟩

/-- Settles O40: the statement's address is `nextPc`, and its check is the fetch's. -/
theorem nextFetch : Obligations.NextFetch := by
  unfold Obligations.NextFetch
  intro s he npc
  have hnpc : nextPc s.pipe = npc := nextPc_eq s.pipe
  clear_value npc
  subst hnpc
  refine ⟨fun t h => ?answers, fun hinv hbad => ?faults, fun hinv _ _ => ?whichFault⟩
  case answers =>
    exact ⟨step_nextPc_valid he h, fun hload => by rw [step_ifr he h, if_neg (mt stalls_iff.1 hload)]⟩
  case faults =>
    obtain ⟨f, hf⟩ := checkInstrAddr_raises hbad
    exact ⟨f, step_eq_fault_of_nextPc hinv he hf⟩
  case whichFault =>
    exact ⟨fun hrange => step_eq_fault_of_nextPc hinv he (checkInstrAddr_outOfRange hrange),
      fun hlo hhi hal => step_eq_fault_of_nextPc hinv he (checkInstrAddr_misaligned hlo hhi hal)⟩

/-- Settles O41: without a stall and a squash next ID is the one phase 2 computed. -/
theorem jumpSquashesItsSuccessor : Obligations.JumpSquashesItsSuccessor := by
  unfold Obligations.JumpSquashesItsSuccessor
  intro s t he h htaken hload
  rw [step_idr he h, if_neg (mt stalls_iff.1 hload), htaken]
  rfl

/-- Settles O45: each record is read off its step lemma; a squashed EX keeps the no-op whatever is forwarded into it. -/
theorem takenBranchSquashesThree : Obligations.TakenBranchSquashesThree := by
  unfold Obligations.TakenBranchSquashesThree
  intro s t he h
  refine ⟨takenBranch_iff, fun htaken => ⟨?mem, ?ex, step_wbr_instr he h, fun hload => ⟨?id, ?fetch⟩⟩⟩
  case mem =>
    obtain ⟨r, -, hmemr⟩ := step_memr he h
    rw [hmemr, if_pos htaken]
  case ex =>
    rw [step_exr he h, if_pos htaken]
    split
    · rfl
    · rw [forwardInto_instr, forwardInto_instr]; rfl
  case id => rw [step_idr he h, if_neg (mt stalls_iff.1 hload), if_pos htaken]
  case fetch => rw [step_ifr he h, if_neg (mt stalls_iff.1 hload), nextPc_eq, if_pos htaken]

/-- Settles O46: behind a load the step stalls, behind another producer `forwardInto` is the last word on each operand. -/
theorem loadUseStallOrForward : Obligations.LoadUseStallOrForward := by
  unfold Obligations.LoadUseStallOrForward
  intro s t he h htaken hhit
  refine ⟨fun hload => ?stall, fun hload => ?forward⟩
  case stall =>
    have hstall : stalls s.cfg s.pipe = true := stalls_iff.2 ⟨hhit, hload⟩
    obtain ⟨r, -, hmemr⟩ := step_memr he h
    refine ⟨?_, ?_, ?_, ?_, step_wbr_instr he h⟩
    · rw [step_ifr he h, if_pos hstall]
    · rw [step_idr he h, if_pos hstall]
    · rw [step_exr he h, if_pos hstall]
    · rw [hmemr, htaken]; rfl
  case forward =>
    have hstall : stalls s.cfg s.pipe = false := by simp [stalls, hload]
    have hexr := step_exr he h
    simp only [hstall, htaken, Bool.false_eq_true, if_false] at hexr
    rw [hexr]
    exact ⟨forwardInto_rsValue _ _, forwardInto_rtValue _ _, rfl⟩

/-- R126: where something retired, `CPI` times the retired count is the cycle count. -/
theorem cpi_mul_retired {s : State} (h : s.retired ≠ 0) : ∃ q : ℚ, cpi s = some q ∧ q * s.retired = s.cycles :=
  ⟨_, if_neg h, div_mul_cancel₀ _ (Nat.cast_ne_zero.2 h)⟩

/-- R271: entry `k` of a snapshot's registers is register `k` as it reads. -/
theorem snapshot_regs_getElem? (s : State) {k : Nat} (hk : k < 32) : (snapshot s).regs[k]? = some (s.reg k) := by
  simp [snapshot, hk]

/-- R271: a snapshot shows the pipeline registers and the register reads, and nothing else. -/
theorem snapshot_congr {s t : State} (hpipe : s.pipe = t.pipe) (hreg : ∀ k, s.reg k = t.reg k) :
    snapshot s = snapshot t := by
  rw [snapshot, snapshot, hpipe, funext hreg]

/-- Settles O52: the counters of a step, then `CPI`, the report and the snapshot. -/
theorem counters : Obligations.Counters := by
  unfold Obligations.Counters
  exact ⟨fun s t => step_counters, fun s h => if_pos h, fun s => cpi_mul_retired, fun s => rfl,
    fun s => ⟨rfl, by simp [snapshot], fun k => snapshot_regs_getElem? s⟩, fun s t => snapshot_congr⟩

end Sys2Proof.Machine
end

section
/-! Instructions that compute a result and write it to a register (spec/41_alu_register.md, template): the stages and
the sequential effect of the shared operations, then the rule of format R, then `ADD` and `SUB`. -/

namespace Sys2Proof.Machine

/-! ### The sequential effect -/

@[simp] theorem setReg_pc (s : State) (i : Nat) (v : Int) : (setReg s i v).pc = s.pc := by simp [State.pc]

theorem goTo_ok {s : State} {a : Int} (h : FetchOk s.cfg a) : goTo s a = .ok (s.withIF (fetched s a)) := by
  rw [goTo, fetch_ok h, ok_bind, pure_eq_ok]

/-- R25, R92: with a legal result and a legal next address, the commit writes the one register and the next
instruction is fetched; nothing else changes. -/
theorem commitAndAdvance_ok {s : State} {rd : Nat} {v : Int} (hrd : rd < 32) (hv : InRange32 v)
    (hpc : FetchOk s.cfg (s.pc + 4)) :
    ∃ t, commitAndAdvance s rd v = .ok t ∧ Retires s t (some (rd, v)) (s.pc + 4) ∧ SameMemory s t := by
  have hfetch : FetchOk (setReg s rd v).cfg ((setReg s rd v).pc + 4) := by simpa using hpc
  refine ⟨_, by rw [commitAndAdvance, writeReg_ok hrd hv, ok_bind, advance, goTo_ok hfetch], ?retires, ?memory⟩
  case retires =>
    refine { regs := fun k => ?_, goesTo := ?_, behindIF := by simp, imem := by simp, status := by simp,
             counters := by simp, cfg := by simp }
    · have hstored : (k = rd ∧ 0 < rd ∧ rd < 32) ↔ (k = rd ∧ k ≠ 0) := by omega
      simp only [reg_withIF, reg_setReg, hstored]
    · simp [fetched_congr (setReg_imem s rd v)]
  case memory => exact ⟨fun a => by simp [dataByte], by simp⟩

/-- Format R: with legal slots the operands are read, and the ALU's answer is committed. -/
theorem seqRdRsRt_eq (f : Int → Int → Res Int) (rd : Nat) {rs rt : Nat} (s : State) (hrs : rs < 32) (hrt : rt < 32) :
    seqRdRsRt f rd rs rt s = f (s.reg rs) (s.reg rt) >>= commitAndAdvance s rd := by
  rw [seqRdRsRt, readReg_lt hrs, ok_bind, readReg_lt hrt, ok_bind]

/-! ### The stages -/

/-- R115, R160: the MEM record of an instruction that is no branch, or the overflow of its result. -/
theorem nextMEM_of_checkAlu {c : Config} {e : EXRec} {r : Int} (halu : alu c e = checkAlu r)
    (hbranch : isBranch e.instr.op = false) :
    nextMEM c e = if InRange32 r then .ok ⟨e.instr, r, e.rtValue, decide (r = 0), 0⟩
      else raise (.arithmeticOverflow r) := by
  by_cases hr : InRange32 r
  · rw [if_pos hr]
    exact nextMEM_eq_ok.2 ⟨r, halu.trans (checkAlu_ok hr), by simp [zeroFlag, hbranch]⟩
  · rw [if_neg hr, nextMEM, halu, checkAlu_raise hr, raise_bind]

/-- R116: an instruction that makes no access passes its ALU result on. -/
theorem access_of_noAccess (s : State) {m : MEMRec} (hload : isLoad m.instr.op = false)
    (hstore : isStore m.instr.op = false) : access s m = .ok (m.aluResult, s) := by
  unfold access
  split <;> simp_all [isLoad, isStore]

/-- R111: the commit of an instruction with a destination is the register write. -/
theorem commit_of_dest {s : State} {rd : Nat} (h : dest s.pipe.wbr.instr.op = some rd) :
    commit s = writeReg s rd s.pipe.wbr.result := by
  rw [commit, h]

/-! ### Format R -/

/-- Where the model's functions place the format R instructions `mk` with ALU function `f`: no access and no branch,
`rd` the destination, and one checked result in the EX stage and in the sequential meaning. -/
structure WiredAsFormatR (mk : Nat → Nat → Nat → Int → Instr) (f : Config → Int → Int → Int) : Prop where
  noLoad : ∀ rd rs rt imm, isLoad (mk rd rs rt imm) = false
  noStore : ∀ rd rs rt imm, isStore (mk rd rs rt imm) = false
  noBranch : ∀ rd rs rt imm, isBranch (mk rd rs rt imm) = false
  writesRd : ∀ rd rs rt imm, dest (mk rd rs rt imm) = some rd
  inEX : ∀ rd rs rt imm c line a b im,
    alu c ⟨⟨mk rd rs rt imm, line⟩, some a, some b, im⟩ = checkAlu (f c a b)
  sequential : ∀ rd rs rt imm s,
    exec (mk rd rs rt imm) s = (seqRdRsRt (fun a b => checkAlu (f s.cfg a b)) rd rs rt s).toOutcome

namespace WiredAsFormatR

variable {mk : Nat → Nat → Nat → Int → Instr} {f : Config → Int → Int → Int}

/-- The sequential meaning is the result check on the registers named, then the commit. -/
theorem exec_eq (h : WiredAsFormatR mk f) (rd : Nat) {rs rt : Nat} (imm : Int) (s : State) (hrs : rs < 32)
    (hrt : rt < 32) : exec (mk rd rs rt imm) s =
      (checkAlu (f s.cfg (s.reg rs) (s.reg rt)) >>= commitAndAdvance s rd).toOutcome := by
  rw [h.sequential, seqRdRsRt_eq _ rd s hrs hrt]

/-- The template of format R holds of every instruction wired so. -/
theorem regRegRule (h : WiredAsFormatR mk f) : RegRegRule mk f := by
  intro rd rs rt imm hrd hrs hrt
  refine ⟨fun c line a b im => ?inEX, fun s hop => ?inMEM, fun s hop => ?inWB, ?hazard, fun s hr hpc => ?completes,
    fun s hr => ?overflows⟩
  case inEX => exact nextMEM_of_checkAlu (h.inEX ..) (h.noBranch ..)
  case inMEM =>
    have haccess := access_of_noAccess s (m := s.pipe.memr) (by rw [hop, h.noLoad]) (by rw [hop, h.noStore])
    exact nextWB_eq_ok.2 ⟨_, haccess, rfl⟩
  case inWB => exact commit_of_dest (by rw [hop, h.writesRd])
  case hazard => exact ⟨rd, h.writesRd .., rfl, by simp⟩
  case completes =>
    obtain ⟨t, ht, hretires, hmemory⟩ := commitAndAdvance_ok hrd hr hpc
    refine ⟨t, ?_, hretires, hmemory⟩
    rw [h.exec_eq rd imm s hrs hrt, checkAlu_ok hr, ok_bind, ht, toOutcome_ok]
  case overflows => rw [h.exec_eq rd imm s hrs hrt, checkAlu_raise hr, raise_bind, toOutcome_raise]

end WiredAsFormatR

/-- R161. -/
theorem add_wired : WiredAsFormatR .add (fun _ a b => a + b) where
  noLoad _ _ _ _ := rfl
  noStore _ _ _ _ := rfl
  noBranch _ _ _ _ := rfl
  writesRd _ _ _ _ := rfl
  inEX _ _ _ _ _ _ _ _ _ := rfl
  sequential _ _ _ _ _ := rfl

/-- R162. -/
theorem sub_wired : WiredAsFormatR .sub (fun _ a b => a - b) where
  noLoad _ _ _ _ := rfl
  noStore _ _ _ _ := rfl
  noBranch _ _ _ _ := rfl
  writesRd _ _ _ _ := rfl
  inEX _ _ _ _ _ _ _ _ _ := rfl
  sequential _ _ _ _ _ := rfl

/-- Settles O21: both are wired as format R, with the exact sum and the exact difference. -/
theorem addAndSub : Obligations.AddAndSub := by
  unfold Obligations.AddAndSub
  exact ⟨add_wired.regRegRule, sub_wired.regRegRule⟩

end Sys2Proof.Machine
end

section
/-! `LUI` (spec/42_alu_immediate_shift.md R183): a checked result made of the immediate alone. -/

namespace Sys2Proof.Machine

/-! ### A checked result, whatever its operands -/

/-- R25, R160: a result in range is committed, and the instruction retires with it. -/
theorem checkedCommit_retires {s : State} {rd : Nat} {r : Int} (hrd : rd < 32) (hr : InRange32 r)
    (hpc : FetchOk s.cfg (s.pc + 4)) :
    ∃ t, (checkAlu r >>= commitAndAdvance s rd).toOutcome = .next t ∧ Retires s t (some (rd, r)) (s.pc + 4) ∧
      SameMemory s t := by
  obtain ⟨t, ht, hretires, hmemory⟩ := commitAndAdvance_ok hrd hr hpc
  exact ⟨t, by rw [checkAlu_ok hr, ok_bind, ht, toOutcome_ok], hretires, hmemory⟩

/-- R160: a result out of range is the overflow, and nothing is committed. -/
theorem checkedCommit_overflows (s : State) (rd : Nat) {r : Int} (hr : ¬ InRange32 r) :
    (checkAlu r >>= commitAndAdvance s rd).toOutcome = .fault (.arithmeticOverflow r) := by
  rw [checkAlu_raise hr, raise_bind, toOutcome_raise]

/-- R116: an instruction that makes no access reaches WB with its ALU result, and the state stays. -/
theorem nextWB_of_noAccess {s : State} (hload : isLoad s.pipe.memr.instr.op = false)
    (hstore : isStore s.pipe.memr.instr.op = false) :
    nextWB s = .ok (⟨s.pipe.memr.instr, s.pipe.memr.aluResult⟩, s) :=
  nextWB_eq_ok.2 ⟨_, access_of_noAccess s hload hstore, rfl⟩

/-! ### `LUI` -/

/-- R183: the immediates whose shifted value passes the result check. -/
theorem inRange32_luiResult_iff {imm : Int} : InRange32 (imm * 2 ^ 16) ↔ ¬ (imm < -32768 ∨ 65535 < imm) := by
  unfold InRange32; omega

/-- R183: the sequential `LUI` is the result check, then the commit. -/
theorem exec_lui (rd : Nat) (imm : Int) (s : State) :
    exec (.lui rd imm) s = (checkAlu (imm * 2 ^ 16) >>= commitAndAdvance s rd).toOutcome := rfl

/-- Settles O26: the range of the immediate is the range of the result check, and the stages are the shared ones. -/
theorem loadUpperImmediate : Obligations.LoadUpperImmediate := by
  unfold Obligations.LoadUpperImmediate
  intro rd imm hrd
  refine ⟨rfl, rfl, Int.mul_emod_left imm _, fun c line rsv rtv => ?inEX, fun s hop => ?inMEM,
    fun s hop => ?inWB, fun s hlo hhi hpc => ?completes, fun s hout => ?overflows⟩
  case inEX =>
    rw [nextMEM_of_checkAlu (r := imm * 2 ^ 16) rfl rfl]
    simp only [inRange32_luiResult_iff, ite_not]
  case inMEM => exact nextWB_of_noAccess (by rw [hop]; rfl) (by rw [hop]; rfl)
  case inWB => exact commit_of_dest (by rw [hop]; rfl)
  case completes =>
    rw [exec_lui]
    exact checkedCommit_retires hrd (inRange32_luiResult_iff.2 (by omega)) hpc
  case overflows =>
    rw [exec_lui]
    exact checkedCommit_overflows s rd (mt inRange32_luiResult_iff.1 (not_not.2 hout))

end Sys2Proof.Machine
end

section
/-! The datum of a load and the bytes of a store (spec/20_memory.md R57 to R59): what the model reads and writes
byte by byte is the datum and the bytes the byte order makes of it. -/

namespace Sys2Proof.Machine

/-! ### Reading -/

/-- R57: a value given least significant byte first is the sum of its bytes by weight. -/
theorem valueLsbFirst_map_range (n : Nat) (b : Nat → Byte) :
    (valueLsbFirst ((List.range n).map b) : Int) = ∑ k ∈ Finset.range n, ((b k).toNat : Int) * 256 ^ k := by
  induction n generalizing b with
  | zero => rfl
  | succ n ih =>
    have hrest := ih (fun k => b (k + 1))
    rw [List.range_succ_eq_map, List.map_cons, List.map_map, valueLsbFirst, Finset.sum_range_succ']
    push_cast
    rw [Function.comp_def, hrest, Finset.mul_sum, add_comm, mul_one]
    exact congrArg (· + _) (Finset.sum_congr rfl fun k _ => by ring)

/-- Bytes listed backwards are the bytes at the reflected offsets. -/
theorem reverse_map_range (n : Nat) (b : Nat → Byte) :
    ((List.range n).map b).reverse = (List.range n).map fun k => b (n - 1 - k) := by
  refine List.ext_getElem (by simp) fun k h _ => ?_
  simp

/-- R57: the bytes at rising addresses make the datum, in either byte order. -/
theorem joinBytes_map_range (o : ByteOrder) (n : Nat) (b : Nat → Byte) :
    (joinBytes o ((List.range n).map b) : Int) = datumOf o n b := by
  cases o with
  | little => exact valueLsbFirst_map_range n b
  | big =>
    rw [joinBytes, reverse_map_range, valueLsbFirst_map_range, datumOf, ← Finset.sum_range_reflect]
    refine Finset.sum_congr rfl fun k hk => ?_
    have hreflect : n - 1 - (n - 1 - k) = k := by have := Finset.mem_range.1 hk; omega
    simp only [hreflect]

/-- R58: the extension of the joined bytes is the value a load delivers. -/
theorem extended_joinBytes (o : ByteOrder) (n : Nat) (signed : Bool) (b : Nat → Byte) :
    (if signed then sext (8 * n) (joinBytes o ((List.range n).map b))
      else (joinBytes o ((List.range n).map b) : Int)) = loadedValue o n signed b := by
  rw [joinBytes_map_range]
  cases signed with
  | false => simp [loadedValue]
  | true =>
    simp only [loadedValue, sext, if_true, true_and, ← not_lt, ite_not]
    push_cast
    rfl

/-- R58: a read of written bytes at a valid address delivers their datum, and changes nothing. -/
theorem memRead_written {s : State} {a : Int} {n : Nat} (signed : Bool) {b : Nat → Byte} (ha : DataOk s.cfg a n)
    (hb : ∀ k, k < n → dataByte s (a.toNat + k) = some (b k)) :
    memRead s a n signed = .ok (loadedValue s.cfg.byteOrder n signed b, s) := by
  have hread : readBytes s a.toNat n = .ok ((List.range n).map b, s) := by
    simpa using readBytes_written ((List.range n).map b) (a := a.toNat) (s := s) (by simpa using hb)
  exact memRead_eq_ok.2 ⟨ha, _, hread, extended_joinBytes ..⟩

/-! ### Writing -/

/-- The low byte of a multiple of 256 is 0. -/
theorem byte_of_multiple (q : Int) : BitVec.ofInt 8 (256 * q) = 0 := by
  have hbase : BitVec.ofInt 8 256 = 0 := rfl
  rw [BitVec.ofInt_mul, hbase, zero_mul]

/-- R59: byte `k` of `v` reduced to its low `n` bytes is byte `k` of `v`. -/
theorem ofNat_byte_of_reduced {n k : Nat} (v : Int) (hk : k < n) :
    BitVec.ofNat 8 ((v % ((2 ^ (8 * n) : Nat) : Int)).toNat / 256 ^ k) = BitVec.ofInt 8 (v / 256 ^ k) := by
  obtain ⟨d, rfl⟩ : ∃ d, n = k + 1 + d := ⟨n - (k + 1), by omega⟩
  generalize hM : ((2 ^ (8 * (k + 1 + d)) : Nat) : Int) = M
  have hfactor : M = 256 ^ k * (256 * 256 ^ d) := by rw [← hM, pow_mul]; push_cast; ring
  have hlow : 0 ≤ v % M := Int.emod_nonneg v (by rw [hfactor]; positivity)
  have hsplit : v = v % M + 256 ^ k * (256 * (256 ^ d * (v / M))) := by
    rw [← mul_assoc 256, ← mul_assoc (256 ^ k), ← hfactor, Int.emod_add_mul_ediv]
  calc BitVec.ofNat 8 ((v % M).toNat / 256 ^ k)
      = BitVec.ofInt 8 (v % M / 256 ^ k) := by
        rw [← BitVec.ofInt_natCast]; push_cast; rw [Int.toNat_of_nonneg hlow]
    _ = BitVec.ofInt 8 (v % M / 256 ^ k + 256 * (256 ^ d * (v / M))) := by
        rw [BitVec.ofInt_add, byte_of_multiple, add_zero]
    _ = BitVec.ofInt 8 (v / 256 ^ k) := by
        rw [← Int.add_mul_ediv_left _ _ (by positivity), ← hsplit]

/-- R59: the bytes of `v` reduced to its low `n` bytes, least significant first. -/
theorem bytesLsbFirst_reduced_getElem? {n k : Nat} (v : Int) (hk : k < n) :
    (bytesLsbFirst n (v % ((2 ^ (8 * n) : Nat) : Int)).toNat)[k]? = some (BitVec.ofInt 8 (v / 256 ^ k)) := by
  rw [List.getElem?_eq_getElem (by simpa using hk), bytesLsbFirst_getElem, ofNat_byte_of_reduced v hk]

/-- R59: the byte a store puts at offset `k` is the datum's; `big` lists the bytes backwards. -/
theorem storedBytes_getElem? (c : Config) {n k : Nat} (v : Int) (hk : k < n) :
    (storedBytes c n v)[k]? = some (datumByte c.byteOrder n v k) := by
  unfold storedBytes
  cases c.byteOrder with
  | little => exact bytesLsbFirst_reduced_getElem? v hk
  | big =>
    rw [splitBytes, List.getElem?_reverse (by simpa using hk), bytesLsbFirst_length,
      bytesLsbFirst_reduced_getElem? v (by omega), datumByte]

/-- R59: a write whose address and value pass their checks leaves the bytes of the value, and changes data memory
alone. -/
theorem memWrite_storedAt {s : State} {a : Int} {n : Nat} {v : Int} (ha : DataOk s.cfg a n)
    (hv : s.cfg.narrowStoreCheck = .truncate ∨ (-2 ^ (8 * n - 1) ≤ v ∧ v < 2 ^ (8 * n))) :
    ∃ m, memWrite s a n v = .ok (s.withDmem m) ∧ StoredAt s (s.withDmem m) a n v := by
  refine ⟨_, memWrite_eq_ok.2 ⟨ha, ?fits, rfl⟩, fun b => ?bytes, rfl⟩
  case fits => simpa [FitsStore] using hv
  case bytes =>
    have hinside : (a.toNat ≤ b ∧ b < a.toNat + n) ↔ (a ≤ b ∧ (b : Int) < a + n) := by omega
    rw [dataByte_writeBytes, splitBytes_length]
    simp only [hinside]
    split
    · exact storedBytes_getElem? s.cfg v (by omega)
    · rfl

end Sys2Proof.Machine
end

section
/-! Loads and stores (spec/43_load_store.md R200 to R206): the stages the two formats share, the rule of each format,
then the five loads and `SW`. -/

namespace Sys2Proof.Machine

/-! ### The stages -/

/-- R99: an instruction that accesses memory is no branch. -/
theorem isBranch_of_access {i : Instr} (h : isLoad i = true ∨ isStore i = true) : isBranch i = false := by
  cases i <;> simp_all [isLoad, isStore, isBranch]

/-- R115, R200: the ALU computes the effective address for every access. -/
theorem alu_of_access {e : EXRec} (c : Config) (h : isLoad e.instr.op = true ∨ isStore e.instr.op = true) :
    alu c e = onRsImm effectiveAddress e := by
  unfold alu
  split <;> simp_all [isLoad, isStore]

/-- R115, R200: the MEM record of an access holds the effective address, or the sum out of range is its overflow. -/
theorem nextMEM_of_access {i : InstrRec} (h : isLoad i.op = true ∨ isStore i.op = true) (c : Config) (a im : Int)
    (rtv : Option Int) : nextMEM c ⟨i, some a, rtv, im⟩ =
      if InRange32 (a + im) then .ok ⟨i, a + im, rtv, decide (a + im = 0), 0⟩
      else raise (.arithmeticOverflow (a + im)) :=
  nextMEM_of_checkAlu (alu_of_access c h) (isBranch_of_access h)

/-- R116: the access of a load is a read of its size and signedness. -/
theorem access_of_load {m : MEMRec} (s : State) (h : isLoad m.instr.op = true) :
    access s m = memRead s m.aluResult (accessSize m.instr.op) (accessSigned m.instr.op) := by
  unfold access
  split <;> simp_all [isLoad] <;> rfl

/-- R116: the access of a store is a write of its size, of the store data. -/
theorem access_of_store {m : MEMRec} {v : Int} (s : State) (h : isStore m.instr.op = true) (hv : m.rtValue = some v) :
    access s m = memWrite s m.aluResult (accessSize m.instr.op) v >>= fun t => .ok (m.aluResult, t) := by
  unfold access
  split <;> simp_all [isStore, storeAccess, operand] <;> rfl

/-- R111: the commit of an instruction without a destination does nothing. -/
theorem commit_of_noDest {s : State} (h : dest s.pipe.wbr.instr.op = none) : commit s = .ok s := by
  rw [commit, h]

/-! ### The sequential effect -/

/-- R92: at a legal next address the next instruction is fetched, and nothing else changes. -/
theorem advance_ok {s : State} (hpc : FetchOk s.cfg (s.pc + 4)) :
    advance s = .ok (s.withIF (fetched s (s.pc + 4))) := goTo_ok hpc

/-- Format L: with a legal slot the address is checked, then the value read there is committed. -/
theorem seqLoad_eq (read : State → Int → Res (Int × State)) (rd : Nat) {rs : Nat} (imm : Int) (s : State)
    (hrs : rs < 32) : seqLoad effectiveAddress read rd rs imm s =
      checkAlu (s.reg rs + imm) >>= fun ea => read s ea >>= fun r => commitAndAdvance r.2 rd r.1 := by
  rw [seqLoad, readReg_lt hrs, ok_bind]; rfl

/-- Format S: with legal slots the address is checked, then the store data is written there. -/
theorem seqStore_eq (write : State → Int → Int → Res State) {rs rt : Nat} (imm : Int) (s : State) (hrs : rs < 32)
    (hrt : rt < 32) : seqStore effectiveAddress write rs rt imm s =
      checkAlu (s.reg rs + imm) >>= fun ea => write s ea (s.reg rt) >>= advance := by
  rw [seqStore, readReg_lt hrs, ok_bind, readReg_lt hrt, ok_bind]; rfl

/-! ### Loads -/

/-- Where the model's functions place the loads `mk` of `n` bytes: the class and the access of the instruction,
`rd` the destination, and the same read in the sequential meaning. -/
structure WiredAsLoad (mk : Nat → Nat → Int → Instr) (n : Nat) (signed : Bool) : Prop where
  load : ∀ rd rs imm, isLoad (mk rd rs imm) = true
  size : ∀ rd rs imm, accessSize (mk rd rs imm) = n
  extension : ∀ rd rs imm, accessSigned (mk rd rs imm) = signed
  writesRd : ∀ rd rs imm, dest (mk rd rs imm) = some rd
  sequential : ∀ rd rs imm s, exec (mk rd rs imm) s =
    (seqLoad effectiveAddress (fun s ea => memRead s ea n signed) rd rs imm s).toOutcome

namespace WiredAsLoad

variable {mk : Nat → Nat → Int → Instr} {n : Nat} {signed : Bool}

/-- An access moves 1, 2 or 4 bytes. -/
theorem size_cases (h : WiredAsLoad mk n signed) : n = 1 ∨ n = 2 ∨ n = 4 := by
  have hsize := accessSize_cases (.inl (h.load 0 0 0))
  rwa [h.size] at hsize

/-- The sequential meaning: the address check, the read, the commit. -/
theorem exec_eq (h : WiredAsLoad mk n signed) (rd : Nat) {rs : Nat} (imm : Int) (s : State) (hrs : rs < 32) :
    exec (mk rd rs imm) s = (checkAlu (s.reg rs + imm) >>= fun ea =>
      memRead s ea n signed >>= fun r => commitAndAdvance r.2 rd r.1).toOutcome := by
  rw [h.sequential, seqLoad_eq _ rd imm s hrs]

/-- R201 to R205: the datum read is a register value, so a load of written bytes completes. -/
theorem exec_retires (h : WiredAsLoad mk n signed) {rd rs : Nat} {imm : Int} {s : State} {b : Nat → Byte}
    (hrd : rd < 32) (hrs : rs < 32) (hea : InRange32 (s.reg rs + imm)) (hdata : DataOk s.cfg (s.reg rs + imm) n)
    (hpc : FetchOk s.cfg (s.pc + 4)) (hb : ∀ k, k < n → dataByte s ((s.reg rs + imm).toNat + k) = some (b k)) :
    ∃ t, exec (mk rd rs imm) s = .next t ∧
      Retires s t (some (rd, loadedValue s.cfg.byteOrder n signed b)) (s.pc + 4) ∧ SameMemory s t := by
  have hread := memRead_written signed hdata hb
  obtain ⟨t, ht, hretires, hmemory⟩ := commitAndAdvance_ok hrd (memRead_range h.size_cases hread) hpc
  refine ⟨t, ?_, hretires, hmemory⟩
  rw [h.exec_eq rd imm s hrs, checkAlu_ok hea, ok_bind, hread, ok_bind, ht, toOutcome_ok]

/-- The template of a load holds of every instruction wired so. -/
theorem loadRule (h : WiredAsLoad mk n signed) : LoadRule mk n signed := by
  intro rd rs imm hrd hrs
  refine ⟨fun c line a rtv im => ?inEX, fun s m hop => ?inMEM, fun s hop => ?inWB,
    fun s b => h.exec_retires hrd hrs, fun s hea => ?overflows, fun s f hea hf => ?faults⟩
  case inEX => exact nextMEM_of_access (.inl (h.load rd rs imm)) c a im rtv
  case inMEM => rw [access_of_load s (by rw [hop, h.load]), hop, h.size, h.extension]
  case inWB => exact commit_of_dest (by rw [hop, h.writesRd])
  case overflows => rw [h.exec_eq rd imm s hrs, checkAlu_raise hea, raise_bind, toOutcome_raise]
  case faults => rw [h.exec_eq rd imm s hrs, checkAlu_ok hea, ok_bind, hf, raise_bind, toOutcome_raise]

end WiredAsLoad

/-- R201. -/
theorem lw_wired : WiredAsLoad .lw 4 true where
  load _ _ _ := rfl
  size _ _ _ := rfl
  extension _ _ _ := rfl
  writesRd _ _ _ := rfl
  sequential _ _ _ _ := rfl

/-- R202. -/
theorem lh_wired : WiredAsLoad .lh 2 true where
  load _ _ _ := rfl
  size _ _ _ := rfl
  extension _ _ _ := rfl
  writesRd _ _ _ := rfl
  sequential _ _ _ _ := rfl

/-- R203. -/
theorem lhu_wired : WiredAsLoad .lhu 2 false where
  load _ _ _ := rfl
  size _ _ _ := rfl
  extension _ _ _ := rfl
  writesRd _ _ _ := rfl
  sequential _ _ _ _ := rfl

/-- R204. -/
theorem lb_wired : WiredAsLoad .lb 1 true where
  load _ _ _ := rfl
  size _ _ _ := rfl
  extension _ _ _ := rfl
  writesRd _ _ _ := rfl
  sequential _ _ _ _ := rfl

/-- R205. -/
theorem lbu_wired : WiredAsLoad .lbu 1 false where
  load _ _ _ := rfl
  size _ _ _ := rfl
  extension _ _ _ := rfl
  writesRd _ _ _ := rfl
  sequential _ _ _ _ := rfl

/-- Settles O30: each is wired as a load of its size and extension. -/
theorem loads : Obligations.Loads := by
  unfold Obligations.Loads
  exact ⟨lw_wired.loadRule, lh_wired.loadRule, lhu_wired.loadRule, lb_wired.loadRule, lbu_wired.loadRule⟩

/-! ### Stores -/

/-- Where the model's functions place the stores `mk` of `n` bytes: the class and the size of the instruction, no
destination, and the same write in the sequential meaning. -/
structure WiredAsStore (mk : Nat → Nat → Int → Instr) (n : Nat) : Prop where
  store : ∀ rs rt imm, isStore (mk rs rt imm) = true
  size : ∀ rs rt imm, accessSize (mk rs rt imm) = n
  noDest : ∀ rs rt imm, dest (mk rs rt imm) = none
  sequential : ∀ rs rt imm s, exec (mk rs rt imm) s =
    (seqStore effectiveAddress (fun s ea v => memWrite s ea n v) rs rt imm s).toOutcome

namespace WiredAsStore

variable {mk : Nat → Nat → Int → Instr} {n : Nat}

/-- The sequential meaning: the address check, the write, the advance. -/
theorem exec_eq (h : WiredAsStore mk n) {rs rt : Nat} (imm : Int) (s : State) (hrs : rs < 32) (hrt : rt < 32) :
    exec (mk rs rt imm) s = (checkAlu (s.reg rs + imm) >>= fun ea =>
      memWrite s ea n (s.reg rt) >>= advance).toOutcome := by
  rw [h.sequential, seqStore_eq _ imm s hrs hrt]

/-- R116: the access in the MEM stage is the write of the store data. -/
theorem access_eq (h : WiredAsStore mk n) {rs rt : Nat} {imm v : Int} {m : MEMRec} (s : State)
    (hop : m.instr.op = mk rs rt imm) (hv : m.rtValue = some v) :
    access s m = memWrite s m.aluResult n v >>= fun t => .ok (m.aluResult, t) := by
  rw [access_of_store s (by rw [hop, h.store]) hv, hop, h.size]

/-- R206 to R208: a store whose checks pass leaves its bytes, and goes on with nothing else changed. -/
theorem exec_retires (h : WiredAsStore mk n) {rs rt : Nat} {imm : Int} {s : State} (hrs : rs < 32) (hrt : rt < 32)
    (hea : InRange32 (s.reg rs + imm)) (hdata : DataOk s.cfg (s.reg rs + imm) n) (hpc : FetchOk s.cfg (s.pc + 4))
    (hv : s.cfg.narrowStoreCheck = .truncate ∨ (-2 ^ (8 * n - 1) ≤ s.reg rt ∧ s.reg rt < 2 ^ (8 * n))) :
    ∃ t, exec (mk rs rt imm) s = .next t ∧ Retires s t none (s.pc + 4) ∧
      StoredAt s t (s.reg rs + imm) n (s.reg rt) := by
  obtain ⟨d, hwrite, hstored⟩ := memWrite_storedAt hdata hv
  have hnext : advance (s.withDmem d) = .ok ((s.withDmem d).withIF (fetched s (s.pc + 4))) := advance_ok hpc
  refine ⟨(s.withDmem d).withIF (fetched s (s.pc + 4)), ?_, ?retires, hstored⟩
  · rw [h.exec_eq imm s hrs hrt, checkAlu_ok hea, ok_bind, hwrite, ok_bind, hnext, toOutcome_ok]
  case retires =>
    exact { regs := by simp, goesTo := by simp, behindIF := by simp, imem := by simp, status := by simp,
            counters := by simp, cfg := by simp }

/-- The template of a store holds of every instruction wired so. -/
theorem storeRule (h : WiredAsStore mk n) : StoreRule mk n := by
  intro rs rt imm hrs hrt
  refine ⟨h.noDest rs rt imm, fun c line a b im => ?inEX,
    fun s m v hop hv => ⟨fun t ht => ?writes, fun f hf => ?stops⟩, fun s hop => ?inWB, fun s => h.exec_retires hrs hrt, fun s hea => ?overflows, fun s f hea hf => ?faults⟩
  case inEX => exact nextMEM_of_access (.inr (h.store rs rt imm)) c a im (some b)
  case writes => rw [h.access_eq s hop hv, ht, ok_bind]
  case stops => rw [h.access_eq s hop hv, hf, raise_bind]
  case inWB => exact commit_of_noDest (by rw [hop, h.noDest])
  case overflows => rw [h.exec_eq imm s hrs hrt, checkAlu_raise hea, raise_bind, toOutcome_raise]
  case faults => rw [h.exec_eq imm s hrs hrt, checkAlu_ok hea, ok_bind, hf, raise_bind, toOutcome_raise]

end WiredAsStore

/-- R206. -/
theorem sw_wired : WiredAsStore .sw 4 where
  store _ _ _ := rfl
  size _ _ _ := rfl
  noDest _ _ _ := rfl
  sequential _ _ _ _ := rfl

/-- R206: a register value fits four bytes. -/
theorem inRange32_fits_word {v : Int} (h : InRange32 v) : -2 ^ (8 * 4 - 1) ≤ v ∧ v < 2 ^ (8 * 4) := by
  norm_num
  exact h

/-- Settles O31: `SW` is wired as a store of four bytes. -/
theorem storeWord : Obligations.StoreWord := by
  unfold Obligations.StoreWord
  exact ⟨sw_wired.storeRule, fun v => inRange32_fits_word⟩

end Sys2Proof.Machine
end

section
/-! Conditional branches (spec/44_control_transfer.md R220, R221): the sequential effect of a transfer of control, the
stages of a branch, the rule of format B, then `BEQ` and `BNE`. -/

namespace Sys2Proof.Machine

/-! ### The sequential effect -/

/-- R14, R51: a transfer of control to a legal address fetches there, and changes nothing else. -/
theorem goTo_retires {s : State} {a : Int} (h : FetchOk s.cfg a) :
    ∃ t, (goTo s a).toOutcome = .next t ∧ Retires s t none a ∧ SameMemory s t := by
  refine ⟨s.withIF (fetched s a), by rw [goTo_ok h, toOutcome_ok], ?retires, ?memory⟩
  case retires =>
    exact { regs := by simp, goesTo := by simp, behindIF := by simp, imem := by simp, status := by simp,
            counters := by simp, cfg := by simp }
  case memory => exact ⟨fun a => by simp [dataByte], by simp⟩

/-- R51: a transfer of control to an address that fails the check of the fetch is that fault. -/
theorem goTo_raise {s : State} {a : Int} {f : Fault} (h : checkInstrAddr s.cfg a = raise f) : goTo s a = raise f := by
  rw [goTo, fetch, imemRead, h, raise_bind, raise_bind, raise_bind]

/-- Format B: with legal slots the operands are compared, then the target or the next address is fetched. -/
theorem seqBranch_eq (f : Int → Int → Res Int) (taken : Bool → Bool) {rs rt : Nat} (imm : Int) (s : State)
    (hrs : rs < 32) (hrt : rt < 32) : seqBranch f taken rs rt imm s =
      f (s.reg rs) (s.reg rt) >>= fun r => goTo s (if taken (zeroFlag r) then imm else s.pc + 4) := by
  simp only [seqBranch, readReg_lt hrs, readReg_lt hrt, ok_bind, advance, apply_ite (goTo s)]

/-! ### The stages -/

/-- R99: a branch accesses no memory. -/
theorem noAccess_of_branch {i : Instr} (h : isBranch i = true) : isLoad i = false ∧ isStore i = false := by
  have hnone : ¬ (isLoad i = true ∨ isStore i = true) := fun haccess => by simp [isBranch_of_access haccess] at h
  simpa using hnone

/-- R115: the MEM record of a branch carries the immediate as its target. -/
theorem nextMEM_of_branch {c : Config} {e : EXRec} {r : Int} (halu : alu c e = checkAlu r)
    (hbranch : isBranch e.instr.op = true) :
    nextMEM c e = if InRange32 r then .ok ⟨e.instr, r, e.rtValue, decide (r = 0), e.imm⟩
      else raise (.arithmeticOverflow r) := by
  by_cases hr : InRange32 r
  · rw [if_pos hr]
    exact nextMEM_eq_ok.2 ⟨r, halu.trans (checkAlu_ok hr), by simp [zeroFlag, hbranch]⟩
  · rw [if_neg hr, nextMEM, halu, checkAlu_raise hr, raise_bind]

/-- R112, R118: a taken branch with neither a jump in ID nor a stall fetches its target, and squashes the three
records behind it. -/
theorem step_takenBranch {s t : State} (he : s.Executes) (h : step s = .next t)
    (htaken : takenBranch s.pipe.memr = true) (hjump : isJump s.pipe.idr.instr.op = false) (hload : ¬ LoadUse s) :
    t.pipe.ifr = fetched s s.pipe.memr.branchTarget ∧ t.pipe.idr = .bubble ∧ t.pipe.exr.instr = .bubble ∧
      t.pipe.memr = .bubble := by
  obtain ⟨-, hsquash⟩ := takenBranchSquashesThree s t he h
  obtain ⟨hmem, hex, -, hfront⟩ := hsquash htaken
  obtain ⟨hid, hif⟩ := hfront hload
  exact ⟨by simpa [hjump] using hif, hid, hex, hmem⟩

/-! ### Format B -/

/-- Where the model's functions place the branches `mk` with condition `cond`: the class of the instruction, no
destination, the difference of the operands in EX and in the sequential meaning, and a test `taken` of its zero flag
that says whether `cond` holds. -/
structure WiredAsBranch (mk : Nat → Nat → Int → Instr) (cond : Int → Int → Bool) (taken : Bool → Bool) : Prop where
  branch : ∀ rs rt imm, isBranch (mk rs rt imm) = true
  noDest : ∀ rs rt imm, dest (mk rs rt imm) = none
  inEX : ∀ rs rt imm c line a b im, alu c ⟨⟨mk rs rt imm, line⟩, some a, some b, im⟩ = checkAlu (a - b)
  inMEM : ∀ rs rt imm zero, branchTaken (mk rs rt imm) zero = taken zero
  compares : ∀ a b, taken (zeroFlag (a - b)) = cond a b
  sequential : ∀ rs rt imm s,
    exec (mk rs rt imm) s = (seqBranch (fun a b => checkAlu (a - b)) taken rs rt imm s).toOutcome

namespace WiredAsBranch

variable {mk : Nat → Nat → Int → Instr} {cond : Int → Int → Bool} {taken : Bool → Bool}

/-- R117: the branch in MEM is taken iff `cond` compares so with 0 a difference that has this zero flag. -/
theorem takenBranch_eq (h : WiredAsBranch mk cond taken) {rs rt : Nat} {imm : Int} {m : MEMRec}
    (hop : m.instr.op = mk rs rt imm) : takenBranch m = cond (if m.zero then 0 else 1) 0 := by
  have hflag : zeroFlag ((if m.zero then 0 else 1) - 0) = m.zero := by cases m.zero <;> rfl
  rw [takenBranch, hop, h.inMEM, ← h.compares, hflag]

/-- R220, R221: with the difference in range the branch goes to the immediate or to the next instruction. -/
theorem exec_inRange (h : WiredAsBranch mk cond taken) {rs rt : Nat} (imm : Int) {s : State} (hrs : rs < 32)
    (hrt : rt < 32) (hr : InRange32 (s.reg rs - s.reg rt)) : exec (mk rs rt imm) s =
      (goTo s (if cond (s.reg rs) (s.reg rt) then imm else s.pc + 4)).toOutcome := by
  rw [h.sequential, seqBranch_eq _ taken imm s hrs hrt, checkAlu_ok hr, ok_bind, h.compares]

/-- R220, R221: a taken branch whose target fails the check of the fetch faults so. -/
theorem exec_badTarget (h : WiredAsBranch mk cond taken) {rs rt : Nat} {imm : Int} {s : State} {f : Fault}
    (hrs : rs < 32) (hrt : rt < 32) (hr : InRange32 (s.reg rs - s.reg rt))
    (htaken : cond (s.reg rs) (s.reg rt) = true) (hf : checkInstrAddr s.cfg imm = raise f) :
    exec (mk rs rt imm) s = .fault f := by
  rw [h.exec_inRange imm hrs hrt hr, if_pos htaken, goTo_raise hf, toOutcome_raise]

/-- The template of a conditional branch holds of every instruction wired so. -/
theorem branchRule (h : WiredAsBranch mk cond taken) : BranchRule mk cond := by
  intro rs rt imm hrs hrt
  refine ⟨h.noDest rs rt imm, fun c line a b => ?inEX, fun m => h.takenBranch_eq,
    fun s t he hstep hop hcond => ?squashes, fun s hop => ?inMEM, fun s hop => ?inWB, fun s hr hpc => ?completes,
    fun s hr => ?overflows, fun s hr htaken => ⟨fun hout => ?outOfRange, fun hlo hhi hal => ?misaligned⟩⟩
  case inEX => exact nextMEM_of_branch (h.inEX ..) (h.branch ..)
  case squashes => exact step_takenBranch he hstep ((h.takenBranch_eq hop).trans hcond)
  case inMEM =>
    obtain ⟨hload, hstore⟩ := noAccess_of_branch (h.branch rs rt imm)
    exact nextWB_of_noAccess (by rw [hop, hload]) (by rw [hop, hstore])
  case inWB => exact commit_of_noDest (by rw [hop, h.noDest])
  case completes =>
    rw [h.exec_inRange imm hrs hrt hr]
    exact goTo_retires hpc
  case overflows =>
    rw [h.sequential, seqBranch_eq _ taken imm s hrs hrt, checkAlu_raise hr, raise_bind, toOutcome_raise]
  case outOfRange => exact h.exec_badTarget hrs hrt hr htaken (checkInstrAddr_outOfRange hout)
  case misaligned => exact h.exec_badTarget hrs hrt hr htaken (checkInstrAddr_misaligned hlo hhi hal)

end WiredAsBranch

/-- R30: the zero flag of a difference says whether the operands are equal. -/
theorem zeroFlag_sub (a b : Int) : zeroFlag (a - b) = decide (a = b) := by
  simp only [zeroFlag, sub_eq_zero]

/-- R220. -/
theorem beq_wired : WiredAsBranch .beq (fun a b => decide (a = b)) beqCondition where
  branch _ _ _ := rfl
  noDest _ _ _ := rfl
  inEX _ _ _ _ _ _ _ _ := rfl
  inMEM _ _ _ _ := rfl
  compares := zeroFlag_sub
  sequential _ _ _ _ := rfl

/-- R221. -/
theorem bne_wired : WiredAsBranch .bne (fun a b => decide (a ≠ b)) bneCondition where
  branch _ _ _ := rfl
  noDest _ _ _ := rfl
  inEX _ _ _ _ _ _ _ _ := rfl
  inMEM _ _ _ _ := rfl
  compares a b := by rw [zeroFlag_sub, bneCondition, decide_not]
  sequential _ _ _ _ := rfl

/-- Settles O33: each is wired as a branch, on the zero flag of the difference set or clear. -/
theorem branchEqualAndNotEqual : Obligations.BranchEqualAndNotEqual := by
  unfold Obligations.BranchEqualAndNotEqual
  exact ⟨beq_wired.branchRule, bne_wired.branchRule⟩

end Sys2Proof.Machine
end

section
/-! The packed word (spec/30_encoding.md R86 to R90): what the decoder reads from each format, when it answers, and
that it and the encoder are inverse to each other. -/

namespace Sys2Proof

/-! ### Formats -/

/-- A decoding in two parts answers iff both parts do. -/
theorem decodeBind_eq_ok {α β : Type} {x : Except DecodeError α} {f : α → Except DecodeError β} {b : β} :
    (x >>= f) = .ok b ↔ ∃ a, x = .ok a ∧ f a = .ok b := by
  cases x <;> simp [bind, Except.bind]

@[simp] theorem decodePure_eq_ok {i j : Instr} : (pure i : Except DecodeError Instr) = .ok j ↔ i = j := by
  simp [pure, Except.pure]

section
variable {w : PackedWord} {i : Instr}

theorem decodeNoSlot_eq_ok {mk : Int → Instr} : decodeNoSlot mk w = .ok i ↔
    wordRd w = 63 ∧ wordRs w = 63 ∧ wordRt w = 63 ∧ mk (wordImm w) = i := by
  simp [decodeNoSlot, decodeBind_eq_ok, -bind_pure_comp]

theorem decodeRdRsRt_eq_ok {mk : Nat → Nat → Nat → Int → Instr} : decodeRdRsRt mk w = .ok i ↔
    wordRd w < 32 ∧ wordRs w < 32 ∧ wordRt w < 32 ∧ mk (wordRd w) (wordRs w) (wordRt w) (wordImm w) = i := by
  simp [decodeRdRsRt, decodeBind_eq_ok, -bind_pure_comp]

theorem decodeRdRt_eq_ok {mk : Nat → Nat → Int → Instr} : decodeRdRt mk w = .ok i ↔
    wordRd w < 32 ∧ wordRs w = 63 ∧ wordRt w < 32 ∧ mk (wordRd w) (wordRt w) (wordImm w) = i := by
  simp [decodeRdRt, decodeBind_eq_ok, -bind_pure_comp]

theorem decodeRdRs_eq_ok {mk : Nat → Nat → Int → Instr} : decodeRdRs mk w = .ok i ↔
    wordRd w < 32 ∧ wordRs w < 32 ∧ wordRt w = 63 ∧ mk (wordRd w) (wordRs w) (wordImm w) = i := by
  simp [decodeRdRs, decodeBind_eq_ok, -bind_pure_comp]

theorem decodeRd_eq_ok {mk : Nat → Int → Instr} : decodeRd mk w = .ok i ↔
    wordRd w < 32 ∧ wordRs w = 63 ∧ wordRt w = 63 ∧ mk (wordRd w) (wordImm w) = i := by
  simp [decodeRd, decodeBind_eq_ok, -bind_pure_comp]

theorem decodeRsRt_eq_ok {mk : Nat → Nat → Int → Instr} : decodeRsRt mk w = .ok i ↔
    wordRd w = 63 ∧ wordRs w < 32 ∧ wordRt w < 32 ∧ mk (wordRs w) (wordRt w) (wordImm w) = i := by
  simp [decodeRsRt, decodeBind_eq_ok, -bind_pure_comp]

end

/-! ### The decoder -/

/-- R82, R86: the immediate field is a 64-bit integer. -/
theorem wordImm_imm64 (w : PackedWord) : Imm64 (wordImm w) :=
  ⟨BitVec.le_toInt (w.extractLsb' 0 64), BitVec.toInt_lt⟩

/-- The fields of a word are the tag, the slot codes and the immediate of a well-formed instruction (R86, R88). -/
structure Spells (w : PackedWord) (i : Instr) : Prop where
  wellFormed : i.wellFormed = true
  tag : wordTag w = i.tag
  rd : wordRd w = slotCode i.rd?
  rs : wordRs w = slotCode i.rs?
  rt : wordRt w = slotCode i.rt?
  imm : wordImm w = i.imm

/-- R90: what the decoder reads is spelled by the word's fields. -/
theorem spells_of_decode {w : PackedWord} {i : Instr} (h : decode w = .ok i) : Spells w i := by
  have himm := wordImm_imm64 w
  unfold decode at h
  split at h
  case h_27 => cases h
  all_goals
    simp only [decodeNoSlot_eq_ok, decodeRdRsRt_eq_ok, decodeRdRt_eq_ok, decodeRdRs_eq_ok, decodeRd_eq_ok,
      decodeRsRt_eq_ok] at h
    obtain ⟨hrd, hrs, hrt, rfl⟩ := h
    constructor <;> simp [Instr.wellFormed, Instr.tag, slotCode, Instr.rd?, Instr.rs?, Instr.rt?, Instr.imm, *]

/-- R86: the fields of a word determine the instruction it spells. -/
theorem decode_of_spells {w : PackedWord} {i : Instr} (h : Spells w i) : decode w = .ok i := by
  obtain ⟨hwf, htag, hrd, hrs, hrt, himm⟩ := h
  unfold decode
  rw [htag]
  cases i <;>
    simp [Instr.tag, Instr.wellFormed, slotCode, Instr.rd?, Instr.rs?, Instr.rt?, Instr.imm, decodeNoSlot_eq_ok,
      decodeRdRsRt_eq_ok, decodeRdRt_eq_ok, decodeRdRs_eq_ok, decodeRd_eq_ok, decodeRsRt_eq_ok] at * <;>
    simp [*]

/-- R82: the immediate of a well-formed instruction is a 64-bit integer. -/
theorem imm_imm64 {i : Instr} (h : i.wellFormed = true) : Imm64 i.imm := by
  cases i <;> simp [Instr.wellFormed, Instr.imm] at * <;> omega

/-- R88: a slot that names a register, or holds `UNUSED`, fits its six-bit field. -/
theorem slotCode_lt {slot : Option Nat} (h : ∀ r ∈ slot, r < 32) : slotCode slot < 64 := by
  cases slot with
  | none => decide
  | some r => have := h r rfl; simp only [slotCode]; omega

/-- R86, R88: the packed word of a well-formed instruction has its fields. -/
theorem spells_encode {i : Instr} (h : i.wellFormed = true) : Spells (encode i) i := by
  have hbounds (hwf : i.wellFormed = true) :
      slotCode i.rd? < 64 ∧ slotCode i.rs? < 64 ∧ slotCode i.rt? < 64 ∧ Imm64 i.imm :=
    ⟨slotCode_lt (Machine.dest_lt hwf), slotCode_lt (Machine.readsRs_lt hwf), slotCode_lt (Machine.readsRt_lt hwf),
      imm_imm64 hwf⟩
  obtain ⟨htag, hrd, hrs, hrt, himm⟩ := Laws.packedFields_of_bounds i hbounds h
  exact ⟨h, htag, hrd, hrs, hrt, himm⟩

/-- R86: a word is the packed word of the instruction it spells. -/
theorem encode_of_spells {w : PackedWord} {i : Instr} (h : Spells w i) : encode i = w := by
  rw [encode, ← h.tag, ← h.rd, ← h.rs, ← h.rt, ← h.imm, packWord_fields]

/-- Settles O1: the packed word has the instruction's fields, and they determine what is decoded. -/
theorem decodeOfEncodeIsIdentity : Obligations.DecodeOfEncodeIsIdentity := by
  unfold Obligations.DecodeOfEncodeIsIdentity
  exact fun i h => decode_of_spells (spells_encode h)

/-- Settles O2: what is decoded is well formed, and the word is the packing of its fields. -/
theorem encodeOfDecodeIsIdentity : Obligations.EncodeOfDecodeIsIdentity := by
  unfold Obligations.EncodeOfDecodeIsIdentity
  intro w i h
  have hspells := spells_of_decode h
  exact ⟨hspells.wellFormed, encode_of_spells hspells⟩

/-- Settles O3: each tag's format names the slots that hold a register and those that hold 63. -/
theorem legalWordsAreExactlyThoseOfTheTable : Obligations.LegalWordsAreExactlyThoseOfTheTable := by
  unfold Obligations.LegalWordsAreExactlyThoseOfTheTable
  intro w
  unfold decode
  split
  case h_27 =>
    have htag : ¬ wordTag w ≤ 25 := by grind
    simp [htag]
  all_goals
    simp [decodeNoSlot_eq_ok, decodeRdRsRt_eq_ok, decodeRdRt_eq_ok, decodeRdRs_eq_ok, decodeRd_eq_ok,
      decodeRsRt_eq_ok, *]

/-! ### Match and mask -/

/-- AND works on the fields of a word one by one. -/
theorem fields_and (t a b c t' a' b' c' : BitVec 6) (m m' : BitVec 64) :
    (t ++ a ++ b ++ c ++ m) &&& (t' ++ a' ++ b' ++ c' ++ m') =
      (t &&& t') ++ (a &&& a') ++ (b &&& b') ++ (c &&& c') ++ (m &&& m') := by
  simp only [BitVec.and_append]

/-- R87: a mask whose immediate field is 0 selects from a packed word field by field. -/
theorem packWord_and (t a b c t' a' b' c' : Nat) (m : Int) :
    packWord t a b c m &&& packWord t' a' b' c' 0 = packWord (t &&& t') (a &&& a') (b &&& b') (c &&& c') 0 := by
  have himm : BitVec.ofInt 64 m &&& BitVec.ofInt 64 0 = BitVec.ofInt 64 0 := BitVec.and_zero
  simp only [packWord, BitVec.ofNat_and]
  exact (fields_and ..).trans (by rw [himm])

/-- A tag lies inside the six-bit tag field. -/
theorem tag_and_mask (i : Instr) : i.tag &&& 63 = i.tag := by
  have := tag_lt i
  exact (Nat.and_two_pow_sub_one_eq_mod i.tag 6).trans (Nat.mod_eq_of_lt (by omega))

/-- R87, R88: a slot's mask selects nothing of a register index, and all of `UNUSED`. -/
theorem slotCode_and_mask (slot : Option Nat) : slotCode slot &&& unusedFieldBits slot = unusedFieldBits slot := by
  cases slot with
  | none => rfl
  | some r => exact Nat.and_zero r

/-- R87: an instruction's word has the match of its own opcode under the mask. -/
theorem encode_and_opcodeMask (i : Instr) : encode i &&& opcodeMask i = opcodeMatch i := by
  simp only [encode, opcodeMask, opcodeMatch, packWord_and, tag_and_mask, slotCode_and_mask]

/-- R87: every mask selects the whole tag, so a word matches opcodes of its own tag only. -/
theorem tag_eq_of_match {i j : Instr} (h : encode i &&& opcodeMask j = opcodeMatch j) : j.tag = i.tag := by
  have htag := congrArg wordTag h
  have := tag_lt i
  have := tag_lt j
  simp only [encode, opcodeMask, opcodeMatch, packWord_and, tag_and_mask] at htag
  rw [wordTag_packWord (by omega), wordTag_packWord (by omega)] at htag
  exact htag.symm

/-- Settles O4: a decoded word is the packed word of its instruction. -/
theorem decodedWordMatchesItsOpcodeOnly : Obligations.DecodedWordMatchesItsOpcodeOnly := by
  unfold Obligations.DecodedWordMatchesItsOpcodeOnly
  intro w i j h
  obtain rfl := encode_of_spells (spells_of_decode h)
  exact ⟨encode_and_opcodeMask i, tag_eq_of_match⟩

/-- Settles O5: the decoder evaluates on every word listed. -/
theorem specExampleWordsDecode : Obligations.SpecExampleWordsDecode := by
  unfold Obligations.SpecExampleWordsDecode
  decide

end Sys2Proof
end

section
/-! Stores and loads of data memory (spec/20_memory.md R55 to R62): the bytes written, the range of what is read, the
round trip, unwritten bytes, and the canonical form. -/

namespace Sys2Proof.Machine

/-! ### Stores -/

/-- R59: a value that does not fit stops the store under `NARROW_STORE_CHECK = fault`. -/
theorem memWrite_unfit {s : State} {a : Int} {n : Nat} {v : Int} (ha : DataOk s.cfg a n)
    (hc : s.cfg.narrowStoreCheck = .fault) (hv : ¬ FitsStore v n) :
    memWrite s a n v = raise (.storeValueAssertion v n) := by
  have hcheck : checkStoreValue s.cfg v n = raise (.storeValueAssertion v n) := by
    rw [checkStoreValue, hc]; exact if_neg hv
  rw [memWrite, validate_ok ha, ok_bind, hcheck, raise_bind]

/-- Settles O15: a write that passes the checks leaves the bytes of the value, one that does not fit is the fault. -/
theorem storeWritesExactlyItsBytes : Obligations.StoreWritesExactlyItsBytes := by
  unfold Obligations.StoreWritesExactlyItsBytes
  intro s a n v _ ha
  refine ⟨fun hv => ?stored, fun hc hv => ?unfit⟩
  case stored =>
    obtain ⟨m, hwrite, hstored⟩ := memWrite_storedAt ha hv
    exact ⟨s.withDmem m, hwrite, hstored, rfl⟩
  case unfit => exact memWrite_unfit ha hc (by simpa [FitsStore] using hv)

/-! ### Loads -/

/-- R57: a datum of `n` bytes is an unsigned number of `8 n` bits. -/
theorem datumOf_range (o : ByteOrder) (n : Nat) (b : Nat → Byte) : 0 ≤ datumOf o n b ∧ datumOf o n b < 2 ^ (8 * n) := by
  have hlt := joinBytes_lt o ((List.range n).map b)
  rw [List.length_map, List.length_range, show (256 : Nat) = 2 ^ 8 from rfl, ← pow_mul] at hlt
  rw [← joinBytes_map_range]
  exact ⟨Int.natCast_nonneg _, by exact_mod_cast hlt⟩

/-- R58: a signed load delivers a signed number of `8 n` bits. -/
theorem loadedValue_signed_range (o : ByteOrder) {n : Nat} (hn : 0 < n) (b : Nat → Byte) :
    -2 ^ (8 * n - 1) ≤ loadedValue o n true b ∧ loadedValue o n true b < 2 ^ (8 * n - 1) := by
  obtain ⟨hlo, hhi⟩ := datumOf_range o n b
  have hdouble : (2 : Int) ^ (8 * n) = 2 * 2 ^ (8 * n - 1) := by rw [← pow_succ', Nat.sub_add_cancel (by omega)]
  rw [hdouble] at hhi
  simp only [loadedValue, hdouble, true_and]
  split <;> omega

/-- R58: an unsigned load delivers the datum. -/
@[simp] theorem loadedValue_unsigned (o : ByteOrder) (n : Nat) (b : Nat → Byte) :
    loadedValue o n false b = datumOf o n b := by simp [loadedValue]

/-- Settles O16: the read delivers the datum of the written bytes, whose range is that of its width. -/
theorem loadReadsTheBytesStored : Obligations.LoadReadsTheBytesStored := by
  unfold Obligations.LoadReadsTheBytesStored
  intro s a n signed b hn ha hb
  refine ⟨memRead_written signed ha hb, ?signed, ?unsigned⟩
  case signed => rintro rfl; exact loadedValue_signed_range _ (by omega) b
  case unsigned => rintro rfl; rw [loadedValue_unsigned]; exact datumOf_range _ n b

/-! ### The round trip -/

/-- R57, R59: the bytes of a store join to the value reduced to its width. -/
theorem joinBytes_storedBytes (c : Config) (n : Nat) (v : Int) :
    (joinBytes c.byteOrder (storedBytes c n v) : Int) = v % 2 ^ (8 * n) := by
  have hpos : (0 : Int) < 2 ^ (8 * n) := by positivity
  have hlo := Int.emod_nonneg v hpos.ne'
  have hhi := Int.emod_lt_of_pos v hpos
  have hwidth : (256 : Nat) ^ n = 2 ^ (8 * n) := by rw [show (256 : Nat) = 2 ^ 8 from rfl, ← pow_mul]
  rw [joinBytes_splitBytes, hwidth]
  push_cast
  rw [Int.toNat_of_nonneg hlo, Int.emod_eq_of_lt hlo hhi]

/-- R58, R59: the bytes of a store read back as they were written. -/
theorem readBytes_stored (s : State) (a n : Nat) (v : Int) :
    readBytes (s.withDmem (writeBytes s.dmem a (storedBytes s.cfg n v))) a n =
      .ok (storedBytes s.cfg n v, s.withDmem (writeBytes s.dmem a (storedBytes s.cfg n v))) := by
  have hread := readBytes_written (s := s.withDmem (writeBytes s.dmem a (storedBytes s.cfg n v))) (a := a)
    (storedBytes s.cfg n v) fun k hk => by
      have hinside : a ≤ a + k ∧ a + k < a + (storedBytes s.cfg n v).length := by omega
      rw [dataByte_writeBytes, if_pos hinside, Nat.add_sub_cancel_left, List.getElem?_eq_getElem hk]
  rwa [splitBytes_length] at hread

/-- Settles O17: the bytes stored are the bytes read, and they join to the value reduced to its width. -/
theorem storeThenLoadRoundTrip : Obligations.StoreThenLoadRoundTrip := by
  unfold Obligations.StoreThenLoadRoundTrip
  intro s t a n v _ hwrite
  obtain ⟨ha, -, rfl⟩ := memWrite_eq_ok.1 hwrite
  have hread := readBytes_stored s a.toNat n v
  constructor
  · exact memRead_eq_ok.2 ⟨ha, _, hread, joinBytes_storedBytes s.cfg n v⟩
  · refine memRead_eq_ok.2 ⟨ha, _, hread, ?_⟩
    have hjoin := joinBytes_storedBytes s.cfg n v
    simp only [State.withDmem_cfg, if_true, sext, hjoin]
    push_cast
    rfl

/-! ### Unwritten bytes -/

/-- R62: under `fault` the read stops at the first unwritten byte. -/
theorem readBytes_firstUnwritten {s : State} {a n k : Nat} (hu : s.cfg.unwrittenRead = .fault) (hk : k < n)
    (hnone : dataByte s (a + k) = none) (hfirst : ∀ j, j < k → dataByte s (a + j) ≠ none) :
    readBytes s a n = raise (.uninitialisedRead ((a + k : Nat) : Int)) := by
  induction k generalizing a n with
  | zero =>
    obtain ⟨n, rfl⟩ : ∃ m, n = m + 1 := ⟨n - 1, by omega⟩
    have hbyte : readByte s a = raise (.uninitialisedRead (a : Int)) := by
      simp only [readByte, show dataByte s a = none from hnone, hu]
    rw [readBytes, hbyte, raise_bind]; rfl
  | succ k ih =>
    obtain ⟨n, rfl⟩ : ∃ m, n = m + 1 := ⟨n - 1, by omega⟩
    obtain ⟨b, hb⟩ := Option.ne_none_iff_exists'.1 (hfirst 0 (by omega))
    have hbyte : readByte s a = .ok (b, s) := by simp only [readByte, show dataByte s a = some b from hb]
    have hshift : a + (k + 1) = a + 1 + k := by omega
    rw [hshift] at hnone
    have hrest := ih (a := a + 1) (n := n) (by omega) hnone fun j hj => by
      have := hfirst (j + 1) (by omega)
      rwa [show a + 1 + j = a + (j + 1) by omega]
    rw [readBytes, hbyte, ok_bind]
    simp only [hrest, raise_bind, hshift]

/-- R62: under `zero` an unwritten byte reads as 0, and nothing changes. -/
theorem readBytes_zero {s : State} (hu : s.cfg.unwrittenRead = .zero) (a n : Nat) :
    readBytes s a n = .ok ((List.range n).map fun k => (dataByte s (a + k)).getD 0, s) := by
  induction n generalizing a with
  | zero => rfl
  | succ n ih =>
    have hbyte : readByte s a = .ok ((dataByte s a).getD 0, s) := by
      unfold readByte; cases dataByte s a <;> simp [hu]
    rw [readBytes, hbyte, ok_bind, List.range_succ_eq_map, List.map_cons, List.map_map]
    simp only [ih, ok_bind, pure_eq_ok, Function.comp_def, Nat.add_zero, Nat.succ_eq_add_one,
      Nat.add_assoc, Nat.add_comm 1]

/-- The unwritten bytes below offset `k + 1` are the one at offset 0, if it is one, and those behind it. -/
theorem unwrittenBelow_succ (s : State) (a k : Nat) :
    unwrittenBelow s a (k + 1) = unwrittenBelow s a 1 + unwrittenBelow s (a + 1) k := by
  simp only [unwrittenBelow, List.range_succ_eq_map, List.countP_cons, List.countP_map, Function.comp_def,
    Nat.succ_eq_add_one, Nat.add_assoc, Nat.add_comm 1, List.range_zero, List.map_nil, List.countP_nil]
  omega

/-- The state of a read under `any` behind its first byte. -/
theorem readByte_any {s : State} (hu : s.cfg.unwrittenRead = .any) (a : Nat) :
    readByte s a = .ok (drawnByte s a 0, s.withFresh (s.fresh + unwrittenBelow s a 1)) := by
  unfold readByte drawnByte unwrittenBelow
  cases h : dataByte s a <;> simp [hu, h, List.range_one]
  rfl

/-- Offset `k` behind the first byte draws the value of offset `k + 1`. -/
theorem drawnByte_succ (s : State) (a k : Nat) :
    drawnByte s a (k + 1) = drawnByte (s.withFresh (s.fresh + unwrittenBelow s a 1)) (a + 1) k := by
  have hshift : a + (k + 1) = a + 1 + k := by omega
  unfold drawnByte
  rw [unwrittenBelow_succ, ← Nat.add_assoc s.fresh, hshift]
  rfl

/-- R62: under `any` each unwritten byte is the next free value, and only their count changes. -/
theorem readBytes_any {s : State} (hu : s.cfg.unwrittenRead = .any) (a n : Nat) :
    readBytes s a n = .ok ((List.range n).map (drawnByte s a), s.withFresh (s.fresh + unwrittenBelow s a n)) := by
  induction n generalizing s a with
  | zero => rfl
  | succ n ih =>
    have hrest := ih (s := s.withFresh (s.fresh + unwrittenBelow s a 1)) hu (a + 1)
    rw [readBytes, readByte_any hu, ok_bind]
    simp only [hrest, ok_bind, pure_eq_ok]
    rw [List.range_succ_eq_map, List.map_cons, List.map_map, unwrittenBelow_succ s a n, ← Nat.add_assoc]
    simp only [Function.comp_def, Nat.succ_eq_add_one, drawnByte_succ]
    rfl

/-- R58: a read whose bytes are known delivers their datum. -/
theorem memRead_of_readBytes {s t : State} {a : Int} {n : Nat} (signed : Bool) {b : Nat → Byte} (ha : DataOk s.cfg a n)
    (h : readBytes s a.toNat n = .ok ((List.range n).map b, t)) :
    memRead s a n signed = .ok (loadedValue s.cfg.byteOrder n signed b, t) :=
  memRead_eq_ok.2 ⟨ha, _, h, extended_joinBytes ..⟩

/-- Settles O18: each setting of `UNWRITTEN_READ` says what the bytes read are. -/
theorem unwrittenByteRead : Obligations.UnwrittenByteRead := by
  unfold Obligations.UnwrittenByteRead
  intro s a n signed _ ha
  refine ⟨fun hu k hk hnone hfirst => ?fault, fun hu => ?zero, fun hu => ?any⟩
  case fault =>
    have haddr : ((a.toNat + k : Nat) : Int) = a + k := by omega
    rw [memRead, validate_ok ha, ok_bind, readBytes_firstUnwritten hu hk hnone hfirst, raise_bind, haddr]
  case zero => exact memRead_of_readBytes signed ha (readBytes_zero hu a.toNat n)
  case any => exact memRead_of_readBytes signed ha (readBytes_any hu a.toNat n)

/-! ### The canonical form -/

/-- Settles O19: each operation's update keeps the canonical lists, and those are equal when they read alike. -/
theorem memoryOperationsKeepCanonicalForm : Obligations.MemoryOperationsKeepCanonicalForm := by
  unfold Obligations.MemoryOperationsKeepCanonicalForm
  intro s t hd hi
  refine ⟨fun a n v h => ?write, fun a n sg v h => ?read, fun a r h => ?link, fun ht => cells_ext hd ht⟩
  case write =>
    obtain ⟨-, -, rfl⟩ := memWrite_eq_ok.1 h
    exact ⟨wf_writeBytes _ _ _ hd, hi⟩
  case read =>
    obtain ⟨m, rfl⟩ := memRead_frame h
    exact ⟨hd, hi⟩
  case link =>
    obtain ⟨-, rfl⟩ := imemWrite_eq_ok.1 h
    exact ⟨hd, wf_putInstr _ _ _ hi⟩

end Sys2Proof.Machine
end

section
/-! The remaining instructions of the ALU (spec/41_alu_register.md R163 to R167, spec/42_alu_immediate_shift.md): the
bits of the logical operations, the two other format R instructions, the format I instructions and the shifts. -/

namespace Sys2Proof.Machine

/-! ### Bits -/

/-- R13: NOT flips every bit. -/
theorem bit_bitNot (a : Int) (k : Nat) : bitNot a / 2 ^ k % 2 = 1 - a / 2 ^ k % 2 := by
  cases a with
  | ofNat m =>
    have hnot : bitNot (.ofNat m) = .negSucc m := by simp only [bitNot, Int.ofNat_eq_natCast]; omega
    rw [hnot, bit_negSucc, bit_ofNat]; cases m.testBit k <;> rfl
  | negSucc m =>
    have hnot : bitNot (.negSucc m) = .ofNat m := by simp only [bitNot, Int.ofNat_eq_natCast]; omega
    rw [hnot, bit_negSucc, bit_ofNat]; cases m.testBit k <;> rfl

/-- Settles O20: one lemma per operation. -/
theorem bitwiseOperationsActOnEveryBit : Obligations.BitwiseOperationsActOnEveryBit := by
  unfold Obligations.BitwiseOperationsActOnEveryBit
  exact fun a b k => ⟨bit_bitAnd a b k, bit_bitOr a b k, bit_bitNot a k⟩

/-! ### Format R -/

/-- R163. -/
theorem and_wired : WiredAsFormatR .and (fun _ a b => bitAnd a b) where
  noLoad _ _ _ _ := rfl
  noStore _ _ _ _ := rfl
  noBranch _ _ _ _ := rfl
  writesRd _ _ _ _ := rfl
  inEX _ _ _ _ _ _ _ _ _ := rfl
  sequential _ _ _ _ _ := rfl

/-- R164. -/
theorem or_wired : WiredAsFormatR .or (fun _ a b => bitOr a b) where
  noLoad _ _ _ _ := rfl
  noStore _ _ _ _ := rfl
  noBranch _ _ _ _ := rfl
  writesRd _ _ _ _ := rfl
  inEX _ _ _ _ _ _ _ _ _ := rfl
  sequential _ _ _ _ _ := rfl

/-- R165. -/
theorem nor_wired : WiredAsFormatR .nor (fun _ a b => -(bitOr a b) - 1) where
  noLoad _ _ _ _ := rfl
  noStore _ _ _ _ := rfl
  noBranch _ _ _ _ := rfl
  writesRd _ _ _ _ := rfl
  inEX _ _ _ _ _ _ _ _ _ := rfl
  sequential _ _ _ _ _ := rfl

/-- Settles O22: the three are wired as format R, and the ranges are those of the OR and the AND. -/
theorem andOrNor : Obligations.AndOrNor := by
  unfold Obligations.AndOrNor
  refine ⟨and_wired.regRegRule, or_wired.regRegRule, nor_wired.regRegRule, fun a b ha hb => ?_⟩
  have hor := bitOr_range ha hb
  exact ⟨bitAnd_range ha hb, hor, by unfold InRange32 at *; omega⟩

/-- R13: the low 32 bits as a signed number are the balanced remainder. -/
theorem sext_low32 (v : Int) : sext 32 (low32 v) = Int.bmod v 4294967296 := by
  simp only [sext, low32, Int.bmod_def]
  norm_num

/-- R166, D14: `SLT` compares by `SLT_MODE`. -/
theorem aluSlt_eq (c : Config) (a b : Int) (imm : Int) :
    aluSlt c a b = checkAlu (aluTable c (.slt 0 0 0 imm) a b 0) := by
  unfold aluSlt aluTable
  cases c.sltMode <;> simp only [sext_low32]

/-- Settles O23: `SLT` is wired as format R with the comparison of its mode, `SLTU` with that of the low bits. -/
theorem sltAndSltu : Obligations.SltAndSltu := by
  unfold Obligations.SltAndSltu
  refine ⟨WiredAsFormatR.regRegRule ?slt, WiredAsFormatR.regRegRule ?sltu⟩
  case slt =>
    refine ⟨fun _ _ _ _ => rfl, fun _ _ _ _ => rfl, fun _ _ _ _ => rfl, fun _ _ _ _ => rfl,
      fun _ _ _ imm c _ a b _ => aluSlt_eq c a b imm, fun rd rs rt imm s => ?_⟩
    exact congrArg (fun f => (seqRdRsRt f rd rs rt s).toOutcome) (funext₂ fun a b => aluSlt_eq s.cfg a b imm)
  case sltu =>
    exact ⟨fun _ _ _ _ => rfl, fun _ _ _ _ => rfl, fun _ _ _ _ => rfl, fun _ _ _ _ => rfl,
      fun _ _ _ _ _ _ _ _ _ => rfl, fun _ _ _ _ _ => rfl⟩

/-! ### Format I -/

/-- Format I: with a legal slot the operand is read, and the ALU's answer is committed. -/
theorem seqRdRs_eq (f : Int → Int → Res Int) (rd : Nat) {rs : Nat} (imm : Int) (s : State) (hrs : rs < 32) :
    seqRdRs f rd rs imm s = f (s.reg rs) imm >>= commitAndAdvance s rd := by
  rw [seqRdRs, readReg_lt hrs, ok_bind]

/-- Where the model's functions place the format I instructions `mk` with ALU function `f`: no access and no branch,
`rd` the destination, and one checked result in the EX stage and in the sequential meaning. -/
structure WiredAsFormatI (mk : Nat → Nat → Int → Instr) (f : Int → Int → Int) : Prop where
  noLoad : ∀ rd rs imm, isLoad (mk rd rs imm) = false
  noStore : ∀ rd rs imm, isStore (mk rd rs imm) = false
  noBranch : ∀ rd rs imm, isBranch (mk rd rs imm) = false
  writesRd : ∀ rd rs imm, dest (mk rd rs imm) = some rd
  inEX : ∀ rd rs imm c line a b im, alu c ⟨⟨mk rd rs imm, line⟩, some a, b, im⟩ = checkAlu (f a im)
  sequential : ∀ rd rs imm s,
    exec (mk rd rs imm) s = (seqRdRs (fun a im => checkAlu (f a im)) rd rs imm s).toOutcome

namespace WiredAsFormatI

variable {mk : Nat → Nat → Int → Instr} {f : Int → Int → Int}

/-- The sequential meaning is the result check on the register named and the immediate, then the commit. -/
theorem exec_eq (h : WiredAsFormatI mk f) (rd : Nat) {rs : Nat} (imm : Int) (s : State) (hrs : rs < 32) :
    exec (mk rd rs imm) s = (checkAlu (f (s.reg rs) imm) >>= commitAndAdvance s rd).toOutcome := by
  rw [h.sequential, seqRdRs_eq _ rd imm s hrs]

/-- The template of format I holds of every instruction wired so. -/
theorem regImmRule (h : WiredAsFormatI mk f) : RegImmRule mk f := by
  intro rd rs imm hrd hrs
  refine ⟨fun c line a rtv im => ?inEX, fun s hop => ?inMEM, fun s hop => ?inWB, fun s hr hpc => ?completes,
    fun s hr => ?overflows⟩
  case inEX => exact nextMEM_of_checkAlu (h.inEX ..) (h.noBranch ..)
  case inMEM => exact nextWB_of_noAccess (by rw [hop, h.noLoad]) (by rw [hop, h.noStore])
  case inWB => exact commit_of_dest (by rw [hop, h.writesRd])
  case completes =>
    rw [h.exec_eq rd imm s hrs]
    exact checkedCommit_retires hrd hr hpc
  case overflows =>
    rw [h.exec_eq rd imm s hrs]
    exact checkedCommit_overflows s rd hr

end WiredAsFormatI

/-- R180. -/
theorem addi_wired : WiredAsFormatI .addi (fun a imm => a + imm) where
  noLoad _ _ _ := rfl
  noStore _ _ _ := rfl
  noBranch _ _ _ := rfl
  writesRd _ _ _ := rfl
  inEX _ _ _ _ _ _ _ _ := rfl
  sequential _ _ _ _ := rfl

/-- R181. -/
theorem andi_wired : WiredAsFormatI .andi bitAnd where
  noLoad _ _ _ := rfl
  noStore _ _ _ := rfl
  noBranch _ _ _ := rfl
  writesRd _ _ _ := rfl
  inEX _ _ _ _ _ _ _ _ := rfl
  sequential _ _ _ _ := rfl

/-- R182. -/
theorem ori_wired : WiredAsFormatI .ori bitOr where
  noLoad _ _ _ := rfl
  noStore _ _ _ := rfl
  noBranch _ _ _ := rfl
  writesRd _ _ _ := rfl
  inEX _ _ _ _ _ _ _ _ := rfl
  sequential _ _ _ _ := rfl

/-- Settles O24: `ADDI` is wired as format I, with the exact sum. -/
theorem addImmediate : Obligations.AddImmediate := by
  unfold Obligations.AddImmediate
  exact addi_wired.regImmRule

/-- Settles O25: both are wired as format I, on the wide values. -/
theorem andiAndOri : Obligations.AndiAndOri := by
  unfold Obligations.AndiAndOri
  exact ⟨andi_wired.regImmRule, ori_wired.regImmRule⟩

/-! ### Shifts -/

/-- Format SH: with a legal slot the operand is read, and the ALU's answer is committed. -/
theorem seqRdRt_eq (f : Int → Int → Res Int) (rd : Nat) {rt : Nat} (imm : Int) (s : State) (hrt : rt < 32) :
    seqRdRt f rd rt imm s = f (s.reg rt) imm >>= commitAndAdvance s rd := by
  rw [seqRdRt, readReg_lt hrt, ok_bind]

/-- R184: the sequential `SLL` is its ALU function on the register named, then the commit. -/
theorem exec_sll (rd : Nat) {rt : Nat} (imm : Int) (s : State) (hrt : rt < 32) :
    exec (.sll rd rt imm) s = (aluSll s.cfg (s.reg rt) imm >>= commitAndAdvance s rd).toOutcome := by
  rw [← seqRdRt_eq _ rd imm s hrt]; rfl

/-- R185: the sequential `SRL` is its ALU function on the register named, then the commit. -/
theorem exec_srl (rd : Nat) {rt : Nat} (imm : Int) (s : State) (hrt : rt < 32) :
    exec (.srl rd rt imm) s = (aluSrl s.cfg (s.reg rt) imm >>= commitAndAdvance s rd).toOutcome := by
  rw [← seqRdRt_eq _ rd imm s hrt]; rfl

/-- R186: where the amount is legal, or taken mod 32, it is the amount of the ALU table. -/
theorem shiftAmount_ok {c : Config} {imm : Int} (h : c.shamtMode = .mod32 ∨ (0 ≤ imm ∧ imm ≤ 31)) :
    shiftAmount c imm = .ok (amountOf c imm) := by
  unfold shiftAmount amountOf
  cases hmode : c.shamtMode with
  | mod32 => rfl
  | fault =>
    rw [hmode] at h
    exact if_pos (h.resolve_left (by decide))

/-- R186: a legal amount is itself, under both settings. -/
theorem amountOf_legal (c : Config) {n : Nat} (hn : n ≤ 31) : amountOf c n = n := by
  unfold amountOf
  cases c.shamtMode <;> simp only <;> omega

/-- The balanced remainder of 32 bits is a register value. -/
theorem bmod32_range (v : Int) : InRange32 (Int.bmod v 4294967296) := by
  have hlo := Int.le_bmod (x := v) (m := 4294967296) (by decide)
  have hhi := Int.bmod_lt (x := v) (m := 4294967296) (by decide)
  unfold InRange32; omega

/-- R184: `SLL` answers the low 32 bits of the product as a signed number, or under `rangecheck` the product is the
overflow. -/
theorem aluSll_eq {c : Config} {imm : Int} (b : Int)
    (h : c.shamtMode = .mod32 ∨ (0 ≤ imm ∧ imm ≤ 31)) :
    aluSll c b imm = checkAlu (aluTable c (.sll 0 0 imm) 0 b imm) := by
  simp only [aluSll, shiftAmount_ok h, ok_bind, aluTable, sext_low32, Nat.cast_pow, Nat.cast_ofNat]
  rw [low32]
  generalize b % 4294967296 * 2 ^ amountOf c imm = wide
  cases hmode : c.sllMode with
  | truncate32 => simp
  | rangecheck =>
    by_cases hwide : wide < 4294967296
    · simp [hwide, not_le.2 hwide]
    · have hover : ¬ InRange32 wide := by unfold InRange32; omega
      simp [hwide, not_lt.1 hwide, checkAlu_raise hover]

/-- R185: `SRL` answers the low 32 bits divided by the power of two. -/
theorem aluSrl_eq {c : Config} {imm : Int} (b : Int)
    (h : c.shamtMode = .mod32 ∨ (0 ≤ imm ∧ imm ≤ 31)) :
    aluSrl c b imm = checkAlu (aluTable c (.srl 0 0 imm) 0 b imm) := by
  simp only [aluSrl, shiftAmount_ok h, ok_bind, aluTable, low32, Nat.cast_pow, Nat.cast_ofNat]

/-- Settles O27: the ALU's answer is the low 32 bits of the product, or the product out of range. -/
theorem shiftLeftLogical : Obligations.ShiftLeftLogical := by
  unfold Obligations.ShiftLeftLogical
  intro rd rt n s hrd hrt hn hpc wide
  have halu : aluSll s.cfg (s.reg rt) n =
      checkAlu (if s.cfg.sllMode = .rangecheck ∧ 4294967296 ≤ wide then wide else Int.bmod wide 4294967296) := by
    rw [aluSll_eq _ (.inr (by omega))]
    simp only [aluTable, amountOf_legal _ hn, wide]
  clear_value wide
  rw [exec_sll rd n s hrt, halu]
  refine ⟨fun h => ?completes, fun hmode hwide => ?overflows⟩
  case completes =>
    have hfits : ¬ (s.cfg.sllMode = .rangecheck ∧ 4294967296 ≤ wide) := by
      rintro ⟨hmode, hwide⟩
      exact h.elim (by simp [hmode]) (not_lt.2 hwide)
    rw [if_neg hfits]
    exact checkedCommit_retires hrd (bmod32_range wide) hpc
  case overflows =>
    rw [if_pos ⟨hmode, not_lt.1 hwide⟩]
    exact checkedCommit_overflows s rd (by unfold InRange32; omega)

/-- R185: a quotient of the low 32 bits is a register value. -/
theorem shiftedRight_range (b : Int) (n : Nat) : InRange32 (b % 4294967296 / 2 ^ n) := by
  have hlo : 0 ≤ b % 4294967296 / 2 ^ n := Int.ediv_nonneg (by omega) (by positivity)
  have hhi := Int.ediv_le_self (b := 2 ^ n) (a := b % 4294967296) (by omega)
  unfold InRange32
  omega

/-- Settles O28: the ALU's answer is the quotient, which is always in range. -/
theorem shiftRightLogical : Obligations.ShiftRightLogical := by
  unfold Obligations.ShiftRightLogical
  intro rd rt n s hrd hrt hn hpc
  have halu : aluSrl s.cfg (s.reg rt) n = checkAlu (s.reg rt % 4294967296 / 2 ^ n) := by
    rw [aluSrl_eq _ (.inr (by omega))]
    simp only [aluTable, amountOf_legal _ hn]
  rw [exec_srl rd n s hrt, halu]
  exact checkedCommit_retires hrd (shiftedRight_range _ n) hpc

/-- R186: under `fault` an amount outside 0 to 31 stops the shift. -/
theorem shiftAmount_illegal {c : Config} {imm : Int} (hmode : c.shamtMode = .fault) (h : imm < 0 ∨ 31 < imm) :
    shiftAmount c imm = raise (.invalidShiftAmount imm) := by
  rw [shiftAmount, hmode]
  exact if_neg (by omega)

/-- R186: under `mod32` the amount counts mod 32 only. -/
theorem shiftAmount_mod32 {c : Config} (hmode : c.shamtMode = .mod32) (imm : Int) :
    shiftAmount c (imm % 32) = shiftAmount c imm := by
  simp only [shiftAmount, hmode, Int.emod_emod]

/-- R186: a shift by an amount outside 0 to 31 stops under `fault`, and is one by the amount mod 32 under `mod32`. -/
theorem exec_shift_illegalAmount (rd : Nat) {rt : Nat} {imm : Int} (s : State) (hrt : rt < 32) (himm : imm < 0 ∨ 31 < imm) :
    (s.cfg.shamtMode = .fault →
      exec (.sll rd rt imm) s = .fault (.invalidShiftAmount imm) ∧ exec (.srl rd rt imm) s = .fault (.invalidShiftAmount imm)) ∧
    (s.cfg.shamtMode = .mod32 →
      exec (.sll rd rt imm) s = exec (.sll rd rt (imm % 32)) s ∧ exec (.srl rd rt imm) s = exec (.srl rd rt (imm % 32)) s) := by
  simp only [exec_sll rd _ s hrt, exec_srl rd _ s hrt]
  refine ⟨fun hmode => ?fault, fun hmode => ?mod32⟩
  case fault =>
    simp only [aluSll, aluSrl, shiftAmount_illegal hmode himm, raise_bind, toOutcome_raise, and_self]
  case mod32 => simp only [aluSll, aluSrl, shiftAmount_mod32 hmode, and_self]

end Sys2Proof.Machine

namespace Sys2Proof

/-- Settles O29: both shifts go through the model's own check of the amount. -/
theorem shiftAmount : Obligations.ShiftAmount := by
  unfold Obligations.ShiftAmount
  exact fun rd rt imm s => Machine.exec_shift_illegalAmount rd s

end Sys2Proof
end

section
/-! The remaining stores, the jump and the two instructions without operands (spec/43_load_store.md R207, R208,
spec/44_control_transfer.md R222, spec/45_system.md). -/

namespace Sys2Proof.Machine

/-- R207. -/
theorem sh_wired : WiredAsStore .sh 2 where
  store _ _ _ := rfl
  size _ _ _ := rfl
  noDest _ _ _ := rfl
  sequential _ _ _ _ := rfl

/-- R208. -/
theorem sb_wired : WiredAsStore .sb 1 where
  store _ _ _ := rfl
  size _ _ _ := rfl
  noDest _ _ _ := rfl
  sequential _ _ _ _ := rfl

/-- Settles O32: each is wired as a store of its size. -/
theorem storeHalfAndByte : Obligations.StoreHalfAndByte := by
  unfold Obligations.StoreHalfAndByte
  exact ⟨sh_wired.storeRule, sb_wired.storeRule⟩

/-- R222, R240, R241: an instruction whose ALU result is idle enters MEM with the result 0. -/
theorem nextMEM_of_idle {c : Config} {e : EXRec} (halu : alu c e = aluIdle) (hbranch : isBranch e.instr.op = false) :
    nextMEM c e = .ok ⟨e.instr, 0, e.rtValue, true, 0⟩ := by
  have hzero : InRange32 0 := by decide
  rw [nextMEM_of_checkAlu halu hbranch, if_pos hzero]
  rfl

/-- Settles O34: the sequential meaning is the transfer of control to the immediate. -/
theorem jump : Obligations.Jump := by
  unfold Obligations.Jump
  intro imm
  refine ⟨rfl, rfl, rfl, fun _ _ _ _ _ => nextMEM_of_idle rfl rfl, fun s h => goTo_retires h,
    fun s h => ?outOfRange, fun s hlo hhi hal => ?misaligned⟩
  case outOfRange => exact toOutcome_eq_fault.2 (goTo_raise (checkInstrAddr_outOfRange h))
  case misaligned => exact toOutcome_eq_fault.2 (goTo_raise (checkInstrAddr_misaligned hlo hhi hal))

/-- Settles O35: the sequential meaning is the transfer of control to the next address. -/
theorem noOperation : Obligations.NoOperation := by
  unfold Obligations.NoOperation
  intro imm
  refine ⟨rfl, rfl, rfl, fun _ _ _ _ _ => nextMEM_of_idle rfl rfl, fun s hop => ?inMEM, fun s h => goTo_retires h,
    fun s h => ?top⟩
  case inMEM => exact nextWB_of_noAccess (by rw [hop]; rfl) (by rw [hop]; rfl)
  case top =>
    have hbad := goTo_raise (checkInstrAddr_outOfRange (c := s.cfg) (a := s.pc + 4) (.inr h.ge))
    rw [h] at hbad
    exact toOutcome_eq_fault.2 (by rw [advance, h, hbad])

/-- Settles O36: nothing is read or written, and the one effect is the status. -/
theorem systemCall : Obligations.SystemCall := by
  unfold Obligations.SystemCall
  intro imm
  refine ⟨rfl, rfl, rfl, fun _ _ _ _ _ => nextMEM_of_idle rfl rfl, fun s hop => ?inMEM, fun s => rfl⟩
  case inMEM => exact nextWB_of_noAccess (by rw [hop]; rfl) (by rw [hop]; rfl)

end Sys2Proof.Machine
end

section
/-! The sequential meaning of an instruction is the pipeline's stages in sequence, and is never refused
(spec/41_alu_register.md, template; spec/60_exceptions.md R251). -/

namespace Sys2Proof.Machine

/-! ### The advance behind a commit or an access -/

/-- A register write leaves the program counter, so the advance behind it goes to the next address. -/
theorem commitAndAdvance_eq (s : State) (rd : Nat) (v : Int) :
    commitAndAdvance s rd v = writeReg s rd v >>= fun t => goTo t (s.pc + 4) := by
  unfold commitAndAdvance
  cases hw : writeReg s rd v with
  | error e => rfl
  | ok t =>
    obtain ⟨-, -, rfl⟩ := writeReg_eq_ok.1 hw
    simp only [ok_bind, advance, setReg_pc]

/-- A load leaves the program counter, so the advance behind its commit goes to the next address. -/
theorem memRead_commitAndAdvance (s : State) (a : Int) (n : Nat) (sg : Bool) (rd : Nat) :
    (memRead s a n sg >>= fun p => commitAndAdvance p.2 rd p.1) =
      memRead s a n sg >>= fun p => writeReg p.2 rd p.1 >>= fun t => goTo t (s.pc + 4) := by
  cases hr : memRead s a n sg with
  | error e => rfl
  | ok p =>
    obtain ⟨m, hm⟩ := memRead_frame hr
    simp only [ok_bind, commitAndAdvance_eq, hm]
    rfl

/-- A store leaves the program counter, so the advance behind it goes to the next address. -/
theorem memWrite_advance (s : State) (a : Int) (n : Nat) (v : Int) :
    memWrite s a n v >>= advance = memWrite s a n v >>= fun t => goTo t (s.pc + 4) := by
  cases hw : memWrite s a n v with
  | error e => rfl
  | ok t =>
    obtain ⟨-, -, rfl⟩ := memWrite_eq_ok.1 hw
    rfl

/-! ### The stages of each class of instruction -/

/-- The MEM record of an instruction whose ALU result is `x` (R115). -/
def memRecordOf (e : EXRec) (x : Int) : MEMRec where
  instr := e.instr
  aluResult := x
  rtValue := e.rtValue
  zero := zeroFlag x
  branchTarget := if isBranch e.instr.op then e.imm else 0

/-- The commit of a value to a destination, if there is one (R111). -/
def writeDest (s : State) (d : Option Nat) (v : Int) : Res State :=
  match d with
  | some rd => writeReg s rd v
  | none => .ok s

/-- The address that the stages go to (R112). -/
def targetOf (s : State) (m : MEMRec) : Int :=
  if isJump m.instr.op then m.instr.op.imm else if takenBranch m then m.branchTarget else s.pc + 4

/-- What follows an answer depends on the answer only. -/
theorem bind_congr_ok {α β : Type} {x : Res α} {f g : α → Res β} (h : ∀ a, x = .ok a → f a = g a) :
    x >>= f = x >>= g := by
  cases x with
  | error e => rfl
  | ok a => exact h a rfl

/-- A register read answers what the register reads as. -/
theorem readReg_bind {α : Type} (s : State) (i : Nat) (f : Int → Res α) :
    readReg s i >>= f = readReg s i >>= fun _ => f (s.reg i) :=
  bind_congr_ok fun _ h => by rw [(readReg_eq_ok.1 h).2]

/-- The operand read, the ALU, the access, the commit and the next address, on the registers of one state. -/
theorem stagesOf_eq (r : InstrRec) (s : State) : stagesOf r s =
    nextEX s ⟨r⟩ >>= fun _ => alu s.cfg (exRecordOf s r) >>= fun x =>
      access s (memRecordOf (exRecordOf s r) x) >>= fun p => writeDest p.2 (dest r.op) p.1 >>= fun t =>
        goTo t (targetOf s (memRecordOf (exRecordOf s r) x)) := by
  refine bind_congr_ok fun e he => ?_
  obtain ⟨-, -, rfl⟩ := nextEX_eq_ok.1 he
  simp only [nextMEM, bind_assoc, pure_eq_ok, ok_bind]
  refine bind_congr_ok fun x _ => bind_congr_ok fun p _ => ?_
  cases hd : dest r.op <;> rfl

/-- The operand read as a check: the slots are read, and the record is made of the registers. -/
theorem nextEX_bind {α : Type} (s : State) (r : InstrRec) (k : EXRec → Res α) : (nextEX s ⟨r⟩ >>= k) =
    readOperand s (readsRs r.op) >>= fun _ => readOperand s (readsRt r.op) >>= fun _ => k (exRecordOf s r) := by
  simp only [nextEX, bind_assoc, pure_eq_ok, ok_bind]
  refine bind_congr_ok fun a ha => bind_congr_ok fun b hb => ?_
  rw [← (readOperand_eq_ok.1 ha).2, ← (readOperand_eq_ok.1 hb).2]
  rfl

/-- R116: a store's access, on the registers of one state. -/
theorem access_exRecordOf_store {r : InstrRec} {rt : Nat} (s : State) (x : Int) (h : isStore r.op = true)
    (hrt : readsRt r.op = some rt) : access s (memRecordOf (exRecordOf s r) x) =
      memWrite s x (accessSize r.op) (s.reg rt) >>= fun t => .ok (x, t) :=
  access_of_store s h (by simp [memRecordOf, exRecordOf, hrt])

/-- The stages of every instruction but `SYSCALL`, in sequence, are its sequential meaning. -/
theorem exec_eq_stagesOf (i : Instr) (line : Option Nat) (s : State) (h : isSyscall i = false) :
    exec i s = (stagesOf { op := i, line := line } s).toOutcome := by
  rw [stagesOf_eq, nextEX_bind]
  cases i
  case syscall => cases h
  case nop | j => rfl
  case add | sub | and | or | nor | slt | sltu =>
    simp only [exec, execAdd, execSub, execAnd, execOr, execNor, execSlt, execSltu, seqRdRsRt, readOperand, readsRs,
      readsRt, Instr.rs?, Instr.rt?, bind_assoc, readReg_bind, pure_eq_ok, ok_bind, commitAndAdvance_eq]
    rfl
  case sll | srl =>
    simp only [exec, execSll, execSrl, seqRdRt, readOperand, readsRs, readsRt, Instr.rs?, Instr.rt?, bind_assoc,
      readReg_bind, pure_eq_ok, ok_bind, commitAndAdvance_eq]
    rfl
  case addi | andi | ori =>
    simp only [exec, execAddi, execAndi, execOri, seqRdRs, readOperand, readsRs, readsRt, Instr.rs?, Instr.rt?,
      bind_assoc, readReg_bind, pure_eq_ok, ok_bind, commitAndAdvance_eq]
    rfl
  case lui =>
    simp only [exec, execLui, seqRd, readOperand, readsRs, readsRt, Instr.rs?, Instr.rt?, ok_bind, commitAndAdvance_eq]
    rfl
  case lw | lh | lhu | lb | lbu =>
    simp only [exec, execLw, execLh, execLhu, execLb, execLbu, seqLoad, accessLw, accessLh, accessLhu, accessLb,
      accessLbu, readOperand, readsRs, readsRt, Instr.rs?, Instr.rt?, bind_assoc, readReg_bind, pure_eq_ok, ok_bind,
      memRead_commitAndAdvance]
    rfl
  case sw | sh | sb =>
    simp only [exec, execSw, execSh, execSb, seqStore, readOperand, readsRs, readsRt, Instr.rs?, Instr.rt?, bind_assoc,
      readReg_bind, pure_eq_ok, ok_bind]
    refine congrArg Res.toOutcome (bind_congr_ok fun _ _ => bind_congr_ok fun _ _ => bind_congr_ok fun x _ => ?_)
    rw [access_exRecordOf_store s x rfl rfl, bind_assoc]
    exact memWrite_advance ..
  case beq | bne =>
    simp only [exec, execBeq, execBne, seqBranch, readOperand, readsRs, readsRt, Instr.rs?, Instr.rt?, bind_assoc,
      readReg_bind, pure_eq_ok, ok_bind, advance, ← apply_ite (goTo s)]
    rfl

/-- Settles O38: one rule per format, on the same operations bound in the same order. -/
theorem execIsTheStagesInSequence : Obligations.ExecIsTheStagesInSequence := by
  unfold Obligations.ExecIsTheStagesInSequence
  exact exec_eq_stagesOf

/-! ### How a computation can stop -/

/-- Wherever the computation stops, it stops so. -/
def StopsBy {α : Type} (P : Stop → Prop) (x : Res α) : Prop := ∀ e, x = .error e → P e

/-- A fault, no refusal. -/
def IsFault (e : Stop) : Prop := ∃ f, e = .fault f

/-- A fault that is none of the register file's. -/
def IsPathFault (e : Stop) : Prop :=
  ∃ f, e = .fault f ∧ (∀ i, f ≠ .invalidRegisterNumber i) ∧ ∀ v, f ≠ .registerValueRange v

theorem IsPathFault.isFault {e : Stop} (h : IsPathFault e) : IsFault e := by
  obtain ⟨f, hf, -⟩ := h
  exact ⟨f, hf⟩

section
variable {α β : Type} {P Q : Stop → Prop}

@[simp] theorem stopsBy_ok (a : α) : StopsBy P (.ok a : Res α) := fun _ h => by cases h

@[simp] theorem stopsBy_raise (f : Fault) : StopsBy P (raise f : Res α) ↔ P (.fault f) :=
  ⟨fun h => h _ rfl, fun h e he => by cases he; exact h⟩

theorem StopsBy.mono {x : Res α} (h : StopsBy P x) (hPQ : ∀ e, P e → Q e) : StopsBy Q x := fun e he => hPQ e (h e he)

theorem StopsBy.bind {x : Res α} {f : α → Res β} (hx : StopsBy P x) (hf : ∀ a, x = .ok a → StopsBy P (f a)) :
    StopsBy P (x >>= f) := fun e h => by
  obtain hstop | ⟨a, ha, hstop⟩ := bind_eq_error.1 h
  · exact hx e hstop
  · exact hf a ha e hstop

theorem StopsBy.ite {p : Prop} [Decidable p] {x y : Res α} (hx : StopsBy P x) (hy : StopsBy P y) :
    StopsBy P (if p then x else y) := by split <;> assumption

end

@[simp] theorem isFault_fault (f : Fault) : IsFault (.fault f) := ⟨f, rfl⟩

@[simp] theorem isPathFault_fault (f : Fault) : IsPathFault (.fault f) ↔
    (∀ i, f ≠ .invalidRegisterNumber i) ∧ ∀ v, f ≠ .registerValueRange v := by
  simp [IsPathFault]

theorem stopsBy_checkAlu (v : Int) : StopsBy IsPathFault (checkAlu v) := .ite (by simp) (by simp)

theorem stopsBy_shiftAmount (c : Config) (imm : Int) : StopsBy IsPathFault (shiftAmount c imm) := by
  unfold shiftAmount
  split
  · exact .ite (by simp) (by simp)
  · simp

theorem stopsBy_readReg (s : State) (i : Nat) : StopsBy IsFault (readReg s i) := .ite (by simp) (by simp)

theorem stopsBy_writeDest (s : State) (d : Option Nat) (v : Int) : StopsBy IsFault (writeDest s d v) := by
  cases d with
  | none => simp [writeDest]
  | some rd => exact .ite (by simp) (.ite (by simp) (by simp))

theorem stopsBy_readOperand (s : State) (slot : Option Nat) : StopsBy IsFault (readOperand s slot) := by
  cases slot with
  | none => simp [readOperand]
  | some r => exact .bind (stopsBy_readReg s r) (by simp)

theorem stopsBy_fetch (s : State) (a : Int) : StopsBy IsPathFault (fetch s a) :=
  .bind (.bind (.ite (by simp) (.ite (by simp) (by simp))) (by simp)) (by simp)

theorem stopsBy_goTo (s : State) (a : Int) : StopsBy IsPathFault (goTo s a) := .bind (stopsBy_fetch s a) (by simp)

theorem stopsBy_validate (c : Config) (a : Int) (n : Nat) : StopsBy IsPathFault (validate c a n) :=
  .ite (by simp) (.ite (by simp) (.ite (by simp) (by simp)))

theorem stopsBy_memRead (s : State) (a : Int) (n : Nat) (sg : Bool) : StopsBy IsPathFault (memRead s a n sg) := by
  refine .bind (stopsBy_validate _ _ _) fun k _ => .bind (fun e h => ?_) (by simp)
  obtain ⟨_, rfl⟩ := readBytes_error h
  simp

theorem stopsBy_memWrite (s : State) (a : Int) (n : Nat) (v : Int) : StopsBy IsPathFault (memWrite s a n v) := by
  refine .bind (stopsBy_validate _ _ _) fun k _ => .bind (fun e h => ?_) (by simp)
  rw [checkStoreValue_error h]
  simp

/-- R114: an operand that is there is read. -/
theorem stopsBy_operand {P : Stop → Prop} {o : Option Int} (h : o.isSome) : StopsBy P (operand o) := by
  obtain ⟨v, rfl⟩ := Option.isSome_iff_exists.1 h
  exact stopsBy_ok v

/-- The operands the instruction of an EX record reads are there (10_state.md R35). -/
structure HasOperands (e : EXRec) : Prop where
  rs : (readsRs e.instr.op).isSome → e.rsValue.isSome
  rt : (readsRt e.instr.op).isSome → e.rtValue.isSome

/-- R115: with its operands there, the ALU answers, or faults by its own checks. -/
theorem stopsBy_alu (c : Config) {e : EXRec} (h : HasOperands e) : StopsBy IsPathFault (alu c e) := by
  obtain ⟨hrs, hrt⟩ := h
  have onRsRt {f : Int → Int → Res Int} (h1 : e.rsValue.isSome) (h2 : e.rtValue.isSome)
      (hf : ∀ a b, StopsBy IsPathFault (f a b)) : StopsBy IsPathFault (onRsRt f e) :=
    .bind (stopsBy_operand h1) fun _ _ => .bind (stopsBy_operand h2) fun _ _ => hf _ _
  have onRsImm {f : Int → Int → Res Int} (h1 : e.rsValue.isSome) (hf : ∀ a b, StopsBy IsPathFault (f a b)) :
      StopsBy IsPathFault (onRsImm f e) := .bind (stopsBy_operand h1) fun _ _ => hf _ _
  have onRtImm {f : Int → Int → Res Int} (h2 : e.rtValue.isSome) (hf : ∀ a b, StopsBy IsPathFault (f a b)) :
      StopsBy IsPathFault (onRtImm f e) := .bind (stopsBy_operand h2) fun _ _ => hf _ _
  unfold alu
  cases hop : e.instr.op <;> rw [hop] at hrs hrt
  case nop | j | syscall | lui => exact stopsBy_checkAlu _
  case slt => exact onRsRt (hrs rfl) (hrt rfl) fun a b => by rw [aluSlt_eq c a b 0]; exact stopsBy_checkAlu _
  case sll =>
    refine onRtImm (hrt rfl) fun b im => .bind (stopsBy_shiftAmount c im) fun n _ => ?_
    split
    · exact stopsBy_checkAlu _
    · exact .ite (stopsBy_checkAlu _) (by simp)
  case srl => exact onRtImm (hrt rfl) fun b im => .bind (stopsBy_shiftAmount c im) fun _ _ => stopsBy_checkAlu _
  case add | sub | and | or | nor | sltu | beq | bne =>
    exact onRsRt (hrs rfl) (hrt rfl) fun _ _ => stopsBy_checkAlu _
  all_goals exact onRsImm (hrs rfl) fun _ _ => stopsBy_checkAlu _

/-- R116: with its store data there, the access answers, or faults by the checks of data memory. -/
theorem stopsBy_access (s : State) {m : MEMRec} (h : isStore m.instr.op = true → m.rtValue.isSome) :
    StopsBy IsPathFault (access s m) := by
  by_cases hload : isLoad m.instr.op = true
  · rw [access_of_load s hload]; exact stopsBy_memRead _ _ _ _
  by_cases hstore : isStore m.instr.op = true
  · obtain ⟨v, hv⟩ := Option.isSome_iff_exists.1 (h hstore)
    rw [access_of_store s hstore hv]
    exact .bind (stopsBy_memWrite _ _ _ _) (by simp)
  · rw [access_of_noAccess s (by simpa using hload) (by simpa using hstore)]; simp

/-- A store reads its data from `rt`. -/
theorem readsRt_isSome_of_store {i : Instr} (h : isStore i = true) : (readsRt i).isSome := by
  cases i <;> simp_all [isStore, readsRt, Instr.rt?]

/-- The operands read from the registers are those the instruction reads. -/
theorem hasOperands_exRecordOf (s : State) (r : InstrRec) : HasOperands (exRecordOf s r) := by
  constructor <;> simp [exRecordOf]

/-- The stages of an instruction stop by faults only, the operands being read from the registers. -/
theorem stopsBy_stagesOf (r : InstrRec) (s : State) : StopsBy IsFault (stagesOf r s) := by
  rw [stagesOf_eq, nextEX_bind]
  refine .bind (stopsBy_readOperand _ _) fun _ _ => .bind (stopsBy_readOperand _ _) fun _ _ =>
    .bind ((stopsBy_alu _ (hasOperands_exRecordOf s r)).mono fun _ => IsPathFault.isFault) fun x _ =>
    .bind ((stopsBy_access s fun hstore => ?_).mono fun _ => IsPathFault.isFault) fun _ _ =>
    .bind (stopsBy_writeDest _ _ _) fun _ _ => (stopsBy_goTo _ _).mono fun _ => IsPathFault.isFault
  have hrt := readsRt_isSome_of_store hstore
  simpa [memRecordOf, exRecordOf] using hrt

/-- Settles O37: every instruction but `SYSCALL` is its stages in sequence, and those stop by faults only. -/
theorem noInstructionIsRefused : Obligations.NoInstructionIsRefused := by
  unfold Obligations.NoInstructionIsRefused
  intro i s r _ h
  by_cases hsys : isSyscall i = true
  · cases i <;> simp [isSyscall, exec, execSyscall] at hsys h
  · rw [exec_eq_stagesOf i none s (by simpa using hsys)] at h
    obtain ⟨f, hf⟩ := stopsBy_stagesOf _ s _ (toOutcome_eq_refused.1 h)
    cases hf

end Sys2Proof.Machine
end

section
/-! Data memory accesses depend on data memory, the count of free values and the parameters alone
(spec/20_memory.md R55 to R62). -/

namespace Sys2Proof.Machine

/-- What an access of data memory depends on is the same in both states. -/
structure SameData (s t : State) : Prop where
  dmem : t.dmem = s.dmem
  fresh : t.fresh = s.fresh
  cfg : t.cfg = s.cfg

/-- The result of an access, with its change of data memory made in another state. -/
def State.takeData (t s : State) : State := (t.withDmem s.dmem).withFresh s.fresh

theorem SameData.takeData_eq {s t : State} (h : SameData s t) : t.takeData s = t := by
  rw [State.takeData, ← h.dmem, ← h.fresh]; rfl

theorem SameData.takeData_withFresh {s t : State} (h : SameData s t) (n : Nat) :
    t.takeData (s.withFresh n) = t.withFresh n := by
  rw [State.takeData, State.withFresh_dmem, ← h.dmem]; rfl

section
variable {s t : State}

theorem readByte_congr (h : SameData s t) (a : Nat) :
    readByte t a = readByte s a >>= fun p => .ok (p.1, t.takeData p.2) := by
  unfold readByte dataByte
  rw [h.dmem, h.cfg, h.fresh]
  cases cellAt s.dmem a with
  | some b => simp [h.takeData_eq]
  | none => cases s.cfg.unwrittenRead <;> simp [h.takeData_eq, h.takeData_withFresh]

theorem readBytes_congr (h : SameData s t) (a n : Nat) :
    readBytes t a n = readBytes s a n >>= fun p => .ok (p.1, t.takeData p.2) := by
  induction n generalizing s t a with
  | zero => simp [readBytes, h.takeData_eq]
  | succ n ih =>
    simp only [readBytes, readByte_congr h, bind_assoc, ok_bind, pure_eq_ok]
    refine bind_congr_ok fun p hp => ?_
    obtain ⟨m, hm⟩ := readByte_frame hp
    have hnext : SameData p.2 (t.takeData p.2) := ⟨rfl, rfl, by rw [hm]; exact h.cfg⟩
    simp only [ih hnext, bind_assoc, ok_bind]
    rfl

/-- R58: the same data memory is read alike. -/
theorem memRead_congr (h : SameData s t) (a : Int) (n : Nat) (sg : Bool) :
    memRead t a n sg = memRead s a n sg >>= fun p => .ok (p.1, t.takeData p.2) := by
  simp only [memRead, h.cfg, readBytes_congr h, bind_assoc, ok_bind, pure_eq_ok]

/-- R59: the same data memory is written alike. -/
theorem memWrite_congr (h : SameData s t) (a : Int) (n : Nat) (v : Int) :
    memWrite t a n v = memWrite s a n v >>= fun s1 => .ok (t.takeData s1) := by
  simp only [memWrite, h.cfg, h.dmem, bind_assoc, ok_bind, pure_eq_ok, State.takeData, State.withDmem_dmem,
    State.withDmem_fresh, ← h.fresh]
  rfl

/-- R116: the access of a store is a write of its size, of the store data, once that is there. -/
theorem access_of_storeOperand {m : MEMRec} (s : State) (h : isStore m.instr.op = true) :
    access s m = operand m.rtValue >>= fun v =>
      memWrite s m.aluResult (accessSize m.instr.op) v >>= fun t => .ok (m.aluResult, t) := by
  unfold access
  split <;> simp_all [isStore, storeAccess] <;> rfl

/-- R116: MEM records that differ in the source line make the same access of the same data memory. -/
theorem access_congr (h : SameData s t) {m m' : MEMRec} (hop : m'.instr.op = m.instr.op)
    (hresult : m'.aluResult = m.aluResult) (hrt : m'.rtValue = m.rtValue) :
    access t m' = access s m >>= fun p => .ok (p.1, t.takeData p.2) := by
  by_cases hload : isLoad m.instr.op = true
  · rw [access_of_load s hload, access_of_load t (by rw [hop]; exact hload), hop, hresult, memRead_congr h]
  by_cases hstore : isStore m.instr.op = true
  · rw [access_of_storeOperand s hstore, access_of_storeOperand t (by rw [hop]; exact hstore), hop, hresult, hrt]
    simp only [memWrite_congr h, bind_assoc, ok_bind]
  · rw [access_of_noAccess s (by simpa using hload) (by simpa using hstore),
      access_of_noAccess t (by rw [hop]; simpa using hload) (by rw [hop]; simpa using hstore), hresult, ok_bind,
      h.takeData_eq]

end

end Sys2Proof.Machine
end

section
/-! One executed step, continued (spec/40_pipeline_engine.md R110 to R126): the operands delivered, the ALU, the access,
the hazards of spec/70_reset_and_hazards.md, the run status, and when a step answers. -/

namespace Sys2Proof.Machine

/-! ### Operands -/

/-- R119: an operand no producer's destination matches is left as it was. -/
theorem forwardInto_rsValue_of_not {c : Config} {d : Option Nat} {i : Instr} (v : Int) (e : EXRec)
    (h : ¬ ReadsDest c d (readsRs i)) : (forwardInto c d i v e).rsValue = e.rsValue := if_neg (mt regMatches_iff.1 h)

theorem forwardInto_rtValue_of_not {c : Config} {d : Option Nat} {i : Instr} (v : Int) (e : EXRec)
    (h : ¬ ReadsDest c d (readsRt i)) : (forwardInto c d i v e).rtValue = e.rtValue := if_neg (mt regMatches_iff.1 h)

@[simp] theorem forwardInto_imm (c : Config) (d : Option Nat) (i : Instr) (v : Int) (e : EXRec) :
    (forwardInto c d i v e).imm = e.imm := rfl

/-- R81: a slot that reads no register matches nothing. -/
theorem not_readsDest_none (c : Config) (d : Option Nat) : ¬ ReadsDest c d none := by
  rintro ⟨k, -, hk, -⟩; cases hk

/-- R114, R119, R120: next EX of a step without a squash and a stall. -/
theorem step_exr_advances {s t : State} (he : s.Executes) (h : step s = .next t)
    (htaken : takenBranch s.pipe.memr = false) (hload : ¬ LoadUse s) :
    t.pipe.exr = forwardInto s.cfg (dest s.pipe.exr.instr.op) s.pipe.idr.instr.op t.pipe.memr.aluResult
      (forwardInto s.cfg (dest s.pipe.memr.instr.op) s.pipe.idr.instr.op t.pipe.wbr.result
        (exRecordOf t s.pipe.idr.instr)) := by
  rw [step_exr he h, if_neg (mt stalls_iff.1 hload), htaken]
  rfl

/-- Settles O42: the outer of the two forwards is the EX-stage producer's. -/
theorem operandDelivery : Obligations.OperandDelivery := by
  unfold Obligations.OperandDelivery
  intro s t k he h htaken hload
  rw [step_exr_advances he h htaken hload]
  refine ⟨rfl, rfl, fun hk => ?rs, fun hk => ?rt, fun hnone => ?noRs, fun hnone => ?noRt⟩
  case rs =>
    rw [← hk]
    refine ⟨forwardInto_rsValue _ _, fun hex hmem => ?_, fun hex hmem => ?_⟩
    · rw [forwardInto_rsValue_of_not _ _ hex, forwardInto_rsValue _ _ hmem]
    · rw [forwardInto_rsValue_of_not _ _ hex, forwardInto_rsValue_of_not _ _ hmem]
      simp only [exRecordOf, hk, Option.map_some]
  case rt =>
    rw [← hk]
    refine ⟨forwardInto_rtValue _ _, fun hex hmem => ?_, fun hex hmem => ?_⟩
    · rw [forwardInto_rtValue_of_not _ _ hex, forwardInto_rtValue _ _ hmem]
    · rw [forwardInto_rtValue_of_not _ _ hex, forwardInto_rtValue_of_not _ _ hmem]
      simp only [exRecordOf, hk, Option.map_some]
  case noRs =>
    rw [forwardInto_rsValue_of_not _ _ (by rw [hnone]; exact not_readsDest_none _ _),
      forwardInto_rsValue_of_not _ _ (by rw [hnone]; exact not_readsDest_none _ _)]
    simp only [exRecordOf, hnone, Option.map_none]
  case noRt =>
    rw [forwardInto_rtValue_of_not _ _ (by rw [hnone]; exact not_readsDest_none _ _),
      forwardInto_rtValue_of_not _ _ (by rw [hnone]; exact not_readsDest_none _ _)]
    simp only [exRecordOf, hnone, Option.map_none]

/-- R120: only a load in EX stalls. -/
theorem not_loadUse_of_noLoad {s : State} (h : isLoad s.pipe.exr.instr.op = false) : ¬ LoadUse s := by
  rintro ⟨-, hload⟩
  rw [h] at hload; cases hload

/-- Settles O50: register 0 is one of the registers of `operandDelivery`. -/
theorem zeroDestinationIsForwarded : Obligations.ZeroDestinationIsForwarded := by
  unfold Obligations.ZeroDestinationIsForwarded
  intro s t he htaken hdest hload hrs h
  obtain ⟨-, -, hslot, -⟩ := operandDelivery s t 0 he h htaken (not_loadUse_of_noLoad hload)
  obtain ⟨hforward, -, hregister⟩ := hslot hrs
  refine ⟨reg_zero t, fun hzero => hforward ⟨0, hdest, rfl, by simp [hzero]⟩, fun hzero => ?excluded⟩
  case excluded =>
    have hnone (d : Option Nat) : ¬ ReadsDest s.cfg d (some 0) := by
      rintro ⟨k, -, hk, hallowed⟩
      exact hallowed ⟨hzero, (Option.some.inj hk).symm⟩
    rw [hregister (hnone _) (hnone _), reg_zero]

/-! ### The ALU -/

/-- R115: with the operands it reads, the ALU answers the table's result under the result check. -/
theorem alu_eq_aluTable {c : Config} {e : EXRec} {a b : Int}
    (hrs : ∀ k, readsRs e.instr.op = some k → e.rsValue = some a)
    (hrt : ∀ k, readsRt e.instr.op = some k → e.rtValue = some b)
    (hamount : c.shamtMode = .mod32 ∨ (0 ≤ e.imm ∧ e.imm ≤ 31) ∨
      ∀ rd rt im, e.instr.op ≠ .sll rd rt im ∧ e.instr.op ≠ .srl rd rt im) :
    alu c e = checkAlu (aluTable c e.instr.op a b e.imm) := by
  unfold alu
  cases hop : e.instr.op <;> rw [hop] at hrs hrt
  case nop | j | syscall | lui => rfl
  case add | sub | and | or | nor | sltu | beq | bne => simp only [onRsRt, hrs _ rfl, hrt _ rfl]; rfl
  case slt => simp only [onRsRt, hrs _ rfl, hrt _ rfl]; exact aluSlt_eq c a b 0
  case sll rd rt im =>
    simp only [onRtImm, hrt _ rfl]
    exact aluSll_eq b (hamount.imp id fun h => h.elim id fun h => absurd hop (h rd rt im).1)
  case srl rd rt im =>
    simp only [onRtImm, hrt _ rfl]
    exact aluSrl_eq b (hamount.imp id fun h => h.elim id fun h => absurd hop (h rd rt im).2)
  all_goals simp only [onRsImm, hrs _ rfl]; rfl

/-- Under the invariant the commit and the operand reads answer, so a fault of the ALU is the step's where the fetch
passes its check. -/
theorem step_eq_fault_of_alu {s : State} {f : Fault} (hinv : s.Inv) (he : s.Executes) (hfetch : ∃ x, nextIF s = .ok x)
    (h : alu s.cfg s.pipe.exr = raise f) : step s = .fault f := by
  obtain ⟨committed, hcommit⟩ := commit_ok hinv.wbWellFormed hinv.wbResult
  obtain ⟨x, hx⟩ := hfetch
  have hex := nextEX_eq_ok (s := committed).2
    ⟨readsRs_lt hinv.idWellFormed, readsRt_lt hinv.idWellFormed, rfl⟩
  refine step_eq_fault_of_cycle he ?_
  simp only [cycle, hcommit, hx, hex, nextMEM, h, ok_bind, raise_bind]

/-- Settles O43: what the ALU answers passes its own check, and what fails it is the step's fault. -/
theorem aluStage : Obligations.AluStage := by
  unfold Obligations.AluStage
  intro s a b he hrs hrt hamount r
  have halu : alu s.cfg s.pipe.exr = checkAlu r := alu_eq_aluTable hrs hrt hamount
  clear_value r
  refine ⟨fun t h => ?answers, fun hinv hfetch hr => ?overflows⟩
  case answers =>
    obtain ⟨x, hx, hmemr⟩ := step_memr he h
    obtain ⟨hr, rfl⟩ := checkAlu_eq_ok.1 (halu ▸ hx)
    exact ⟨hr, fun htaken => by rw [hmemr, htaken]; rfl⟩
  case overflows => exact step_eq_fault_of_alu hinv he hfetch (by rw [halu, checkAlu_raise hr])

/-- Settles O51: a squash comes after the ALU's check. -/
theorem wrongPathInstructionFaults : Obligations.WrongPathInstructionFaults := by
  unfold Obligations.WrongPathInstructionFaults
  exact fun s f hinv he _ hfetch halu => step_eq_fault_of_alu hinv he hfetch halu

/-! ### The access -/

/-- The commit leaves data memory. -/
theorem commit_sameData {s t : State} (h : commit s = .ok t) : SameData s t := by
  obtain ⟨-, -, hdmem, -, -, -, hfresh, hcfg⟩ := commit_frame h
  exact ⟨hdmem, hfresh, hcfg⟩

/-- R111, R116: an executed step makes the access of the instruction in MEM, as if before the commit. -/
theorem step_access {s t : State} (he : s.Executes) (h : step s = .next t) :
    ∃ s', access s s.pipe.memr = .ok (t.pipe.wbr.result, s') ∧ t.dmem = s'.dmem ∧ t.fresh = s'.fresh := by
  obtain ⟨committed, accessed, r, v, hcommit, -, -, haccess, -, hdmem, hfresh, hpipe⟩ := step_inversion he h
  rw [access_congr (commit_sameData hcommit) rfl rfl rfl] at haccess
  obtain ⟨⟨v', s'⟩, hs', heq⟩ := bind_eq_ok.1 haccess
  cases heq
  have hresult : t.pipe.wbr.result = v' := by rw [hpipe, resolveHazards_wbr]; rfl
  exact ⟨s', by rw [hresult, hs'], hdmem, hfresh⟩

/-- R59: a write that answers leaves the bytes of the value. -/
theorem storedAt_of_memWrite {s t u : State} {a : Int} {n : Nat} {v : Int} (h : memWrite s a n v = .ok u)
    (hdmem : t.dmem = u.dmem) (hfresh : t.fresh = u.fresh) : StoredAt s t a n v := by
  obtain ⟨ha, hv, -⟩ := memWrite_eq_ok.1 h
  obtain ⟨m, hm, hbytes, -⟩ := memWrite_storedAt ha (hv.imp id fun hv => by simpa [FitsStore] using hv)
  cases h.symm.trans hm
  exact ⟨fun b => by rw [← hbytes b, dataByte, hdmem]; rfl, hfresh⟩

/-- Settles O44: the access is a read, a write or none. -/
theorem accessAndNextWb : Obligations.AccessAndNextWb := by
  unfold Obligations.AccessAndNextWb
  intro s t he h
  obtain ⟨s', haccess, hdmem, hfresh⟩ := step_access he h
  refine ⟨step_wbr_instr he h, fun hload => ?loads, fun hload => ?others, fun hstore a => ?keeps, fun hstore => ?stores⟩
  case loads => exact ⟨s', by rw [← access_of_load s hload, haccess], hfresh⟩
  case others =>
    obtain ⟨hl, -⟩ | ⟨-, -, hv, d, -, hw⟩ | ⟨-, -, hv, rfl⟩ := access_cases haccess
    · rw [hload] at hl; cases hl
    · obtain ⟨-, -, rfl⟩ := memWrite_eq_ok.1 hw
      exact ⟨hv, hfresh⟩
    · exact ⟨hv, hfresh⟩
  case keeps =>
    obtain ⟨d, n, rfl, hd⟩ := access_frame haccess
    rw [dataByte, dataByte, hdmem, State.withFresh_dmem, State.withDmem_dmem, hd hstore]
  case stores =>
    obtain ⟨-, hs, -⟩ | ⟨-, -, -, d, hd, hw⟩ | ⟨-, hs, -⟩ := access_cases haccess
    · rw [hstore] at hs; cases hs
    · exact ⟨d, hd, storedAt_of_memWrite hw hdmem hfresh⟩
    · rw [hstore] at hs; cases hs

/-! ### Hazards -/

/-- No step changes the instruction memory or the parameters. -/
theorem step_imem_cfg {s t : State} (h : step s = .next t) : t.imem = s.imem ∧ t.cfg = s.cfg := by
  obtain ⟨-, -, -, rfl⟩ | ⟨-, -, s1, hcycle, rfl⟩ | ⟨-, rfl⟩ := runTurn_eq_ok.1 (step_eq_next.1 h)
  · exact ⟨rfl, rfl⟩
  · obtain ⟨himem, -, -, -, hcfg⟩ := cycle_frame hcycle
    split <;> exact ⟨himem, hcfg⟩
  · exact ⟨rfl, rfl⟩

/-- An instruction that reads a register is no jump. -/
theorem isJump_of_hitsEx {s : State} (h : HitsEx s) : isJump s.pipe.idr.instr.op = false := by
  cases hop : s.pipe.idr.instr.op
  case j => obtain ⟨_, -, hk, -⟩ | ⟨_, -, hk, -⟩ := h <;> rw [hop] at hk <;> cases hk
  all_goals rfl

/-- A load is no branch. -/
theorem takenBranch_of_load {m : MEMRec} (h : isLoad m.instr.op = true) : takenBranch m = false := by
  unfold takenBranch branchTaken
  cases hop : m.instr.op <;> simp_all [isLoad]

/-- Settles O47: the stall leaves a bubble in EX, and in the next step the load is the MEM-stage producer. -/
theorem loadUseCostsOneCycle : Obligations.LoadUseCostsOneCycle := by
  unfold Obligations.LoadUseCostsOneCycle
  rintro s t u he htaken ⟨hhit, hload⟩ hst hte htu
  obtain ⟨hif, hid, hex, hmem, -⟩ := (loadUseStallOrForward s t he hst htaken hhit).1 hload
  obtain ⟨-, hcfg⟩ := step_imem_cfg hst
  have htaken' : takenBranch t.pipe.memr = false := takenBranch_of_load (by rw [hmem]; exact hload)
  have hnoDest : dest t.pipe.exr.instr.op = none := by rw [hex]; rfl
  have hnoStall : ¬ LoadUse t := not_loadUse_of_noLoad (by rw [hex]; rfl)
  have hexr := step_exr_advances hte htu htaken' hnoStall
  rw [hnoDest, forwardInto_none, hmem, hid, hcfg] at hexr
  refine ⟨hif, hid, by rw [hex]; rfl, by rw [hexr]; rfl, ?nextId, by rw [step_wbr_instr hte htu, hmem], ?rs, ?rt⟩
  case nextId =>
    rw [jumpSquashesItsSuccessor t u hte htu htaken' hnoStall, hid, isJump_of_hitsEx hhit, hif]
    rfl
  case rs => exact fun hreads => by rw [hexr, forwardInto_rsValue _ _ hreads]
  case rt => exact fun hreads => by rw [hexr, forwardInto_rtValue _ _ hreads]

/-- Settles O48: a jump reads no register, so no stall keeps the fetch, and its target has priority. -/
theorem jumpInShadowCapturesTheFetch : Obligations.JumpInShadowCapturesTheFetch := by
  unfold Obligations.JumpInShadowCapturesTheFetch
  intro s t target he htaken hjump h
  obtain ⟨hmem, hex, hwb, hfront⟩ := (takenBranchSquashesThree s t he h).2 htaken
  have hload : ¬ LoadUse s := fun hstall => by simpa [hjump, isJump] using isJump_of_hitsEx hstall.1
  obtain ⟨hid, hif⟩ := hfront hload
  exact ⟨by rw [hif, hjump]; rfl, hid, hex, hmem, hwb⟩

/-- Settles O49: the stall puts back the current IF and ID behind the squash. -/
theorem loadUseInShadowCancelsTheBranch : Obligations.LoadUseInShadowCancelsTheBranch := by
  unfold Obligations.LoadUseInShadowCancelsTheBranch
  intro s t he htaken hload h
  have hstall : stalls s.cfg s.pipe = true := stalls_iff.2 hload
  obtain ⟨hmem, -⟩ := (takenBranchSquashesThree s t he h).2 htaken
  exact ⟨by rw [step_ifr he h, if_pos hstall], by rw [step_idr he h, if_pos hstall],
    by rw [step_exr he h, if_pos hstall], hmem, step_wbr_instr he h⟩

end Sys2Proof.Machine
end

section
/-! The run status (spec/40_pipeline_engine.md R125, spec/60_exceptions.md R250), when a step answers, and the invariant
of the machine. -/

namespace Sys2Proof.Machine

/-! ### The run status -/

theorem step_of_halted {s : State} (h : s.status = .halted) : step s = .next s := by rw [step, runTurn, h]; rfl

theorem step_of_faulted {s : State} {f : Fault} (h : s.status = .faulted f) : step s = .fault f := by
  rw [step, runTurn, h]; rfl

theorem step_of_rejected {s : State} {e : StaticError} (h : s.status = .rejected e) :
    step s = .refused (.staticError e) := by
  rw [step, runTurn, h]; rfl

/-- R125: with a `SYSCALL` in WB the run halts before the step, if the switch says so. -/
theorem step_haltsBefore {s : State} (hrun : s.status = .running) (hsys : isSyscall s.pipe.wbr.instr.op = true)
    (hswitch : s.cfg.haltBeforeFinalStep = true) : step s = .next (s.withStatus .halted) := by
  rw [step, runTurn, hrun]
  simp only [turn, hsys, hswitch]
  rfl

/-- R125: an executed step halts the run iff a `SYSCALL` was in WB before it. -/
theorem step_status {s t : State} (he : s.Executes) (h : step s = .next t) :
    t.status = if isSyscall s.pipe.wbr.instr.op then .halted else .running := by
  obtain ⟨s1, hcycle, rfl⟩ := (step_eq_next_of_executes he).1 h
  obtain ⟨-, hstatus, -⟩ := cycle_frame hcycle
  unfold finishStep
  split
  · rfl
  · rw [countStep_status, hstatus, he.1]

/-- A running machine is running or halted after a step. -/
theorem step_status_of_running {s t : State} (hrun : s.status = .running) (h : step s = .next t) :
    t.status = .running ∨ t.status = .halted := by
  by_cases hhalt : isSyscall s.pipe.wbr.instr.op = true ∧ s.cfg.haltBeforeFinalStep = true
  · rw [step_haltsBefore hrun hhalt.1 hhalt.2] at h
    cases h
    exact .inr rfl
  · rw [step_status ⟨hrun, hhalt⟩ h]
    split
    · exact .inr rfl
    · exact .inl rfl

/-! ### The run loop -/

theorem loopTurn_of_next {s t : State} (h : step s = .next t) : loopTurn s = t := by
  rw [loopTurn, step_eq_next.1 h]

/-- R250: the run loop records a fault in the status. -/
theorem loopTurn_of_fault {s : State} {f : Fault} (h : step s = .fault f) : loopTurn s = s.withStatus (.faulted f) := by
  rw [loopTurn, toOutcome_eq_fault.1 h]; rfl

theorem loopTurn_of_refused {s : State} {r : Refusal} (h : step s = .refused r) : loopTurn s = s := by
  rw [loopTurn, toOutcome_eq_refused.1 h]; rfl

/-- R41: a run that is over stays as it is. -/
theorem loopTurn_of_notRunning {s : State} (h : s.status ≠ .running) : loopTurn s = s := by
  cases hs : s.status with
  | running => exact absurd hs h
  | halted => exact loopTurn_of_next (step_of_halted hs)
  | faulted f => rw [loopTurn_of_fault (step_of_faulted hs), ← hs]; rfl
  | rejected e => exact loopTurn_of_refused (step_of_rejected hs)

theorem runLoop_of_notRunning {s : State} (n : Nat) (h : s.status ≠ .running) : runLoop n s = s := by
  induction n with
  | zero => rfl
  | succ n ih => rw [runLoop, loopTurn_of_notRunning h, ih]

theorem runSteps_succ_of_next {n : Nat} {s t : State} (h : step s = .next t) : runSteps (n + 1) s = runSteps n t := by
  have hcore : Sys2Proof.core.step s = .next t := h
  simp only [runSteps, Host.Core.run, hcore]
  rfl

theorem runSteps_succ_of_fault {n : Nat} {s : State} {f : Fault} (h : step s = .fault f) :
    runSteps (n + 1) s = .fault f := by
  have hcore : Sys2Proof.core.step s = .fault f := h
  simp only [runSteps, Host.Core.run, hcore]
  rfl

theorem runSteps_succ_of_refused {n : Nat} {s : State} {r : Refusal} (h : step s = .refused r) :
    runSteps (n + 1) s = .refused r := by
  have hcore : Sys2Proof.core.step s = .refused r := h
  simp only [runSteps, Host.Core.run, hcore]
  rfl

/-- A run that answers took a first step that answers. -/
theorem runSteps_succ_eq_next {n : Nat} {s t : State} :
    runSteps (n + 1) s = .next t ↔ ∃ s1, step s = .next s1 ∧ runSteps n s1 = .next t := by
  cases h : step s with
  | next s1 => simp [runSteps_succ_of_next h]
  | fault f => simp [runSteps_succ_of_fault h]
  | refused r => simp [runSteps_succ_of_refused h]

/-- A run that faults faults in its first step or behind it. -/
theorem runSteps_succ_eq_fault {n : Nat} {s : State} {f : Fault} :
    runSteps (n + 1) s = .fault f ↔ step s = .fault f ∨ ∃ s1, step s = .next s1 ∧ runSteps n s1 = .fault f := by
  cases h : step s with
  | next s1 => simp [runSteps_succ_of_next h]
  | fault g => simp [runSteps_succ_of_fault h]
  | refused r => simp [runSteps_succ_of_refused h]

/-- A halted machine stays as it is, whatever the number of steps. -/
theorem runSteps_of_halted {s : State} (n : Nat) (h : s.status = .halted) : runSteps n s = .next s := by
  induction n with
  | zero => rfl
  | succ n ih => rw [runSteps_succ_of_next (step_of_halted h), ih]

/-- The run loop goes through the states of the steps. -/
theorem runLoop_of_runSteps {n : Nat} {s t : State} (h : runSteps n s = .next t) : runLoop n s = t := by
  induction n generalizing s with
  | zero => cases h; rfl
  | succ n ih =>
    obtain ⟨s1, hstep, hrest⟩ := runSteps_succ_eq_next.1 h
    rw [runLoop, loopTurn_of_next hstep, ih hrest]

/-- The run loop ends in the status `faulted` where the steps end in a fault. -/
theorem runLoop_of_fault {n : Nat} {s : State} {f : Fault} (hrun : s.status = .running) (h : runSteps n s = .fault f) :
    (runLoop n s).status = .faulted f := by
  induction n generalizing s with
  | zero => cases h
  | succ n ih =>
    obtain hfault | ⟨s1, hstep, hrest⟩ := runSteps_succ_eq_fault.1 h
    · rw [runLoop, loopTurn_of_fault hfault, runLoop_of_notRunning n (by simp)]; rfl
    · rw [runLoop, loopTurn_of_next hstep]
      obtain hrunning | hhalted := step_status_of_running hrun hstep
      · exact ih hrunning hrest
      · rw [runSteps_of_halted n hhalted] at hrest; cases hrest

/-- Settles O53: the status of one step, then the run loop by induction on its turns. -/
theorem haltOnSystemCall : Obligations.HaltOnSystemCall := by
  unfold Obligations.HaltOnSystemCall
  refine ⟨fun s => step_haltsBefore, fun s t hrun hsys hswitch h => ?after, fun s t hrun hsys h => ?runs,
    fun s => step_of_halted, fun s f => step_of_faulted, fun s f _ => loopTurn_of_fault,
    fun s n => runLoop_of_notRunning n, fun s n t => runLoop_of_runSteps, fun s n f => runLoop_of_fault⟩
  case after => rw [step_status ⟨hrun, by simp [hswitch]⟩ h, if_pos hsys]
  case runs => rw [step_status ⟨hrun, by simp [hsys]⟩ h, hsys]; rfl

/-! ### When a step answers -/

/-- The EX record of a state that meets the invariant has its operands. -/
theorem State.Inv.hasOperands {s : State} (h : s.Inv) : HasOperands s.pipe.exr := ⟨h.exRs.1, h.exRt.1⟩

/-- Under the invariant a cycle is its three checks: the fetch, the ALU and the access. -/
theorem State.Inv.cycle_eq {s : State} (h : s.Inv) : ∃ (committed : State) (build : IFRec → MEMRec → WBRec × State → State),
    commit s = .ok committed ∧
    cycle s = nextIF s >>= fun i => nextMEM s.cfg s.pipe.exr >>= fun m => nextWB committed >>= fun w => .ok (build i m w) := by
  obtain ⟨committed, hcommit⟩ := commit_ok h.wbWellFormed h.wbResult
  have hex := nextEX_eq_ok (s := committed).2 ⟨readsRs_lt h.idWellFormed, readsRt_lt h.idWellFormed, rfl⟩
  refine ⟨committed, fun i m w => w.2.withPipe (resolveHazards s.cfg s.pipe ⟨i, nextID s.pipe, exRecordOf committed s.pipe.idr.instr, m, w.1⟩),
    hcommit, ?_⟩
  simp only [cycle, hcommit, hex, ok_bind, pure_eq_ok, exRecordOf]

/-- The access of the instruction in MEM answers behind the commit iff it does before it. -/
theorem nextWB_answers_iff {s committed : State} (h : commit s = .ok committed) :
    (∃ w, nextWB committed = .ok w) ↔ ∃ p, access s s.pipe.memr = .ok p := by
  obtain ⟨hpipe, -⟩ := commit_frame h
  simp only [nextWB, hpipe, access_congr (commit_sameData h) rfl rfl rfl, bind_eq_ok, pure_eq_ok]
  constructor
  · rintro ⟨_, _, ⟨p, hp, -⟩, -⟩; exact ⟨p, hp⟩
  · rintro ⟨p, hp⟩; exact ⟨_, _, ⟨p, hp, rfl⟩, rfl⟩

/-- A store in MEM has its data, under the invariant. -/
theorem State.Inv.storeData {s : State} (h : s.Inv) (hstore : isStore s.pipe.memr.instr.op = true) :
    s.pipe.memr.rtValue.isSome := h.memRt.1 (readsRt_isSome_of_store hstore)

/-- Under the invariant a cycle stops by the faults of its three checks only. -/
theorem State.Inv.stopsBy_cycle {s : State} (h : s.Inv) : StopsBy IsPathFault (cycle s) := by
  obtain ⟨committed, build, hcommit, hcycle⟩ := h.cycle_eq
  obtain ⟨hpipe, -⟩ := commit_frame hcommit
  rw [hcycle]
  refine .bind (stopsBy_fetch _ _) fun i _ => .bind (.bind (stopsBy_alu _ h.hasOperands) (by simp)) fun m _ =>
    .bind (.bind (stopsBy_access _ ?_) (by simp)) (by simp)
  rw [hpipe]
  exact h.storeData

theorem step_of_executes {s : State} (he : s.Executes) :
    step s = (cycle s >>= fun s1 => .ok (finishStep s s1)).toOutcome := by
  obtain ⟨hrun, hhalt⟩ := he
  have hturn : turn s = cycle s >>= fun s1 => .ok (finishStep s s1) := by
    simp only [turn, Bool.and_eq_true, hhalt, if_false]; rfl
  rw [step, runTurn, hrun]
  exact congrArg _ hturn

/-- Under the invariant an executing step answers, or stops by a fault that is none of the register file's. -/
theorem State.Inv.step_cases {s : State} (h : s.Inv) (he : s.Executes) :
    (∃ t, step s = .next t) ∨ ∃ f, step s = .fault f ∧ IsPathFault (.fault f) := by
  rw [step_of_executes he]
  cases hc : cycle s with
  | ok s1 => exact .inl ⟨_, rfl⟩
  | error e =>
    have hpath := h.stopsBy_cycle e hc
    obtain ⟨f, rfl⟩ := hpath.isFault
    exact .inr ⟨f, rfl, hpath⟩

/-- Settles O54: the cycle is its three checks, and stops by faults only. -/
theorem stepAnswersExactlyWhenChecksPass : Obligations.StepAnswersExactlyWhenChecksPass := by
  unfold Obligations.StepAnswersExactlyWhenChecksPass
  intro s hinv he
  refine ⟨?iff, (hinv.step_cases he).imp_right fun ⟨f, hf, _⟩ => ⟨f, hf⟩⟩
  case iff =>
    obtain ⟨committed, build, hcommit, hcycle⟩ := hinv.cycle_eq
    simp only [step_eq_next_of_executes he, hcycle, bind_eq_ok, ← nextWB_answers_iff hcommit, nextMEM]
    constructor
    · rintro ⟨_, _, ⟨i, hi, m, ⟨r, hr, -⟩, w, hw, -⟩, -⟩; exact ⟨⟨i, hi⟩, ⟨r, hr⟩, ⟨w, hw⟩⟩
    · rintro ⟨⟨i, hi⟩, ⟨r, hr⟩, ⟨w, hw⟩⟩; exact ⟨_, _, ⟨i, hi, _, ⟨r, hr, rfl⟩, w, hw, rfl⟩, rfl⟩

/-- Settles O56: a step that halts before executing answers, and one that executes stops by the faults of its checks. -/
theorem unreachableStopsAreUnreachable : Obligations.UnreachableStopsAreUnreachable := by
  unfold Obligations.UnreachableStopsAreUnreachable
  intro s hinv hrun
  have hcases : (∃ t, step s = .next t) ∨ ∃ f, step s = .fault f ∧ IsPathFault (.fault f) := by
    by_cases hhalt : isSyscall s.pipe.wbr.instr.op = true ∧ s.cfg.haltBeforeFinalStep = true
    · exact .inl ⟨_, step_haltsBefore hrun hhalt.1 hhalt.2⟩
    · exact hinv.step_cases ⟨hrun, hhalt⟩
  obtain ⟨t, ht⟩ | ⟨f, hf, hpath⟩ := hcases
  · rw [ht]; simp
  · rw [hf]
    obtain ⟨hregister, hrange⟩ := (isPathFault_fault f).1 hpath
    exact ⟨by simp, fun i h => hregister i (by cases h; rfl), fun v h => hrange v (by cases h; rfl)⟩

end Sys2Proof.Machine
end

section
/-! Every step keeps the invariant of the machine (spec/10_state.md R21, R22, R33 to R37). -/

namespace Sys2Proof.Machine

/-- The invariant does not speak of the run status. -/
theorem State.Inv.withStatus {s : State} (h : s.Inv) (r : RunStatus) : (s.withStatus r).Inv := { h with }

/-! ### Memories -/

/-- Instruction memory gives well-formed records at every address (30_encoding.md R89). -/
theorem State.Inv.instrAt_wellFormed {s : State} (h : s.Inv) (a : Nat) : (instrAt s a).op.wellFormed = true := by
  unfold instrAt
  cases hc : cellAt s.imem a with
  | none => rfl
  | some r => exact (h.imemWellFormed _ (mem_of_cellAt hc)).2

/-- An access keeps the canonical form of the data memory, and its bytes in range (20_memory.md R63). -/
theorem access_keeps_dmem {s t : State} {m : MEMRec} {v : Int} (h : access s m = .ok (v, t))
    (hwf : Memory.wf s.dmem = true) (hrange : ∀ e ∈ s.dmem, s.cfg.dataBase ≤ e.1 ∧ e.1 + 1 < s.cfg.stackEnd) :
    Memory.wf t.dmem = true ∧ ∀ e ∈ t.dmem, s.cfg.dataBase ≤ e.1 ∧ e.1 + 1 < s.cfg.stackEnd := by
  obtain ⟨-, -, hread⟩ | ⟨-, -, -, d, -, hwrite⟩ | ⟨-, -, -, rfl⟩ := access_cases h
  · obtain ⟨n, rfl⟩ := memRead_frame hread
    exact ⟨hwf, hrange⟩
  · obtain ⟨⟨hlo, hhi, -⟩, -, rfl⟩ := memWrite_eq_ok.1 hwrite
    refine ⟨wf_writeBytes _ _ _ hwf, fun e he => ?_⟩
    obtain hnew | hold := mem_writeBytes he
    · rw [splitBytes_length] at hnew; omega
    · exact hrange e hold
  · exact ⟨hwf, hrange⟩

/-- The result of an access is a register value where the ALU result is. -/
theorem access_range {s t : State} {m : MEMRec} {v : Int} (h : access s m = .ok (v, t)) (hm : InRange32 m.aluResult) :
    InRange32 v := by
  obtain ⟨hload, -, hread⟩ | ⟨-, -, rfl, -⟩ | ⟨-, -, rfl, -⟩ := access_cases h
  · exact memRead_range (accessSize_cases (.inl hload)) hread
  · exact hm
  · exact hm

/-! ### The register file -/

theorem setReg_zeroCell (s : State) (i : Nat) (v : Int) : (setReg s i v).regs[0] = s.regs[0] := by
  unfold setReg
  split
  · next hi => exact Vector.getElem_set_ne hi.2 (by decide) (by omega)
  · rfl

/-- R22: the commit leaves the cell of register 0. -/
theorem commit_zeroCell {s t : State} (h : commit s = .ok t) : t.regs[0] = s.regs[0] := by
  obtain ⟨-, rfl⟩ | ⟨rd, -, -, -, rfl⟩ := commit_eq_ok h
  · rfl
  · exact setReg_zeroCell s rd _

@[simp] theorem finishStep_regs (b a : State) : (finishStep b a).regs = a.regs := by
  unfold finishStep; split <;> rfl

/-- R22: an executed step leaves the cell of register 0. -/
theorem step_zeroCell {s t : State} (he : s.Executes) (h : step s = .next t) : t.regs[0] = s.regs[0] := by
  obtain ⟨s1, hcycle, rfl⟩ := (step_eq_next_of_executes he).1 h
  obtain ⟨committed, _, _, _, accessed, hcommit, -, -, -, hwb, rfl⟩ := cycle_eq_ok.1 hcycle
  obtain ⟨v, haccess, -⟩ := nextWB_eq_ok.1 hwb
  obtain ⟨d, n, rfl, -⟩ := access_frame haccess
  simp only [finishStep_regs]
  exact (commit_zeroCell hcommit : committed.regs[0] = s.regs[0])

/-- R21: the registers stay in range. -/
theorem State.Inv.step_regsRange {s t : State} (hinv : s.Inv) (he : s.Executes) (h : step s = .next t) (k : Nat) :
    InRange32 (t.reg k) := by
  rw [step_reg he h]
  split
  · split
    · exact hinv.wbResult
    · exact hinv.regsRange k
  · exact hinv.regsRange k

/-! ### The EX record -/

/-- What the invariant says of the EX record (10_state.md R35). -/
structure EXRec.Ok (e : EXRec) : Prop where
  wellFormed : e.instr.op.wellFormed = true
  rs : OperandOk (readsRs e.instr.op) e.rsValue
  rt : OperandOk (readsRt e.instr.op) e.rtValue
  imm : e.imm = e.instr.op.imm

theorem EXRec.ok_bubble : EXRec.bubble.Ok := by
  refine ⟨by decide, ⟨?_, ?_⟩, ⟨?_, ?_⟩, rfl⟩ <;> simp [EXRec.bubble, InstrRec.bubble, readsRs, readsRt, Instr.rs?, Instr.rt?]

theorem EXRec.ok_exRecordOf {s : State} {r : InstrRec} (hwf : r.op.wellFormed = true) (hregs : ∀ k, InRange32 (s.reg k)) :
    (exRecordOf s r).Ok := by
  refine ⟨hwf, ⟨?_, ?_⟩, ⟨?_, ?_⟩, rfl⟩ <;> simp [exRecordOf] <;> exact fun k _ => hregs k


theorem EXRec.Ok.forwardInto {e : EXRec} (h : e.Ok) (c : Config) (d : Option Nat) (i : Instr) {v : Int}
    (hv : InRange32 v) : (forwardInto c d i v e).Ok := by
  have operand {slot : Option Nat} {o : Option Int} (b : Bool) (ho : OperandOk slot o) :
      OperandOk slot (if b then some v else o) := by
    cases b with
    | true => exact ⟨fun _ => rfl, fun x hx => by cases hx; exact hv⟩
    | false => exact ho
  exact ⟨h.wellFormed, operand _ h.rs, operand _ h.rt, h.imm⟩

/-! ### The step -/

/-- R36: MEM holds a result in range. -/
theorem step_memResult_range {s t : State} (he : s.Executes) (h : step s = .next t) :
    InRange32 t.pipe.memr.aluResult := by
  obtain ⟨r, halu, hmemr⟩ := step_memr he h
  rw [hmemr]
  split
  · decide
  · exact alu_range halu

section
variable {s t : State} (hinv : s.Inv) (he : s.Executes) (h : step s = .next t)
include hinv he h

/-- R29, R33: IF holds the instruction standing at a valid address. -/
theorem State.Inv.step_if : FetchOk t.cfg t.pc ∧ t.pipe.ifr = fetched t t.pc := by
  obtain ⟨himem, hcfg⟩ := step_imem_cfg h
  have hif := step_ifr he h
  rw [hcfg, fetched_congr himem, State.pc]
  split at hif
  · rw [hif]; exact ⟨hinv.pcValid, hinv.ifMirrors⟩
  · rw [hif]; exact ⟨step_nextPc_valid he h, rfl⟩

theorem State.Inv.step_idWellFormed : t.pipe.idr.instr.op.wellFormed = true := by
  rw [step_idr he h]
  split
  · exact hinv.idWellFormed
  · split
    · rfl
    · unfold nextID
      split
      · rfl
      · rw [hinv.ifMirrors]; exact hinv.instrAt_wellFormed _

/-- R37: WB holds a result in range. -/
theorem State.Inv.step_wbResult : InRange32 t.pipe.wbr.result := by
  obtain ⟨s', haccess, -⟩ := step_access he h
  exact access_range haccess hinv.memResult

theorem State.Inv.step_exOk : t.pipe.exr.Ok := by
  rw [step_exr he h]
  split
  · exact EXRec.ok_bubble
  · refine .forwardInto (.forwardInto ?_ _ _ _ (hinv.step_wbResult he h)) _ _ _ (step_memResult_range he h)
    split
    · exact EXRec.ok_bubble
    · exact EXRec.ok_exRecordOf hinv.idWellFormed (hinv.step_regsRange he h)

/-- An executed step keeps the invariant. -/
theorem State.Inv.step_executes : t.Inv := by
  obtain ⟨himem, hcfg⟩ := step_imem_cfg h
  obtain ⟨s', haccess, hdmem, -⟩ := step_access he h
  obtain ⟨hwf, hrange⟩ := access_keeps_dmem haccess hinv.dmemCanonical hinv.dmemRange
  obtain ⟨hpc, hif⟩ := hinv.step_if he h
  obtain ⟨hexWf, hexRs, hexRt, hexImm⟩ := hinv.step_exOk he h
  obtain ⟨r, halu, hmemr⟩ := step_memr he h
  exact {
    cfg := by rw [hcfg]; exact hinv.cfg
    dmemCanonical := by rw [hdmem]; exact hwf
    dmemRange := by rw [hdmem, hcfg]; exact hrange
    imemCanonical := by rw [himem]; exact hinv.imemCanonical
    imemWellFormed := by rw [himem, hcfg]; exact hinv.imemWellFormed
    zeroCell := by rw [step_zeroCell he h]; exact hinv.zeroCell
    regsRange := hinv.step_regsRange he h
    pcValid := hpc
    ifMirrors := hif
    idWellFormed := hinv.step_idWellFormed he h
    exWellFormed := hexWf
    exRs := hexRs
    exRt := hexRt
    exImm := hexImm
    memWellFormed := by rw [hmemr]; split; exacts [rfl, hinv.exWellFormed]
    memResult := step_memResult_range he h
    memZero := by rw [hmemr]; split <;> rfl
    memRt := by rw [hmemr]; split; exacts [⟨by simp [MEMRec.bubble, InstrRec.bubble, readsRt, Instr.rt?], by simp [MEMRec.bubble]⟩, hinv.exRt]
    memTarget := by rw [hmemr]; split; exacts [rfl, by rw [hinv.exImm]]
    wbWellFormed := by rw [step_wbr_instr he h]; exact hinv.memWellFormed
    wbResult := hinv.step_wbResult he h }

end

/-- Every step keeps the invariant. -/
theorem State.Inv.step {s t : State} (hinv : s.Inv) (h : step s = .next t) : t.Inv := by
  obtain ⟨-, -, -, rfl⟩ | ⟨hrun, hhalt, -⟩ | ⟨-, rfl⟩ := runTurn_eq_ok.1 (step_eq_next.1 h)
  · exact hinv.withStatus .halted
  · exact hinv.step_executes ⟨hrun, hhalt⟩ h
  · exact hinv

/-- Settles O55: a step halts, executes, or does nothing. -/
theorem stepKeepsInvariant : Obligations.StepKeepsInvariant := by
  unfold Obligations.StepKeepsInvariant
  exact fun s t h => ⟨fun hinv => hinv.step h, step_imem_cfg h⟩

end Sys2Proof.Machine
end

section
/-! The source lines of instruction records influence nothing (spec/30_encoding.md R83, decision D27): phase by phase,
two machines that differ only in them compute alike. -/

namespace Sys2Proof.Machine

/-! ### Computations that agree -/

/-- Two computations answer related results, or stop alike. -/
def Agree {α β : Type} (R : α → β → Prop) : Res α → Res β → Prop
  | .ok a, .ok b => R a b
  | .error e, .error e' => e = e'
  | .ok _, .error _ | .error _, .ok _ => False

section
variable {α β γ δ : Type} {R : α → β → Prop} {Q : γ → δ → Prop}

@[simp] theorem agree_ok {a : α} {b : β} : Agree R (.ok a) (.ok b) ↔ R a b := Iff.rfl

theorem agree_stop (e : Stop) : Agree R (.error e) (.error e) := rfl

theorem Agree.bind {x : Res α} {y : Res β} {f : α → Res γ} {g : β → Res δ} (h : Agree R x y)
    (hfg : ∀ a b, R a b → Agree Q (f a) (g b)) : Agree Q (x >>= f) (y >>= g) := by
  cases x <;> cases y
  case ok.ok a b => exact hfg a b h
  case error.error e e' => exact h
  case ok.error => exact h.elim
  case error.ok => exact h.elim

/-- A computation agrees with itself. -/
theorem agree_self (x : Res α) : Agree Eq x x := by cases x <;> rfl

/-- A computation agrees with its result mapped. -/
theorem agree_map {x : Res α} {f : α → β} (h : ∀ a, x = .ok a → R a (f a)) : Agree R x (x >>= fun a => .ok (f a)) := by
  cases x with
  | error e => rfl
  | ok a => exact h a rfl

end

/-! ### Records that differ only in source lines -/

/-- The clause of `SameButLines` about EX. -/
def EXRec.SameButLines (e e' : EXRec) : Prop :=
  e.instr.op = e'.instr.op ∧ e.rsValue = e'.rsValue ∧ e.rtValue = e'.rtValue ∧ e.imm = e'.imm

/-- The clause of `SameButLines` about MEM. -/
def MEMRec.SameButLines (m m' : MEMRec) : Prop :=
  m.instr.op = m'.instr.op ∧ m.aluResult = m'.aluResult ∧ m.rtValue = m'.rtValue ∧ m.zero = m'.zero ∧
    m.branchTarget = m'.branchTarget

/-- The clauses of `SameButLines` about the pipeline. -/
structure Pipeline.SameButLines (p q : Pipeline) : Prop where
  ifr : p.ifr.instr.op = q.ifr.instr.op ∧ p.ifr.pc = q.ifr.pc
  idr : p.idr.instr.op = q.idr.instr.op
  exr : p.exr.SameButLines q.exr
  memr : p.memr.SameButLines q.memr
  wbr : p.wbr.instr.op = q.wbr.instr.op ∧ p.wbr.result = q.wbr.result

theorem SameButLines.pipe {s t : State} (h : SameButLines s t) : s.pipe.SameButLines t.pipe :=
  ⟨h.ifr, h.idr, h.exr, h.memr, h.wbr⟩

theorem SameButLines.withPipe {s t : State} (h : SameButLines s t) {p q : Pipeline} (hpq : p.SameButLines q) :
    SameButLines (s.withPipe p) (t.withPipe q) :=
  { h with ifr := hpq.ifr, idr := hpq.idr, exr := hpq.exr, memr := hpq.memr, wbr := hpq.wbr }

theorem SameButLines.reg {s t : State} (h : SameButLines s t) : s.reg = t.reg := by
  funext i
  simp only [State.reg, h.regs]

/-! ### Phases 1 and 2 -/

section
variable {s t : State} (h : SameButLines s t)
include h

/-- R111. -/
theorem SameButLines.commit : Agree SameButLines (commit s) (commit t) := by
  obtain ⟨hop, hresult⟩ := h.wbr
  unfold Machine.commit writeReg
  rw [hop, hresult]
  cases dest t.pipe.wbr.instr.op with
  | none => exact h
  | some rd =>
    simp only
    split
    · exact agree_stop _
    · split
      · exact agree_stop _
      · unfold setReg
        split
        · exact { h with regs := by simp only [State.withRegs_regs, h.regs] }
        · exact h

/-- R52, R112: a fetch sees the instruction and the address. -/
theorem SameButLines.fetch (a : Int) :
    Agree (fun r r' => r.instr.op = r'.instr.op ∧ r.pc = r'.pc) (fetch s a) (fetch t a) := by
  simp only [Machine.fetch, imemRead, h.cfg, bind_assoc, pure_eq_ok, ok_bind]
  exact (agree_self _).bind fun k _ hk => hk ▸ ⟨h.imem k, rfl⟩

/-- R114. -/
theorem SameButLines.nextEX {d d' : IDRec} (hd : d.instr.op = d'.instr.op) :
    Agree EXRec.SameButLines (nextEX s d) (nextEX t d') := by
  have hread (slot : Option Nat) : readOperand s slot = readOperand t slot := by
    cases slot <;> simp only [readOperand, readReg, h.reg]
  simp only [Machine.nextEX, hread, hd, pure_eq_ok]
  exact (agree_self _).bind fun a _ ha => (agree_self _).bind fun b _ hb => by
    subst ha hb
    exact ⟨hd, rfl, rfl, rfl⟩

end

/-- R115: the ALU sees the instruction and the operands. -/
theorem EXRec.SameButLines.alu_eq {e e' : EXRec} (h : e.SameButLines e') (c : Config) : alu c e = alu c e' := by
  obtain ⟨⟨op, line⟩, a, b, im⟩ := e
  obtain ⟨⟨op', line'⟩, a', b', im'⟩ := e'
  obtain ⟨hop, ha, hb, him⟩ := h
  simp only at hop ha hb him
  subst hop ha hb him
  cases op <;> rfl

/-- R115. -/
theorem EXRec.SameButLines.nextMEM {e e' : EXRec} (h : e.SameButLines e') (c : Config) :
    Agree MEMRec.SameButLines (nextMEM c e) (nextMEM c e') := by
  obtain ⟨hop, -, hrt, him⟩ := id h
  simp only [Machine.nextMEM, h.alu_eq c, pure_eq_ok]
  exact (agree_self _).bind fun r _ hr => by
    subst hr
    exact ⟨hop, rfl, hrt, rfl, by simp only [hop, him]⟩

/-- R116. -/
theorem SameButLines.nextWB {s t : State} (h : SameButLines s t) :
    Agree (fun p q => (p.1.instr.op = q.1.instr.op ∧ p.1.result = q.1.result) ∧ SameButLines p.2 q.2)
      (nextWB s) (nextWB t) := by
  obtain ⟨hop, hresult, hrt, -⟩ := h.memr
  have hdata : SameData s t := ⟨h.dmem.symm, h.fresh.symm, h.cfg.symm⟩
  have haccess : Agree (fun p q => p.1 = q.1 ∧ SameButLines p.2 q.2) (access s s.pipe.memr) (access t t.pipe.memr) := by
    rw [access_congr hdata hop.symm hresult.symm hrt.symm]
    refine agree_map fun p hp => ⟨rfl, ?_⟩
    obtain ⟨d, n, hp2, -⟩ := access_frame (v := p.1) (t := p.2) hp
    rw [hp2]
    exact { h with dmem := rfl, fresh := rfl }
  unfold Machine.nextWB
  exact haccess.bind fun p q hpq => ⟨⟨hop, hpq.1⟩, hpq.2⟩

/-! ### Phase 3 and the cycle -/

section
variable {p q : Pipeline} (h : p.SameButLines q)
include h

theorem Pipeline.SameButLines.takenBranch_eq : takenBranch p.memr = takenBranch q.memr := by
  obtain ⟨hop, -, -, hzero, -⟩ := h.memr
  rw [takenBranch, takenBranch, hop, hzero]

/-- R112. -/
theorem Pipeline.SameButLines.nextPc_eq : nextPc p = nextPc q := by
  obtain ⟨-, -, -, -, htarget⟩ := h.memr
  rw [Machine.nextPc_eq, Machine.nextPc_eq, h.takenBranch_eq, h.idr, h.ifr.2, htarget]

/-- R113. -/
theorem Pipeline.SameButLines.nextID_op : (nextID p).instr.op = (nextID q).instr.op := by
  unfold nextID
  rw [h.idr]
  split
  · rfl
  · exact h.ifr.1

/-- R120. -/
theorem Pipeline.SameButLines.stalls_eq (c : Config) : stalls c p = stalls c q := by
  obtain ⟨hop, -⟩ := h.exr
  rw [stalls, stalls, exHit, exHit, hop, h.idr]

end

theorem EXRec.SameButLines.forwardInto {e e' : EXRec} (h : e.SameButLines e') (c : Config) (d : Option Nat) (i : Instr)
    (v : Int) : (forwardInto c d i v e).SameButLines (forwardInto c d i v e') := by
  obtain ⟨hop, hrs, hrt, him⟩ := h
  exact ⟨hop, by simp only [Machine.forwardInto, hrs], by simp only [Machine.forwardInto, hrt], him⟩

/-- R118 to R121: hazard resolution sees the instructions and the values. -/
theorem resolveHazards_sameButLines (c : Config) {cur cur' nxt nxt' : Pipeline} (hcur : cur.SameButLines cur')
    (hnxt : nxt.SameButLines nxt') : (resolveHazards c cur nxt).SameButLines (resolveHazards c cur' nxt') := by
  obtain ⟨hex, -⟩ := hcur.exr
  obtain ⟨hmem, -⟩ := hcur.memr
  have hmemr : (resolveHazards c cur nxt).memr.SameButLines (resolveHazards c cur' nxt').memr := by
    rw [resolveHazards_memr, resolveHazards_memr, hcur.takenBranch_eq]
    split
    · exact ⟨rfl, rfl, rfl, rfl, rfl⟩
    · exact hnxt.memr
  refine ⟨?ifr, ?idr, ?exr, hmemr, ?wbr⟩
  case ifr =>
    rw [resolveHazards_ifr, resolveHazards_ifr, hcur.stalls_eq]
    split
    · exact hcur.ifr
    · exact hnxt.ifr
  case idr =>
    rw [resolveHazards_idr, resolveHazards_idr, hcur.stalls_eq, hcur.takenBranch_eq]
    split
    · exact hcur.idr
    · split
      · rfl
      · exact hnxt.idr
  case exr =>
    obtain ⟨-, hresult, -⟩ := hmemr
    rw [resolveHazards_exr, resolveHazards_exr, hcur.stalls_eq, hcur.takenBranch_eq, hex, hmem, hcur.idr, hresult,
      hnxt.wbr.2]
    split
    · exact ⟨rfl, rfl, rfl, rfl⟩
    · refine .forwardInto (.forwardInto ?_ ..) ..
      split
      · exact ⟨rfl, rfl, rfl, rfl⟩
      · exact hnxt.exr
  case wbr =>
    rw [resolveHazards_wbr, resolveHazards_wbr]
    exact hnxt.wbr

section
variable {s t : State} (h : SameButLines s t)
include h

/-- R110: a cycle sees no source line. -/
theorem SameButLines.cycle : Agree SameButLines (cycle s) (cycle t) := by
  obtain ⟨hop, hrs, hrt, him⟩ := h.exr
  unfold Machine.cycle nextIF
  rw [h.pipe.nextPc_eq, h.cfg]
  refine h.commit.bind fun c c' hc => (h.fetch _).bind fun i i' hi => (hc.nextEX h.idr).bind fun e e' he =>
    (EXRec.SameButLines.nextMEM h.exr _).bind fun m m' hm => hc.nextWB.bind fun w w' hw => ?_
  exact hw.2.withPipe (resolveHazards_sameButLines _ h.pipe ⟨hi, h.pipe.nextID_op, he, hm, hw.1⟩)

theorem SameButLines.withStatus (r : RunStatus) : SameButLines (s.withStatus r) (t.withStatus r) :=
  { h with status := rfl }

/-- R126: the counters see no source line. -/
theorem SameButLines.countStep {s0 t0 : State} (h0 : s0.pipe.wbr.instr.op = t0.pipe.wbr.instr.op) :
    SameButLines (countStep s0 s) (countStep t0 t) := by
  obtain ⟨hcycles, hretired⟩ := h.counters
  exact { h with counters := by simp only [Machine.countStep, State.withCounters, hcycles, hretired, h0, and_self] }

/-- R125: a turn of the run loop sees no source line. -/
theorem SameButLines.runTurn : Agree SameButLines (runTurn s) (runTurn t) := by
  obtain ⟨hwb, -⟩ := h.wbr
  unfold Machine.runTurn
  rw [h.status]
  cases t.status with
  | halted => exact h
  | faulted f => exact agree_stop _
  | rejected e => exact agree_stop _
  | running =>
    simp only [turn, hwb, h.cfg]
    split
    · exact h.withStatus _
    · refine h.cycle.bind fun s1 t1 h1 => ?_
      have hcount := h1.countStep hwb
      split
      · exact hcount.withStatus _
      · exact hcount

end

/-- Settles O57: the turns of the two machines agree, whether they answer or stop. -/
theorem sourceLinesAreInvisible : Obligations.SourceLinesAreInvisible := by
  unfold Obligations.SourceLinesAreInvisible
  intro s t h
  have hturn := h.runTurn
  simp only [step, toOutcome_eq_next, toOutcome_eq_fault, toOutcome_eq_refused]
  cases hs : runTurn s <;> cases ht : runTurn t <;> rw [hs, ht] at hturn
  case ok.ok s1 t1 =>
    refine ⟨fun s' h' => ⟨t1, rfl, ?_⟩, fun f h' => (by cases h'), fun r h' => (by cases h')⟩
    cases h'
    exact hturn
  case error.error e e' =>
    obtain rfl : e = e' := hturn
    exact ⟨fun s' h' => (by cases h'), fun f => id, fun r => id⟩
  case ok.error => exact hturn.elim
  case error.ok => exact hturn.elim

end Sys2Proof.Machine
end

section
/-! Reset, the link step and the load (spec/10_state.md R43, spec/70_reset_and_hazards.md R280 to R283), and one packed
word placed at the program counter. -/

namespace Sys2Proof.Machine

/-! ### Reset -/

/-- R43: what the registers read as after reset. -/
theorem reg_resetWith (c : Config) (k : Nat) :
    (State.resetWith c).reg k = if k = 28 then c.gpInit else if k = 29 then c.spInit else 0 := by
  unfold State.reg State.resetWith resetRegs
  split
  · next hk =>
    rw [Vector.getElem_set, Vector.getElem_set, Vector.getElem_replicate]
    split
    · next h29 => subst h29; rfl
    · next h29 => simp only [Ne.symm h29, if_false, eq_comm (a := 28)]
  · next hk =>
    have h28 : k ≠ 28 := by omega
    have h29 : k ≠ 29 := by omega
    rw [if_neg h28, if_neg h29]

/-- Settles O6: the registers are computed, the rest stands in the definition. -/
theorem resetState : Obligations.ResetState := by
  unfold Obligations.ResetState
  exact ⟨rfl, fun c => ⟨reg_resetWith c, fun _ => rfl, fun _ => rfl, rfl, rfl, rfl, rfl, rfl, rfl, rfl, rfl, rfl, rfl, rfl⟩⟩

/-- What the invariant says of bubbles in the four records behind IF. -/
theorem inv_of_bubbles {s : State} (hcfg : s.cfg.Admissible) (hd : s.dmem = []) (hi : IMemory.wf s.imem = true)
    (himem : ∀ e ∈ s.imem, FetchOk s.cfg e.1 ∧ e.2.op.wellFormed = true) (hzero : s.regs[0] = 0)
    (hregs : ∀ i, InRange32 (s.reg i)) (hpc : FetchOk s.cfg s.pc) (hif : s.pipe.ifr = fetched s s.pc)
    (hid : s.pipe.idr = .bubble) (hex : s.pipe.exr = .bubble) (hmem : s.pipe.memr = .bubble)
    (hwb : s.pipe.wbr = .bubble) : s.Inv := by
  obtain ⟨hexWf, hexRs, hexRt, hexImm⟩ := EXRec.ok_bubble
  exact {
    cfg := hcfg, dmemCanonical := by rw [hd]; rfl, dmemRange := by simp [hd]
    imemCanonical := hi, imemWellFormed := himem, zeroCell := hzero, regsRange := hregs, pcValid := hpc, ifMirrors := hif
    idWellFormed := by rw [hid]; rfl
    exWellFormed := by rw [hex]; exact hexWf
    exRs := by rw [hex]; exact hexRs
    exRt := by rw [hex]; exact hexRt
    exImm := by rw [hex]; exact hexImm
    memWellFormed := by rw [hmem]; rfl
    memResult := by rw [hmem]; decide
    memZero := by rw [hmem]; rfl
    memRt := by rw [hmem]; exact ⟨by decide, by simp [MEMRec.bubble]⟩
    memTarget := by rw [hmem]; rfl
    wbWellFormed := by rw [hwb]; rfl
    wbResult := by rw [hwb]; decide }

/-- R21: the registers of reset are in range under admissible parameters (00_scope.md R8). -/
theorem resetRegs_range {c : Config} (h : c.Admissible) (k : Nat) :
    InRange32 (if k = 28 then c.gpInit else if k = 29 then c.spInit else 0) := by
  obtain ⟨-, -, -, -, hgp, hsp, -⟩ := h
  split
  · exact hgp
  · split
    · exact hsp
    · decide

theorem inv_resetWith {c : Config} (h : c.Admissible) : (State.resetWith c).Inv := by
  obtain ⟨-, -, -, -, -, -, hlo, hal, hhi⟩ := id h
  refine inv_of_bubbles h rfl rfl (fun e he => nomatch he) rfl (fun i => ?_) ?_ rfl rfl rfl rfl rfl
  · rw [reg_resetWith]; exact resetRegs_range h i
  · have hpc : (State.resetWith c).pc = c.entry := rfl
    have hcfg : (State.resetWith c).cfg = c := rfl
    rw [hpc, hcfg]
    unfold FetchOk
    omega

/-- P0 meets the constraints of every parameter set (00_scope.md R8). -/
theorem admissible_p0 : Config.p0.Admissible := by decide

/-- Settles O7: `inv_resetWith`, P0 being admissible. -/
theorem resetSatisfiesInvariant : Obligations.ResetSatisfiesInvariant := by
  unfold Obligations.ResetSatisfiesInvariant
  exact ⟨inv_resetWith admissible_p0, fun c => inv_resetWith⟩

/-! ### One pair of the program -/

/-- R282: what a pair links to. -/
structure LinksTo (t : SymbolTable) (e : Option String × InstrRec) (r : InstrRec) : Prop where
  wellFormed : r.op.wellFormed = true
  line : r.line = e.2.line
  unlabelled : e.1 = none → r.op = e.2.op
  labelled : ∀ name, e.1 = some name → ∃ a, t.lookup name = some a ∧ withTarget a e.2.op = some r.op

theorem linksTo_of_resolveLabel {t : SymbolTable} {e : Option String × InstrRec} {r : InstrRec}
    (h : resolveLabel t e = .ok r) : LinksTo t e r := by
  obtain ⟨label, op, line⟩ := e
  unfold resolveLabel reject at h
  cases label with
  | none =>
    simp only at h
    split at h <;> cases h
    exact ⟨‹_›, rfl, fun _ => rfl, fun _ hn => nomatch hn⟩
  | some name =>
    simp only at h
    split at h
    · cases h
    · next a ha =>
      split at h
      · cases h
      · next i hi =>
        split at h <;> cases h
        exact ⟨‹_›, rfl, fun hn => (nomatch hn), fun n hn => (by cases hn; exact ⟨a, ha, hi⟩)⟩

/-- R94: a branch or a jump takes a label, and stays well formed with a 64-bit target. -/
theorem withTarget_of_branch_or_jump {a : Int} {i : Instr} (h : isBranch i = true ∨ isJump i = true)
    (hwf : i.wellFormed = true) (ha : Imm64 a) : ∃ i', withTarget a i = some i' ∧ i'.wellFormed = true := by
  cases i <;> simp_all [isBranch, isJump, withTarget, Instr.wellFormed]

theorem resolveLabel_ok {t : SymbolTable} {e : Option String × InstrRec} (hwf : e.2.op.wellFormed = true)
    (hlabel : ∀ name, e.1 = some name → (isBranch e.2.op = true ∨ isJump e.2.op = true) ∧
      ∃ a, t.lookup name = some a ∧ Imm64 a) : ∃ r, resolveLabel t e = .ok r := by
  obtain ⟨label, op, line⟩ := e
  cases label with
  | none => exact ⟨_, if_pos hwf⟩
  | some name =>
    obtain ⟨hclass, a, ha, himm⟩ := hlabel name rfl
    obtain ⟨i, hi, hiwf⟩ := withTarget_of_branch_or_jump hclass hwf himm
    exact ⟨_, by simp only [resolveLabel, ha, hi]; exact if_pos hiwf⟩

/-! ### The link step -/

/-- An entry of a written instruction memory is the one written, or was there. -/
theorem mem_putInstr {m : List (Nat × InstrRec)} {a : Nat} {r : InstrRec} {e : Nat × InstrRec}
    (h : e ∈ putInstr m a r) : e = (a, r) ∨ e ∈ m := by
  unfold putInstr at h
  split at h
  · exact .inr (mem_dropCell h)
  · exact mem_putCell h

/-- R282: what a link of the pairs `p` from address `a` leaves of `s`. -/
structure Linked (t : SymbolTable) (s : State) (a : Nat) (p : ParsedProgram) (s' : State) : Prop where
  frame : s' = s.withImem s'.imem
  slots : ∀ k e, p[k]? = some e → LinksTo t e (instrAt s' (a + 4 * k))
  others : ∀ b, (∀ k, k < p.length → b ≠ a + 4 * k) → instrAt s' b = instrAt s b
  canonical : IMemory.wf s.imem = true → IMemory.wf s'.imem = true
  wellFormed : (∀ e ∈ s.imem, FetchOk s.cfg e.1 ∧ e.2.op.wellFormed = true) →
    ∀ e ∈ s'.imem, FetchOk s.cfg e.1 ∧ e.2.op.wellFormed = true

/-- R282: the link writes the pairs at consecutive word addresses, and nothing else. -/
theorem linked_of_linkFrom {t : SymbolTable} {s s' : State} {a : Nat} {p : ParsedProgram}
    (h : linkFrom t s a p = .ok s') : Linked t s a p s' := by
  induction p generalizing s a with
  | nil =>
    cases h
    exact ⟨rfl, fun k e he => by simp at he, fun _ _ => rfl, id, id⟩
  | cons x rest ih =>
    simp only [linkFrom, bind_eq_ok, imemWrite_eq_ok, Int.toNat_natCast] at h
    obtain ⟨r, hr, s1, ⟨hfetch, rfl⟩, hrest⟩ := h
    obtain ⟨hframe, hslots, hothers, hcanonical, hwf⟩ := ih (a := a + 4) hrest
    have hlinks := linksTo_of_resolveLabel hr
    refine ⟨hframe, fun k e he => ?slots, fun b hb => ?others, fun hc => hcanonical (wf_putInstr _ _ _ hc),
      fun hw => hwf fun e he => ?wellFormed⟩
    case slots =>
      cases k with
      | zero =>
        cases he
        rw [hothers _ (by omega), instrAt_putInstr, if_pos (by omega)]
        exact hlinks
      | succ k =>
        have hshift : a + 4 * (k + 1) = a + 4 + 4 * k := by omega
        rw [hshift]
        exact hslots k e he
    case others =>
      have hhead : b ≠ a := by simpa using hb 0 (by simp)
      rw [hothers b fun k hk => ?_, instrAt_putInstr, if_neg hhead]
      have := hb (k + 1) (by simpa using hk)
      omega
    case wellFormed =>
      obtain rfl | hold := mem_putInstr he
      · exact ⟨hfetch, hlinks.wellFormed⟩
      · exact hw e hold

/-- R282: the link answers where every pair resolves and the addresses are valid. -/
theorem linkFrom_ok {t : SymbolTable} {s : State} {a : Nat} {p : ParsedProgram}
    (hp : ∀ e ∈ p, ∃ r, resolveLabel t e = .ok r) (hlo : s.cfg.textBase ≤ a) (hal : a % 4 = 0)
    (hhi : (a : Int) + 4 * p.length ≤ 4294967296) : ∃ s', linkFrom t s a p = .ok s' := by
  induction p generalizing s a with
  | nil => exact ⟨s, rfl⟩
  | cons x rest ih =>
    obtain ⟨r, hr⟩ := hp x (by simp)
    rw [List.length_cons] at hhi
    have hfetch : FetchOk s.cfg a := by unfold FetchOk; omega
    obtain ⟨s', hs'⟩ := ih (s := s.withImem (putInstr s.imem (a : Int).toNat r)) (a := a + 4)
      (fun e he => hp e (by simp [he])) (by simp; omega) (by omega) (by push_cast at hhi ⊢; omega)
    exact ⟨s', by rw [linkFrom, hr, ok_bind, imemWrite_eq_ok.2 ⟨hfetch, rfl⟩, ok_bind, ← hs']; rfl⟩

/-- The link of a program is that of its parts. -/
theorem linkFrom_append (t : SymbolTable) (s : State) (a : Int) (p q : ParsedProgram) :
    linkFrom t s a (p ++ q) = linkFrom t s a p >>= fun s1 => linkFrom t s1 (a + 4 * p.length) q := by
  induction p generalizing s a with
  | nil => simp [linkFrom]
  | cons x rest ih =>
    have hshift : a + 4 * ((rest.length : Int) + 1) = a + 4 + 4 * rest.length := by omega
    simp only [List.cons_append, linkFrom, ih, bind_assoc, List.length_cons, Nat.cast_add, Nat.cast_one, hshift]

/-! ### The load -/

/-- R43, R280: the initialised machine is the one after reset. -/
theorem initialState_eq_ok {c : Config} {s : State} (h : initialState c = .ok s) :
    s = (State.resetWith c).withRegs s.regs ∧ s.regs[0] = 0 ∧
      ∀ k, s.reg k = if k = 28 then c.gpInit else if k = 29 then c.spInit else 0 := by
  simp only [initialState, bind_eq_ok, writeReg_eq_ok] at h
  obtain ⟨s1, ⟨-, -, rfl⟩, -, -, rfl⟩ := h
  refine ⟨rfl, by simp only [setReg_zeroCell]; rfl, fun k => ?_⟩
  have hblank : ((State.resetWith c).withRegs (Vector.replicate 32 0)).reg k = 0 := by
    unfold State.reg; split <;> simp
  simp only [reg_setReg, hblank]
  grind

theorem initialState_ok {c : Config} (h : c.Admissible) : ∃ s, initialState c = .ok s := by
  obtain ⟨-, -, -, -, hgp, hsp, -⟩ := h
  exact ⟨_, by rw [initialState, writeReg_ok (by decide) hgp, ok_bind, writeReg_ok (by decide) hsp]⟩

/-- R283: the entry symbol must be defined once. -/
theorem entryAddress_eq_ok {c : Config} {t : SymbolTable} {e : Int} :
    entryAddress c t = .ok e ↔ t.lookup c.entrySymbol = some e ∧ t.count c.entrySymbol = 1 := by
  unfold entryAddress reject
  cases t.lookup c.entrySymbol with
  | none => simp
  | some a =>
    by_cases hcount : t.count c.entrySymbol = 1 <;> simp [hcount]

/-- R280, R281: the load answers iff each of its parts does. -/
theorem boot_eq_ok {c : Config} {t : SymbolTable} {p : ParsedProgram} {s : State} :
    boot c t (some p) = .ok s ↔ ∃ s0 s1 e, initialState c = .ok s0 ∧ linkFrom t s0 c.textBase p = .ok s1 ∧
      entryAddress c t = .ok e ∧ FetchOk s1.cfg e ∧
      s = { s1 with pipe := resetPipe { c with entry := e.toNat } (instrAt s1 e.toNat),
                    cfg := { c with entry := e.toNat } } := by
  simp only [boot, bind_eq_ok, pure_eq_ok, fetch_eq_ok, Except.ok.injEq]
  constructor
  · rintro ⟨s0, h0, s1, h1, e, he, _, ⟨hf, rfl⟩, rfl⟩; exact ⟨s0, s1, e, h0, h1, he, hf, rfl⟩
  · rintro ⟨s0, s1, e, h0, h1, he, hf, rfl⟩; exact ⟨s0, h0, s1, h1, e, he, _, ⟨hf, rfl⟩, rfl⟩

/-- R281, R283: the parameters with a valid entry address are admissible. -/
theorem admissible_entry {c : Config} {e : Int} (h : c.Admissible) (he : FetchOk c e) :
    { c with entry := e.toNat }.Admissible := by
  obtain ⟨hbase, hbaseAl, hdata, hstack, hgp, hsp, -⟩ := h
  obtain ⟨hlo, hhi, hal⟩ := he
  exact ⟨hbase, hbaseAl, hdata, hstack, hgp, hsp, by show c.textBase ≤ e.toNat; omega, by show e.toNat % 4 = 0; omega,
    by show (e.toNat : Int) < 4294967296; omega⟩

/-- Settles O8: the link's slots on the state of reset, with the entry label's address in IF. -/
theorem bootLoadsTheProgram : Obligations.BootLoadsTheProgram := by
  unfold Obligations.BootLoadsTheProgram
  intro c t p s hadm h
  obtain ⟨s0, s1, e, h0, h1, he, hf, rfl⟩ := boot_eq_ok.1 h
  obtain ⟨hs0, hzero, hregs⟩ := initialState_eq_ok h0
  obtain ⟨hframe, hslots, hothers, hcanonical, hwf⟩ := linked_of_linkFrom h1
  obtain ⟨hlookup, hcount⟩ := entryAddress_eq_ok.1 he
  obtain ⟨m, rfl⟩ : ∃ m, s1 = ((State.resetWith c).withRegs s0.regs).withImem m :=
    ⟨s1.imem, by rw [hframe, hs0]; rfl⟩
  have hcfg : s0.cfg = c := by rw [hs0]; rfl
  have himem : s0.imem = [] := by rw [hs0]; rfl
  have hpc : ((e.toNat : Nat) : Int) = e := by unfold FetchOk at hf; omega
  refine ⟨fun k x hx => ?slots, fun a ha => ?others, hlookup.trans (congrArg some hpc.symm), hcount, rfl, rfl, rfl, rfl,
    hregs, fun _ => rfl, rfl, rfl, rfl, rfl, rfl, ?inv⟩
  case slots =>
    obtain ⟨-, hline, hunlabelled, hlabelled⟩ := hslots k x hx
    exact ⟨hline, hunlabelled, hlabelled⟩
  case others =>
    refine (hothers a ha).trans ?_
    rw [instrAt, himem]; rfl
  case inv =>
    refine inv_of_bubbles (admissible_entry hadm hf) rfl (hcanonical (by rw [himem]; rfl)) ?_ hzero (fun i => ?_) ?_ rfl rfl rfl rfl rfl
    · rw [hcfg, himem] at hwf
      exact hwf fun _ hx => nomatch hx
    · exact (hregs i).symm ▸ resetRegs_range hadm i
    · exact hpc.symm ▸ hf

/-- Settles O9: every part of the load answers. -/
theorem bootAnswers : Obligations.BootAnswers := by
  unfold Obligations.BootAnswers
  intro c t p e hadm hp hfits hlookup hcount hf
  obtain ⟨s0, h0⟩ := initialState_ok hadm
  obtain ⟨hs0, -⟩ := initialState_eq_ok h0
  have hcfg : s0.cfg = c := by rw [hs0]; rfl
  obtain ⟨-, hal, -⟩ := hadm
  obtain ⟨s1, h1⟩ := linkFrom_ok (s := s0) (a := c.textBase) (fun x hx => resolveLabel_ok (hp x hx).1 (hp x hx).2)
    (by rw [hcfg]) hal hfits
  have hcfg1 : s1.cfg = c := by rw [(linked_of_linkFrom h1).frame, ← hcfg]; rfl
  exact ⟨_, boot_eq_ok.2 ⟨s0, s1, e, h0, h1, entryAddress_eq_ok.2 ⟨hlookup, hcount⟩, by rw [hcfg1]; exact hf, rfl⟩⟩

/-! ### Static errors -/

/-- R251: behind pairs that link, a pair that does not resolve is the error of the load. -/
theorem boot_of_unresolved {c : Config} {t : SymbolTable} {pre post : ParsedProgram} {x : Option String × InstrRec}
    {s0 s1 : State} {e : StaticError} (h0 : initialState c = .ok s0) (h1 : linkFrom t s0 c.textBase pre = .ok s1)
    (hx : resolveLabel t x = reject e) : boot c t (some (pre ++ x :: post)) = refuse (.staticError e) := by
  simp only [boot, h0, ok_bind, linkFrom_append, h1, linkFrom, hx, reject, refuse_bind]

/-- R251: anything but one entry label is the error of the load. -/
theorem boot_of_entryLabel {c : Config} {t : SymbolTable} {p : ParsedProgram} {s0 s1 : State}
    (h0 : initialState c = .ok s0) (h1 : linkFrom t s0 c.textBase p = .ok s1) (hcount : t.count c.entrySymbol ≠ 1) :
    boot c t (some p) = refuse (.staticError .missingEntryLabel) := by
  have hentry : entryAddress c t = refuse (.staticError .missingEntryLabel) := by
    unfold entryAddress reject
    split
    · exact if_neg hcount
    · rfl
  simp only [boot, h0, ok_bind, h1, hentry, refuse_bind]

/-- Settles O10: each error is the first that the load meets. -/
theorem staticErrorsStopBeforeTheRun : Obligations.StaticErrorsStopBeforeTheRun := by
  unfold Obligations.StaticErrorsStopBeforeTheRun
  refine ⟨fun c t => rfl, fun c t pre x post s0 s1 h0 h1 => ⟨fun name hname hnone => ?unresolved,
    fun hname hwf => ?illFormed, fun name a hname ha hbad => ?illegal⟩, fun c t p s0 s1 => boot_of_entryLabel,
    fun s e => step_of_rejected⟩
  case unresolved =>
    refine boot_of_unresolved h0 h1 ?_
    simp only [resolveLabel, hname, hnone]
  case illFormed =>
    refine boot_of_unresolved h0 h1 ?_
    simp [resolveLabel, hname, hwf]
  case illegal =>
    refine boot_of_unresolved h0 h1 ?_
    simp only [resolveLabel, hname, ha]
    cases hi : withTarget a x.2.op with
    | none => rfl
    | some i => simp [hbad i hi]

/-! ### One word at the program counter -/

/-- The word of a decoded instruction is read from its number (R86). -/
theorem decodeTableWord_toNat (w : PackedWord) : decodeTableWord 88 w.toNat = (decode w).toOption := by
  have hlt := w.isLt
  have hmod : w.toNat % 2 ^ 88 = w.toNat := Nat.mod_eq_of_lt hlt
  simp only [decodeTableWord, hmod, hlt, if_true, BitVec.ofNat_toNat, BitVec.setWidth_eq]
  cases decode w <;> rfl

theorem withFetchWord_of_ok {w : PackedWord} {i : Instr} (s : State) (h : decode w = .ok i) :
    s.withFetchWord 88 w.toNat = placeAtPc s { op := i, line := none } := by
  rw [State.withFetchWord, placeWord, decodeTableWord_toNat, h]; rfl

theorem withFetchWord_of_error {w : PackedWord} {e : DecodeError} (s : State) (h : decode w = .error e) :
    s.withFetchWord 88 w.toNat = s.withStatus (.rejected .illegalInstruction) := by
  rw [State.withFetchWord, placeWord, decodeTableWord_toNat, h]; rfl

/-- What stands at each address behind the placement. -/
theorem instrAt_placeAtPc (s : State) (r : InstrRec) (a : Nat) :
    instrAt (placeAtPc s r) a = if a = s.pc.toNat then r else instrAt s a := by
  rw [← instrAt_putInstr]; rfl

end Sys2Proof.Machine
end

section
/-! Instructions in flight: what the instructions in WB, MEM and EX still do to registers and data memory, and how one
step moves them on (spec/40_pipeline_engine.md R111 to R121). -/

namespace Sys2Proof.Machine

/-! ### Registers and data memory behind a stage -/

/-- The registers with `v` written to the destination `d`, if there is one; register 0 discards it (R22, R111). -/
def written (regs : Nat → Int) (d : Option Nat) (v : Int) (k : Nat) : Int := if d = some k ∧ k ≠ 0 then v else regs k

@[simp] theorem written_none (regs : Nat → Int) (v : Int) : written regs none v = regs := by
  funext k; simp [written]

/-- A write to another register than 0 is read back from that register alone. -/
theorem written_of_ne_zero {regs : Nat → Int} {d : Option Nat} (v : Int) (k : Nat) (hd : d ≠ some 0) :
    written regs d v k = if d = some k then v else regs k := by
  have hiff : (d = some k ∧ k ≠ 0) ↔ d = some k := ⟨And.left, fun h => ⟨h, by rintro rfl; exact hd h⟩⟩
  simp only [written, hiff]

theorem SameData.refl (s : State) : SameData s s := ⟨rfl, rfl, rfl⟩

theorem SameData.symm {s t : State} (h : SameData s t) : SameData t s := ⟨h.dmem.symm, h.fresh.symm, h.cfg.symm⟩

theorem SameData.trans {s t u : State} (h : SameData s t) (h' : SameData t u) : SameData s u :=
  ⟨h'.dmem.trans h.dmem, h'.fresh.trans h.fresh, h'.cfg.trans h.cfg⟩

/-- The registers and the data memory of `y` are those of `p` once the instruction in WB has committed (R111). -/
structure AfterWb (p y : State) : Prop where
  reg : y.reg = written p.reg (dest p.pipe.wbr.instr.op) p.pipe.wbr.result
  data : SameData p y

/-- The registers and the data memory of `z` are those of `y` once the instruction of the MEM record `m` has made its
access and committed (R116, R111). -/
def AfterAccess (m : MEMRec) (y z : State) : Prop :=
  ∃ v a, access y m = .ok (v, a) ∧ z.reg = written y.reg (dest m.instr.op) v ∧ SameData a z

/-- The same of the instruction of the EX record `e`, behind its ALU (R115). -/
def AfterAlu (e : EXRec) (y z : State) : Prop := ∃ x, alu y.cfg e = .ok x ∧ AfterAccess (memRecordOf e x) y z

/-- The registers and data memory behind the instructions in flight that have passed the ALU: `yM` behind the one in WB,
`yE` behind the one in MEM. -/
structure InFlight (p yM yE : State) : Prop where
  wb : AfterWb p yM
  mem : AfterAccess p.pipe.memr yM yE

/-- The access leaves the parameters. -/
theorem access_cfg {s t : State} {m : MEMRec} {v : Int} (h : access s m = .ok (v, t)) : t.cfg = s.cfg := by
  obtain ⟨d, n, rfl, -⟩ := access_frame h; rfl

theorem AfterAccess.cfg {m : MEMRec} {y z : State} (h : AfterAccess m y z) : z.cfg = y.cfg := by
  obtain ⟨v, a, ha, -, hdata⟩ := h
  rw [hdata.cfg, access_cfg ha]

theorem AfterAlu.cfg {e : EXRec} {y z : State} (h : AfterAlu e y z) : z.cfg = y.cfg := by
  obtain ⟨x, -, h⟩ := h
  exact h.cfg

/-- An access depends on the data memory alone, and so does its result. -/
theorem access_sameData {s t a : State} {m : MEMRec} {v : Int} (h : SameData s t) (hs : access s m = .ok (v, a)) :
    ∃ b, access t m = .ok (v, b) ∧ SameData a b := by
  rw [access_congr h rfl rfl rfl, hs, ok_bind]
  exact ⟨_, rfl, rfl, rfl, h.cfg.trans (access_cfg hs).symm⟩

/-! ### Instructions without effect -/

/-- The instruction computes nothing, accesses nothing and writes nothing: `NOP`, `J`, `SYSCALL` and, but for its
comparison, a branch. -/
structure NoEffect (i : Instr) : Prop where
  noDest : dest i = none
  noLoad : isLoad i = false
  noStore : isStore i = false

/-- Such an instruction leaves registers and data memory. -/
theorem afterAccess_of_noEffect {m : MEMRec} (h : NoEffect m.instr.op) {y z : State} :
    AfterAccess m y z ↔ z.reg = y.reg ∧ SameData y z := by
  have haccess := access_of_noAccess y h.noLoad h.noStore
  unfold AfterAccess
  rw [haccess, h.noDest]
  simp only [written_none, Except.ok.injEq, Prod.mk.injEq]
  constructor
  · rintro ⟨v, a, ⟨rfl, rfl⟩, hreg, hdata⟩; exact ⟨hreg, hdata⟩
  · rintro ⟨hreg, hdata⟩; exact ⟨_, _, ⟨rfl, rfl⟩, hreg, hdata⟩

/-- `NOP` and `J`: nothing but the fetch depends on them. -/
def IsIdle (i : Instr) : Prop := isNop i = true ∨ isJump i = true

namespace IsIdle

variable {i : Instr} (h : IsIdle i)
include h

theorem noEffect : NoEffect i := by
  unfold IsIdle at h
  cases i <;> simp_all [isNop, isJump]
  all_goals exact ⟨rfl, rfl, rfl⟩

theorem readsNone : readsRs i = none ∧ readsRt i = none := by
  unfold IsIdle at h
  cases i <;> simp_all [isNop, isJump, readsRs, readsRt, Instr.rs?, Instr.rt?]

theorem noSyscall : isSyscall i = false := by
  unfold IsIdle at h
  cases i <;> simp_all [isNop, isJump, isSyscall]

theorem notTaken (zero : Bool) : branchTaken i zero = false := by
  unfold IsIdle at h
  cases i <;> simp_all [isNop, isJump, branchTaken]

end IsIdle

theorem noEffect_of_syscall {i : Instr} (h : isSyscall i = true) : NoEffect i := by
  cases i <;> simp_all [isSyscall]
  exact ⟨rfl, rfl, rfl⟩

theorem noEffect_of_branch {i : Instr} (h : isBranch i = true) : NoEffect i := by
  cases i <;> simp_all [isBranch]
  all_goals exact ⟨rfl, rfl, rfl⟩

theorem alu_of_syscall {e : EXRec} (c : Config) (h : isSyscall e.instr.op = true) : alu c e = aluIdle := by
  unfold alu
  split <;> simp_all [isSyscall]

/-- R241: a system call ends the run, and nothing else. -/
theorem exec_of_syscall {i : Instr} (h : isSyscall i = true) (s : State) : exec i s = .next (endRun s) := by
  cases i <;> simp_all [isSyscall]
  rfl

theorem takenBranch_of_idle {m : MEMRec} (h : IsIdle m.instr.op) : takenBranch m = false := h.notTaken m.zero

theorem executes_of_idle {p : State} (hrun : p.status = .running) (h : IsIdle p.pipe.wbr.instr.op) : p.Executes :=
  ⟨hrun, by simp [h.noSyscall]⟩

theorem alu_of_idle {e : EXRec} (c : Config) (h : IsIdle e.instr.op) : alu c e = aluIdle := by
  unfold IsIdle at h
  unfold alu
  split <;> simp_all [isNop, isJump]

/-- An idle instruction in EX leaves registers and data memory. -/
theorem afterAlu_of_idle {e : EXRec} (h : IsIdle e.instr.op) (y : State) : AfterAlu e y y :=
  ⟨0, alu_of_idle _ h, (afterAccess_of_noEffect h.noEffect).2 ⟨rfl, .refl y⟩⟩

/-- Nothing is in flight where WB and MEM hold idle instructions. -/
theorem inFlight_of_idle {p : State} (hmem : IsIdle p.pipe.memr.instr.op) (hwb : IsIdle p.pipe.wbr.instr.op) :
    InFlight p p p := by
  refine ⟨⟨?_, .refl p⟩, (afterAccess_of_noEffect hmem.noEffect).2 ⟨rfl, .refl p⟩⟩
  rw [hwb.noEffect.noDest, written_none]

/-! ### One step -/

/-- R111: the registers after an executed step, as a write. -/
theorem step_reg_written {s t : State} (he : s.Executes) (h : step s = .next t) :
    t.reg = written s.reg (dest s.pipe.wbr.instr.op) s.pipe.wbr.result := by
  funext k
  rw [step_reg he h, written]
  cases dest s.pipe.wbr.instr.op with
  | none => simp
  | some rd => simp only [Option.some.injEq, eq_comm (a := k)]

/-- The parameters are the same all along. -/
theorem InFlight.cfg {p yM yE : State} (hf : InFlight p yM yE) : yM.cfg = p.cfg ∧ yE.cfg = p.cfg :=
  ⟨hf.wb.data.cfg, hf.mem.cfg.trans hf.wb.data.cfg⟩

/-- An executed step from `p` to `p'`, in which WB commits and the instruction in MEM makes its access, leaving `yE`. -/
structure Moves (p p' yE : State) : Prop where
  executes : p.Executes
  step : step p = .next p'
  inv : p'.Inv
  imem : p'.imem = p.imem
  cfg : p'.cfg = p.cfg
  status : p'.status = if isSyscall p.pipe.wbr.instr.op then .halted else .running
  wb : AfterWb p' yE
  wbInstr : p'.pipe.wbr.instr = p.pipe.memr.instr

section
variable {p p' yM yE yD : State} (hf : InFlight p yM yE)
include hf

/-- R111: what WB still had to do is done. -/
theorem InFlight.step_reg (he : p.Executes) (h : Machine.step p = .next p') : p'.reg = yM.reg := by
  rw [step_reg_written he h, hf.wb.reg]

/-- R116: the instruction of MEM is in WB, its access made. -/
theorem InFlight.step_wb (he : p.Executes) (h : Machine.step p = .next p') : AfterWb p' yE := by
  obtain ⟨v, a, haccess, hreg, hdata⟩ := hf.mem
  obtain ⟨s', hs', hdmem, hfresh⟩ := step_access he h
  obtain ⟨b, hb, hab⟩ := access_sameData hf.wb.data hs'
  cases haccess.symm.trans hb
  have hcfg : s'.cfg = p'.cfg := by rw [access_cfg hs', (step_imem_cfg h).2]
  refine ⟨by rw [hreg, step_wbr_instr he h, hf.step_reg he h], SameData.trans ?_ (hab.trans hdata)⟩
  exact ⟨hdmem.symm, hfresh.symm, hcfg⟩

/-- Where the fetch, the ALU and the instructions in flight pass their checks, the step is made. -/
theorem InFlight.moves (hinv : p.Inv) (he : p.Executes) (hfetch : FetchOk p.cfg (nextPc p.pipe))
    (halu : ∃ x, alu p.cfg p.pipe.exr = .ok x) : ∃ p', Moves p p' yE := by
  obtain ⟨v, a, haccess, -⟩ := hf.mem
  obtain ⟨b, hb, -⟩ := access_sameData hf.wb.data.symm haccess
  obtain ⟨p', h⟩ := (stepAnswersExactlyWhenChecksPass p hinv he).1.2 ⟨⟨_, fetch_ok hfetch⟩, halu, ⟨_, hb⟩⟩
  obtain ⟨himem, hcfg⟩ := step_imem_cfg h
  exact ⟨p', he, h, hinv.step h, himem, hcfg, step_status he h, hf.step_wb he h, step_wbr_instr he h⟩

end

namespace Moves

variable {p p' yM yE yD : State} (hm : Moves p p' yE)
include hm

theorem cfg_eq : yE.cfg = p.cfg := hm.wb.data.cfg.trans hm.cfg

/-- R115: without a taken branch the instruction of EX is in MEM with its ALU result. -/
theorem memr {x : Int} (halu : alu p.cfg p.pipe.exr = .ok x) (htaken : takenBranch p.pipe.memr = false) :
    p'.pipe.memr = memRecordOf p.pipe.exr x := by
  obtain ⟨r, hr, hmemr⟩ := step_memr hm.executes hm.step
  cases halu.symm.trans hr
  rw [hmemr, htaken]
  rfl

theorem memInstr (htaken : takenBranch p.pipe.memr = false) : p'.pipe.memr.instr = p.pipe.exr.instr := by
  obtain ⟨x, halu, -⟩ := step_memr hm.executes hm.step
  rw [hm.memr halu htaken]
  rfl

/-- Without a taken branch the instruction of EX is in flight behind the step. -/
theorem inFlight (hex : AfterAlu p.pipe.exr yE yD) (htaken : takenBranch p.pipe.memr = false) : InFlight p' yE yD := by
  obtain ⟨x, halu, haccess⟩ := hex
  refine ⟨hm.wb, ?_⟩
  rw [hm.memr (hm.cfg_eq ▸ halu) htaken]
  exact haccess

theorem ifr (hload : ¬ LoadUse p) : p'.pipe.ifr = fetched p' (nextPc p.pipe) := by
  rw [step_ifr hm.executes hm.step, if_neg (mt stalls_iff.1 hload), fetched_congr hm.imem]

theorem idr (htaken : takenBranch p.pipe.memr = false) (hload : ¬ LoadUse p) : p'.pipe.idr = nextID p.pipe := by
  rw [step_idr hm.executes hm.step, if_neg (mt stalls_iff.1 hload), htaken]
  rfl

theorem exInstr (htaken : takenBranch p.pipe.memr = false) (hload : ¬ LoadUse p) :
    p'.pipe.exr.instr = p.pipe.idr.instr := by
  rw [step_exr_advances hm.executes hm.step htaken hload]
  rfl

/-- R120: a stalled step leaves IF and ID. -/
theorem stalled (hload : LoadUse p) :
    p'.pipe.ifr = p.pipe.ifr ∧ p'.pipe.idr = p.pipe.idr ∧ p'.pipe.exr = .bubble := by
  have hstall := stalls_iff.2 hload
  rw [step_ifr hm.executes hm.step, step_idr hm.executes hm.step, step_exr hm.executes hm.step, hstall]
  exact ⟨rfl, rfl, rfl⟩

/-- R118: a taken branch squashes the three instructions behind it. -/
theorem squashed (htaken : takenBranch p.pipe.memr = true) (hload : ¬ LoadUse p) :
    p'.pipe.idr = .bubble ∧ p'.pipe.exr.instr = .bubble ∧ p'.pipe.memr = .bubble := by
  obtain ⟨hmem, hex, -, hfront⟩ := (takenBranchSquashesThree p p' hm.executes hm.step).2 htaken
  exact ⟨(hfront hload).1, hex, hmem⟩

end Moves

/-- The youngest producer of a slot delivers what the slot reads behind both producers (R119, R120). -/
theorem delivered_eq {c : Config} {slot dEX dMEM : Option Nat} {regs regsE regsD : Nat → Int} {x v vD : Int}
    (hE : regsE = written regs dMEM v) (hD : regsD = written regsE dEX vD) (hx : ReadsDest c dEX slot → vD = x)
    (hzeroEX : dEX ≠ some 0) (hzeroMEM : dMEM ≠ some 0) :
    (if regMatches c dEX slot then some x else if regMatches c dMEM slot then some v else slot.map regs) =
      slot.map regsD := by
  cases slot with
  | none => simp [regMatches_iff, not_readsDest_none]
  | some k =>
    have hreads {d : Option Nat} (hd : d ≠ some 0) : ReadsDest c d (some k) ↔ d = some k :=
      ⟨fun ⟨j, hj, hk, _⟩ => hj.trans hk.symm, fun h => ⟨k, h, rfl, fun hk => hd (hk.2 ▸ h)⟩⟩
    rw [hreads hzeroEX] at hx
    subst hD hE
    simp only [regMatches_iff, hreads hzeroEX, hreads hzeroMEM, Option.map_some, written_of_ne_zero _ _ hzeroEX,
      written_of_ne_zero _ _ hzeroMEM]
    split
    · rw [hx ‹_›]
    · split <;> rfl

/-- R98, R116: the result of an instruction that is no load is its ALU result. -/
theorem access_result_of_noLoad {s t : State} {m : MEMRec} {v : Int} (h : access s m = .ok (v, t))
    (hload : isLoad m.instr.op = false) : v = m.aluResult := by
  obtain ⟨hl, -⟩ | ⟨-, -, hv, -⟩ | ⟨-, -, hv, -⟩ := access_cases h
  · rw [hload] at hl; cases hl
  · exact hv
  · exact hv

/-- R114, R119, R120: the instruction of ID is in EX with the operands it has behind all instructions in flight, if no
producer's destination is register 0. -/
theorem Moves.exr {p p' yE yD : State} (hm : Moves p p' yE) (hex : AfterAlu p.pipe.exr yE yD)
    (htaken : takenBranch p.pipe.memr = false) (hload : ¬ LoadUse p) (hzeroEX : dest p.pipe.exr.instr.op ≠ some 0)
    (hzeroMEM : dest p.pipe.memr.instr.op ≠ some 0) : p'.pipe.exr = exRecordOf yD p.pipe.idr.instr := by
  obtain ⟨x, halu, v, a, haccess, hD, -⟩ := hex
  have hE := hm.wb.reg
  rw [hm.wbInstr] at hE
  have hx (slot : Option Nat)
      (hslot : slot = readsRs p.pipe.idr.instr.op ∨ slot = readsRt p.pipe.idr.instr.op)
      (hreads : ReadsDest p.cfg (dest p.pipe.exr.instr.op) slot) : v = x := by
    refine access_result_of_noLoad haccess (Bool.eq_false_iff.2 fun hl => hload ⟨?_, hl⟩)
    obtain rfl | rfl := hslot
    · exact .inl hreads
    · exact .inr hreads
  have hrs := delivered_eq hE hD (hx _ (.inl rfl)) hzeroEX hzeroMEM
  have hrt := delivered_eq hE hD (hx _ (.inr rfl)) hzeroEX hzeroMEM
  rw [step_exr_advances hm.executes hm.step htaken hload, hm.memr (hm.cfg_eq ▸ halu) htaken]
  simp only [forwardInto, exRecordOf] at hrs hrt ⊢
  rw [← hrs, ← hrt]
  rfl

/-- R120: an idle instruction in ID reads nothing, so nothing stalls it. -/
theorem not_loadUse_of_idle {p : State} (h : IsIdle p.pipe.idr.instr.op) : ¬ LoadUse p := by
  obtain ⟨hrs, hrt⟩ := h.readsNone
  rintro ⟨hhit | hhit, -⟩
  · rw [hrs] at hhit; exact not_readsDest_none _ _ hhit
  · rw [hrt] at hhit; exact not_readsDest_none _ _ hhit

/-- R116: where the access of the instruction in MEM fails its check, so does the step. -/
theorem step_eq_fault_of_access {p y : State} {f : Fault} (hwb : AfterWb p y) (hinv : p.Inv) (he : p.Executes)
    (hfetch : FetchOk p.cfg (nextPc p.pipe)) (halu : ∃ x, alu p.cfg p.pipe.exr = .ok x)
    (h : access y p.pipe.memr = raise f) : step p = .fault f := by
  obtain ⟨committed, build, hcommit, hcycle⟩ := hinv.cycle_eq
  obtain ⟨x, halu⟩ := halu
  obtain ⟨hpipe, -⟩ := commit_frame hcommit
  have haccess : access committed p.pipe.memr = raise f := by
    rw [access_congr (hwb.data.symm.trans (commit_sameData hcommit)) rfl rfl rfl, h, raise_bind]
  refine step_eq_fault_of_cycle he ?_
  simp only [hcycle, nextIF, fetch_ok hfetch, nextMEM, halu, nextWB, hpipe, haccess, ok_bind, raise_bind, pure_eq_ok]

/-- The steps behind `m` steps are those of the state they reach. -/
theorem runSteps_add {m : Nat} {s t : State} (n : Nat) (h : runSteps m s = .next t) : runSteps (m + n) s = runSteps n t := by
  induction m generalizing s with
  | zero => cases h; rw [Nat.zero_add]
  | succ m ih =>
    obtain ⟨s1, hstep, hrest⟩ := runSteps_succ_eq_next.1 h
    rw [Nat.succ_add, runSteps_succ_of_next hstep, ih hrest]

/-! ### The sequential meaning as an instruction in flight -/

/-- R22, R111: the commit of a value in range writes the destination. -/
theorem writeDest_eq_ok {s t : State} {d : Option Nat} {v : Int} (h : writeDest s d v = .ok t) :
    t.reg = written s.reg d v ∧ SameData s t ∧ t.imem = s.imem ∧ t.status = s.status := by
  cases d with
  | none => cases h; exact ⟨(written_none _ _).symm, .refl _, rfl, rfl⟩
  | some rd =>
    obtain ⟨hrd, -, rfl⟩ := writeReg_eq_ok.1 h
    refine ⟨funext fun k => ?_, ⟨by simp, by simp, by simp⟩, by simp, by simp⟩
    have hstored : (k = rd ∧ 0 < rd ∧ rd < 32) ↔ (some rd = some k ∧ k ≠ 0) := by
      simp only [Option.some.injEq]; omega
    simp only [reg_setReg, written, hstored]

theorem writeDest_ok (s : State) {i : Instr} {v : Int} (hi : i.wellFormed = true) (hv : InRange32 v) :
    ∃ t, writeDest s (dest i) v = .ok t := by
  cases hd : dest i with
  | none => exact ⟨s, rfl⟩
  | some rd => exact ⟨_, writeReg_ok (dest_lt hi rd hd) hv⟩

/-- What an instruction that completes at once leaves: registers and data memory as behind its stages, and the
instruction it goes to in IF (70_reset_and_hazards.md R294). -/
structure Completes (r : InstrRec) (x : Int) (y z : State) : Prop where
  alu : alu y.cfg (exRecordOf y r) = .ok x
  access : AfterAccess (memRecordOf (exRecordOf y r) x) y z
  target : FetchOk y.cfg (targetOf y (memRecordOf (exRecordOf y r) x))
  ifr : z.pipe.ifr = fetched y (targetOf y (memRecordOf (exRecordOf y r) x))
  imem : z.imem = y.imem
  status : z.status = y.status

/-! ### The address an instruction goes to (R112) -/

section
variable {s : State} {r : InstrRec} {x : Int}

theorem targetOf_of_jump (h : isJump r.op = true) : targetOf s (memRecordOf (exRecordOf s r) x) = r.op.imm := if_pos h

theorem targetOf_of_untaken (hjump : isJump r.op = false) (h : takenBranch (memRecordOf (exRecordOf s r) x) = false) :
    targetOf s (memRecordOf (exRecordOf s r) x) = s.pc + 4 := by
  rw [targetOf, h]
  exact if_neg (by simp [memRecordOf, exRecordOf, hjump])

/-- R221: a taken branch is a branch. -/
theorem isBranch_of_taken {m : MEMRec} (h : takenBranch m = true) :
    isBranch m.instr.op = true ∧ isJump m.instr.op = false := by
  obtain ⟨rs, rt, im, hop, -⟩ | ⟨rs, rt, im, hop, -⟩ := takenBranch_iff.1 h <;> rw [hop] <;> exact ⟨rfl, rfl⟩

/-- R221: it goes to its immediate. -/
theorem targetOf_of_taken (h : takenBranch (memRecordOf (exRecordOf s r) x) = true) :
    targetOf s (memRecordOf (exRecordOf s r) x) = r.op.imm ∧
      (memRecordOf (exRecordOf s r) x).branchTarget = r.op.imm := by
  obtain ⟨hbranch, hjump⟩ := isBranch_of_taken h
  have htarget : (memRecordOf (exRecordOf s r) x).branchTarget = r.op.imm := if_pos hbranch
  rw [targetOf, hjump, h]
  exact ⟨htarget, htarget⟩

end

/-! ### What the sequential meaning answers -/

theorem completes_of_exec {r : InstrRec} {y z : State} (hsys : isSyscall r.op = false) (h : exec r.op y = .next z) :
    ∃ x, Completes r x y z := by
  rw [exec_eq_stagesOf r.op r.line y hsys, toOutcome_eq_next, stagesOf_eq] at h
  simp only [bind_eq_ok, goTo, pure_eq_ok, Except.ok.injEq, fetch_eq_ok, Prod.exists] at h
  obtain ⟨_, -, x, halu, v, a, haccess, t, hwrite, _, ⟨htarget, rfl⟩, rfl⟩ := h
  obtain ⟨hreg, hdata, himem, hstatus⟩ := writeDest_eq_ok hwrite
  obtain ⟨d, n, ha, -⟩ := access_frame haccess
  have hcfg : t.cfg = y.cfg := by rw [hdata.cfg, access_cfg haccess]
  have himem' : t.imem = y.imem := by rw [himem, ha]; rfl
  have hareg : a.reg = y.reg := by rw [ha]; rfl
  refine ⟨x, halu, ⟨v, a, haccess, ?_, ⟨hdata.dmem, hdata.fresh, hdata.cfg⟩⟩, hcfg ▸ htarget, ?_, himem', ?_⟩
  · rw [← hareg]; exact hreg
  · exact fetched_congr himem' _
  · show t.status = y.status
    rw [hstatus, ha]; rfl

/-- An instruction that completes is one in flight that passes its checks. -/
theorem Completes.afterAlu {r : InstrRec} {x : Int} {y z : State} (h : Completes r x y z) :
    AfterAlu (exRecordOf y r) y z := ⟨x, h.alu, h.access⟩

/-- Where the sequential meaning of an instruction faults: in its ALU, in its access, or in the fetch of the next
instruction. -/
theorem fault_of_exec {r : InstrRec} {y : State} {f : Fault} (hwf : r.op.wellFormed = true)
    (hsys : isSyscall r.op = false) (h : exec r.op y = .fault f) :
    alu y.cfg (exRecordOf y r) = raise f ∨
    ∃ x, alu y.cfg (exRecordOf y r) = .ok x ∧
      (access y (memRecordOf (exRecordOf y r) x) = raise f ∨
        ∃ z, AfterAccess (memRecordOf (exRecordOf y r) x) y z ∧
          checkInstrAddr y.cfg (targetOf y (memRecordOf (exRecordOf y r) x)) = raise f) := by
  rw [exec_eq_stagesOf r.op r.line y hsys, toOutcome_eq_fault, stagesOf_eq,
    nextEX_eq_ok.2 ⟨readsRs_lt hwf, readsRt_lt hwf, rfl⟩, ok_bind] at h
  obtain halu | ⟨x, halu, h⟩ := bind_eq_error.1 h
  · exact .inl halu
  refine .inr ⟨x, halu, ?_⟩
  obtain haccess | ⟨⟨v, a⟩, haccess, h⟩ := bind_eq_error.1 h
  · exact .inl haccess
  obtain ⟨t, hwrite⟩ := writeDest_ok a hwf (access_range haccess (alu_range halu))
  obtain ⟨hreg, hdata, -⟩ := writeDest_eq_ok hwrite
  have hareg : a.reg = y.reg := by obtain ⟨d, n, rfl, -⟩ := access_frame haccess; rfl
  refine .inr ⟨t, ⟨v, a, haccess, hareg ▸ hreg, hdata⟩, ?_⟩
  have hcfg : t.cfg = y.cfg := by rw [hdata.cfg, access_cfg haccess]
  rw [hwrite, ok_bind, goTo, fetch, imemRead, hcfg] at h
  simpa [bind_eq_error, raise] using h

end Sys2Proof.Machine
end

section
/-! A drained pipeline (spec/70_reset_and_hazards.md R285, R294): its next step, and the five steps that run the one
instruction at the program counter. -/

namespace Sys2Proof.Machine

/-! ### The next step of a drained pipeline -/

theorem executes_of_drained {s : State} (hd : s.Drained) (hrun : s.status = .running) : s.Executes := by
  obtain ⟨-, -, -, hwb⟩ := hd
  exact executes_of_idle hrun (.inl hwb)

theorem isJump_of_nop {i : Instr} (h : isNop i = true) : isJump i = false := by
  cases i <;> simp_all [isNop, isJump]

/-- R112: behind `NOP`s the next fetch is the sequential one. -/
theorem nextPc_of_drained {s : State} (hd : s.Drained) : nextPc s.pipe = s.pc + 4 := by
  obtain ⟨hid, -, hmem, -⟩ := hd
  have htaken := takenBranch_of_idle (.inl hmem)
  rw [nextPc_eq, isJump_of_nop hid, htaken]
  rfl

/-- Where the next address is valid, the `NOP`s behind IF stop nothing. -/
theorem step_of_drained {s : State} (hd : s.Drained) (hrun : s.status = .running) (hf : FetchOk s.cfg (s.pc + 4)) :
    ∃ t, step s = .next t ∧ t.pipe.idr.instr = s.pipe.ifr.instr ∧ t.pipe.ifr = fetched s (s.pc + 4) := by
  have he := executes_of_drained hd hrun
  have hnext := nextPc_of_drained hd
  obtain ⟨hid, hex, hmem, hwb⟩ := hd
  obtain ⟨hrs, hrt⟩ := IsIdle.readsNone (.inl hid)
  have hmemIdle := IsIdle.noEffect (.inl hmem)
  have hcommit : commit s = .ok s := commit_of_noDest (IsIdle.noEffect (.inl hwb)).noDest
  have hnextEX := nextEX_eq_ok (s := s) (d := s.pipe.idr).2 ⟨by simp [hrs], by simp [hrt], rfl⟩
  have hnextMEM := nextMEM_eq_ok (c := s.cfg).2 ⟨0, alu_of_idle s.cfg (.inl hex), rfl⟩
  have hnextWB := nextWB_of_noAccess hmemIdle.noLoad hmemIdle.noStore
  have hcycle := cycle_eq_ok.2 ⟨s, _, _, _, s, hcommit, by rw [hnext]; exact hf, hnextEX, hnextMEM, hnextWB, rfl⟩
  have h := (step_eq_next_of_executes he).2 ⟨_, hcycle, rfl⟩
  have hstall : ¬ stalls s.cfg s.pipe = true := mt stalls_iff.1 (not_loadUse_of_idle (.inl hid))
  have htaken : ¬ takenBranch s.pipe.memr = true := by simp [takenBranch_of_idle (.inl hmem)]
  refine ⟨_, h, ?_, by rw [step_ifr he h, if_neg hstall, hnext]⟩
  rw [step_idr he h, if_neg hstall, if_neg htaken, nextID, isJump_of_nop hid]
  rfl

/-- Settles O58: the placement is one slot and the IF record, and the step behind it is that of a drained pipeline. -/
theorem fetchWordIsTheNextInstruction : Obligations.FetchWordIsTheNextInstruction := by
  unfold Obligations.FetchWordIsTheNextInstruction
  intro s w
  refine ⟨fun i hi => ?placed, fun e hbad => ?rejected⟩
  case placed =>
    rw [withFetchWord_of_ok s hi]
    refine ⟨rfl, by rw [instrAt_placeAtPc, if_pos rfl], fun a ha => by rw [instrAt_placeAtPc, if_neg ha], rfl,
      fun hd hrun hf => ?_⟩
    obtain ⟨u, hu, hid, hif⟩ := step_of_drained (s := placeAtPc s ⟨i, none⟩) hd hrun hf
    exact ⟨u, hu, by rw [hid]; rfl, hif⟩
  case rejected => rw [withFetchWord_of_error s hbad, step_of_rejected rfl]

end Sys2Proof.Machine
end

section
/-! Five steps of a drained pipeline with one instruction in memory (spec/70_reset_and_hazards.md R285, R294): the
instruction passes ID, EX, MEM and WB, and behind it nothing is fetched but `NOP`, or a `J` over and over. -/

namespace Sys2Proof.Machine

/-! ### What is fetched behind the instruction -/

/-- A drained machine about to run the one instruction in its memory, with room to fetch behind it and behind its target. -/
structure RunsAlone (s : State) : Prop where
  inv : s.Inv
  running : s.status = .running
  drained : s.Drained
  alone : s.AloneAtPc
  room : s.pc + 20 < 4294967296
  roomBehind : isJump s.pipe.ifr.instr.op = true ∨ isBranch s.pipe.ifr.instr.op = true →
    FetchOk s.cfg s.pipe.ifr.instr.op.imm → s.pipe.ifr.instr.op.imm + 16 < 4294967296

/-- `k` steps from `s` lead to `p`, which runs on. -/
structure Reaches (s : State) (k : Nat) (p : State) : Prop where
  run : runSteps k s = .next p
  inv : p.Inv
  running : p.status = .running
  imem : p.imem = s.imem
  cfg : p.cfg = s.cfg

/-- What may stand behind the instruction at the program counter of `s`: a `NOP`, or that instruction again, a `J` to a
valid address. -/
def Quiet (s : State) (i : Instr) : Prop :=
  isNop i = true ∨ (i = s.pipe.ifr.instr.op ∧ isJump i = true ∧ FetchOk s.cfg i.imm)

theorem Quiet.isIdle {s : State} {i : Instr} (h : Quiet s i) : IsIdle i := h.imp id fun ⟨_, hjump, _⟩ => hjump

/-- IF and ID of `p` hold nothing but what is quiet, there is room for `n` more fetches, and IF has passed the
instruction of `s`, unless that is a `J` to a valid address. -/
structure Front (s p : State) (n : Nat) : Prop where
  id : Quiet s p.pipe.idr.instr.op
  place : s.pc < p.pc ∨ (isJump s.pipe.ifr.instr.op = true ∧ FetchOk s.cfg s.pipe.ifr.instr.op.imm)
  room : p.pc + 4 * n < 4294967296

theorem Reaches.executes {s p : State} {k : Nat} (hp : Reaches s k p) (hwb : IsIdle p.pipe.wbr.instr.op) : p.Executes :=
  executes_of_idle hp.running hwb

theorem Reaches.step {s p p' yE : State} {k : Nat} (hp : Reaches s k p) (hm : Moves p p' yE)
    (hwb : IsIdle p.pipe.wbr.instr.op) : Reaches s (k + 1) p' where
  run := by rw [runSteps_add 1 hp.run, runSteps_succ_of_next hm.step]; rfl
  inv := hm.inv
  running := by rw [hm.status, hwb.noSyscall]; rfl
  imem := hm.imem.trans hp.imem
  cfg := hm.cfg.trans hp.cfg

/-- A fault behind `k` steps is the fault of any longer run. -/
theorem Reaches.fault {s p : State} {k : Nat} {f : Fault} (hp : Reaches s k p) (h : Machine.step p = .fault f) (j : Nat) :
    runSteps (k + (j + 1)) s = .fault f := by rw [runSteps_add _ hp.run, runSteps_succ_of_fault h]

/-- The next fetch behind a quiet front is valid. -/
theorem Front.fetch {p : State} {k n : Nat} (hfront : Front s p (n + 1)) (hp : Reaches s k p)
    (htaken : takenBranch p.pipe.memr = false) : FetchOk p.cfg (nextPc p.pipe) := by
  obtain ⟨hlo, hhi, hal⟩ := hp.inv.pcValid
  have hroom := hfront.room
  rw [nextPc_eq, htaken]
  obtain hnop | ⟨-, hjump, hfetch⟩ := hfront.id
  · rw [isJump_of_nop hnop]
    show FetchOk p.cfg (p.pc + 4)
    unfold FetchOk
    omega
  · rw [hjump, hp.cfg]
    exact hfetch

section
variable {s : State} (hs : RunsAlone s)
include hs

/-- The instruction in IF is a quiet one. -/
theorem RunsAlone.quiet_if {p : State} {k n : Nat} (hp : Reaches s k p) (hfront : Front s p n) :
    Quiet s p.pipe.ifr.instr.op := by
  have hif : p.pipe.ifr.instr = instrAt s p.pc.toNat := by
    have hinstr := congrArg IFRec.instr hp.inv.ifMirrors
    rwa [fetched_congr hp.imem] at hinstr
  by_cases hpc : p.pc = s.pc
  · obtain hlt | ⟨hjump, hfetch⟩ := hfront.place
    · omega
    · have hsame : p.pipe.ifr.instr = s.pipe.ifr.instr := by
        rw [hif, hpc]; exact (congrArg IFRec.instr hs.inv.ifMirrors).symm
      rw [hsame]
      exact .inr ⟨rfl, hjump, hfetch⟩
  · refine .inl ?_
    rw [hif]
    obtain ⟨hlo, -, -⟩ := hp.inv.pcValid
    exact hs.alone _ (by omega)

/-- A step keeps the front quiet. -/
theorem RunsAlone.front_step {p p' yE : State} {k n : Nat} (hp : Reaches s k p) (hn : n ≤ 3)
    (hfront : Front s p (n + 1)) (htaken : takenBranch p.pipe.memr = false) (hm : Moves p p' yE) : Front s p' n := by
  have hload := not_loadUse_of_idle hfront.id.isIdle
  have hquiet := hs.quiet_if hp hfront
  have hid := hm.idr htaken hload
  have hpc : p'.pc = nextPc p.pipe := congrArg IFRec.pc (hm.ifr hload)
  rw [nextID] at hid
  rw [nextPc_eq, htaken] at hpc
  obtain hnop | ⟨hsame, hjump, hfetch⟩ := hfront.id
  · rw [isJump_of_nop hnop] at hid hpc
    have hpc : p'.pc = p.pc + 4 := hpc
    have hroom := hfront.room
    exact ⟨by rw [hid]; exact hquiet, hfront.place.imp_left fun h => by omega, by push_cast at hroom; omega⟩
  · rw [hjump] at hid hpc
    have hpc : p'.pc = p.pipe.idr.instr.op.imm := hpc
    have hroom := hs.roomBehind (.inl (hsame ▸ hjump)) (hsame ▸ hfetch)
    exact ⟨by rw [hid]; exact .inl rfl, .inr (hsame ▸ ⟨hjump, hfetch⟩), by rw [hpc, hsame]; omega⟩

end

/-! ### The instruction in ID, EX, MEM and WB -/

/-- Behind one step the instruction is in ID. -/
structure InID (s p : State) : Prop extends Reaches s 1 p where
  flight : InFlight p s s
  id : p.pipe.idr.instr = s.pipe.ifr.instr
  ex : isNop p.pipe.exr.instr.op = true
  mem : isNop p.pipe.memr.instr.op = true
  wb : isNop p.pipe.wbr.instr.op = true
  ifr : p.pipe.ifr = fetched s (s.pc + 4)

/-- Behind two steps it is in EX, with its operands. -/
structure InEX (s p : State) : Prop extends Reaches s 2 p where
  flight : InFlight p s s
  ex : p.pipe.exr = exRecordOf s s.pipe.ifr.instr
  mem : isNop p.pipe.memr.instr.op = true
  wb : isNop p.pipe.wbr.instr.op = true
  front : Front s p 3
  ifr : isJump s.pipe.ifr.instr.op = true → p.pipe.ifr = fetched s s.pipe.ifr.instr.op.imm

/-- Behind three steps it is in MEM, with its ALU result `x`. -/
structure InMEM (s : State) (x : Int) (p : State) : Prop extends Reaches s 3 p where
  afterWb : AfterWb p s
  ex : IsIdle p.pipe.exr.instr.op
  mem : p.pipe.memr = memRecordOf (exRecordOf s s.pipe.ifr.instr) x
  wb : isNop p.pipe.wbr.instr.op = true
  front : Front s p 2

/-- Behind four steps it is in WB, `z` is what it leaves, and the target of a taken branch is fetched. -/
structure InWB (s : State) (x : Int) (z p : State) : Prop extends Reaches s 4 p where
  flight : InFlight p z z
  id : IsIdle p.pipe.idr.instr.op
  ex : IsIdle p.pipe.exr.instr.op
  mem : IsIdle p.pipe.memr.instr.op
  wb : p.pipe.wbr.instr = s.pipe.ifr.instr
  fetch : FetchOk p.cfg (nextPc p.pipe)
  ifr : takenBranch (memRecordOf (exRecordOf s s.pipe.ifr.instr) x) = true →
    p.pipe.ifr = fetched s s.pipe.ifr.instr.op.imm

/-- R112: behind a taken branch in MEM no jump is in ID here, so the branch target is fetched. -/
theorem InMEM.nextPc_of_taken {s p : State} {x : Int} (hp : InMEM s x p)
    (htaken : takenBranch (memRecordOf (exRecordOf s s.pipe.ifr.instr) x) = true) :
    isNop p.pipe.idr.instr.op = true ∧ nextPc p.pipe = s.pipe.ifr.instr.op.imm := by
  obtain ⟨-, hnojump⟩ := isBranch_of_taken htaken
  obtain ⟨-, htarget⟩ := targetOf_of_taken htaken
  have hnop : isNop p.pipe.idr.instr.op = true := hp.front.id.resolve_right fun ⟨hsame, hjump, _⟩ => by
    rw [hsame] at hjump; exact absurd (hnojump.symm.trans hjump) (by decide)
  refine ⟨hnop, ?_⟩
  rw [nextPc_eq, isJump_of_nop hnop, hp.mem, htaken]
  exact htarget

section
variable {s : State} (hs : RunsAlone s)
include hs

theorem RunsAlone.inID : ∃ p, InID s p := by
  have hp : Reaches s 0 s := ⟨rfl, hs.inv, hs.running, rfl, rfl⟩
  obtain ⟨hid, hex, hmem, hwb⟩ := hs.drained
  have hexIdle : IsIdle s.pipe.exr.instr.op := .inl hex
  have hmemIdle : IsIdle s.pipe.memr.instr.op := .inl hmem
  have hwbIdle : IsIdle s.pipe.wbr.instr.op := .inl hwb
  have hflight := inFlight_of_idle hmemIdle hwbIdle
  have htaken := takenBranch_of_idle hmemIdle
  have hload := not_loadUse_of_idle (p := s) (.inl hid)
  have hpc := nextPc_of_drained hs.drained
  obtain ⟨hlo, hhi, hal⟩ := hs.inv.pcValid
  have hroom := hs.room
  have hfetch : FetchOk s.cfg (nextPc s.pipe) := by rw [hpc]; unfold FetchOk; omega
  obtain ⟨p, hm⟩ := hflight.moves hs.inv (hp.executes hwbIdle) hfetch ⟨0, alu_of_idle s.cfg hexIdle⟩
  exact ⟨p, {
    toReaches := hp.step hm hwbIdle
    flight := hm.inFlight (afterAlu_of_idle hexIdle s) htaken
    id := by rw [hm.idr htaken hload, nextID, isJump_of_nop hid]; rfl
    ex := by rw [hm.exInstr htaken hload]; exact hid
    mem := by rw [hm.memInstr htaken]; exact hex
    wb := by rw [hm.wbInstr]; exact hmem
    ifr := by rw [hm.ifr hload, hpc, fetched_congr hm.imem] }⟩

/-- The instruction moves to EX, if it is no jump to an invalid address. -/
theorem RunsAlone.inEX {p : State} (hp : InID s p)
    (hjump : isJump s.pipe.ifr.instr.op = true → FetchOk s.cfg s.pipe.ifr.instr.op.imm) : ∃ p', InEX s p' := by
  have hexIdle : IsIdle p.pipe.exr.instr.op := .inl hp.ex
  have hmemIdle : IsIdle p.pipe.memr.instr.op := .inl hp.mem
  have hwbIdle : IsIdle p.pipe.wbr.instr.op := .inl hp.wb
  have htaken := takenBranch_of_idle hmemIdle
  have hload := not_loadUse_of_noLoad hexIdle.noEffect.noLoad
  have hpc := nextPc_eq p.pipe
  rw [htaken, hp.id] at hpc
  have hifpc : p.pipe.ifr.pc = s.pc + 4 := congrArg IFRec.pc hp.ifr
  obtain ⟨hlo, hhi, hal⟩ := hs.inv.pcValid
  have hroom := hs.room
  have hfetch : FetchOk p.cfg (nextPc p.pipe) := by
    rw [hpc, hifpc, hp.cfg]
    split
    · exact hjump ‹_›
    · show FetchOk s.cfg (s.pc + 4 + 4)
      unfold FetchOk
      omega
  obtain ⟨p', hm⟩ := hp.flight.moves hp.inv (hp.executes hwbIdle) hfetch ⟨0, alu_of_idle p.cfg hexIdle⟩
  have hex := afterAlu_of_idle hexIdle s
  have hifr := hm.ifr hload
  have hifrpc : p'.pc = nextPc p.pipe := congrArg IFRec.pc hifr
  have hid : p'.pipe.idr.instr = if isJump s.pipe.ifr.instr.op then .bubble else p.pipe.ifr.instr := by
    rw [hm.idr htaken hload, nextID, hp.id]
    split <;> rfl
  have himem : p'.imem = s.imem := hm.imem.trans hp.imem
  refine ⟨p', {
    toReaches := hp.step hm hwbIdle
    flight := hm.inFlight hex htaken
    ex := by
      rw [hm.exr hex htaken hload (by simp [hexIdle.noEffect.noDest]) (by simp [hmemIdle.noEffect.noDest]), hp.id]
    mem := by rw [hm.memInstr htaken]; exact hp.ex
    wb := by rw [hm.wbInstr]; exact hp.mem
    front := ?front
    ifr := fun hj => by rw [hifr, hpc, hj, fetched_congr himem]; rfl }⟩
  case front =>
    by_cases hj : isJump s.pipe.ifr.instr.op = true
    · rw [if_pos hj] at hid hpc
      have hfetchT := hjump hj
      have hroomT := hs.roomBehind (.inl hj) hfetchT
      exact ⟨by rw [hid]; exact .inl rfl, .inr ⟨hj, hfetchT⟩, by rw [hifrpc, hpc]; omega⟩
    · rw [if_neg hj] at hid hpc
      have hpc : p'.pc = s.pc + 8 := by rw [hifrpc, hpc, hifpc]; show s.pc + 4 + 4 = _; omega
      refine ⟨.inl ?_, .inl (by omega), by omega⟩
      rw [hid, hp.ifr]
      exact hs.alone _ (by omega)

/-- The instruction passes the ALU's check and moves to MEM. -/
theorem RunsAlone.inMEM {p : State} {x : Int} (hp : InEX s p)
    (halu : alu s.cfg (exRecordOf s s.pipe.ifr.instr) = .ok x) : ∃ p', InMEM s x p' := by
  have hmemIdle : IsIdle p.pipe.memr.instr.op := .inl hp.mem
  have hwbIdle : IsIdle p.pipe.wbr.instr.op := .inl hp.wb
  have htaken := takenBranch_of_idle hmemIdle
  have halu : alu p.cfg p.pipe.exr = .ok x := by rw [hp.ex, hp.cfg, halu]
  obtain ⟨p', hm⟩ := hp.flight.moves hp.inv (hp.executes hwbIdle) (hp.front.fetch hp.toReaches htaken) ⟨x, halu⟩
  exact ⟨p', {
    toReaches := hp.step hm hwbIdle
    afterWb := hm.wb
    ex := by rw [hm.exInstr htaken (not_loadUse_of_idle hp.front.id.isIdle)]; exact hp.front.id.isIdle
    mem := by rw [hm.memr halu htaken, hp.ex]
    wb := by rw [hm.wbInstr]; exact hp.mem
    front := hs.front_step hp.toReaches (by omega) hp.front htaken hm }⟩

/-- The instruction makes its access and moves to WB, if it is no branch to an invalid address. -/
theorem RunsAlone.inWB {p z : State} {x : Int} (hp : InMEM s x p)
    (haccess : AfterAccess (memRecordOf (exRecordOf s s.pipe.ifr.instr) x) s z)
    (hbranch : takenBranch (memRecordOf (exRecordOf s s.pipe.ifr.instr) x) = true →
      FetchOk s.cfg s.pipe.ifr.instr.op.imm) : ∃ p', InWB s x z p' := by
  have hwbIdle : IsIdle p.pipe.wbr.instr.op := .inl hp.wb
  have hidIdle := hp.front.id.isIdle
  have hload := not_loadUse_of_idle hidIdle
  have hflight : InFlight p s z := ⟨hp.afterWb, by rw [hp.mem]; exact haccess⟩
  have hex := afterAlu_of_idle hp.ex z
  have hmoves (hfetch : FetchOk p.cfg (nextPc p.pipe)) :=
    hflight.moves hp.inv (hp.executes hwbIdle) hfetch ⟨0, alu_of_idle p.cfg hp.ex⟩
  by_cases htaken : takenBranch p.pipe.memr = true
  · have htaken' := hp.mem ▸ htaken
    obtain ⟨-, hpc⟩ := hp.nextPc_of_taken htaken'
    have hvalid := hbranch htaken'
    obtain ⟨hisBranch, -⟩ := isBranch_of_taken htaken'
    have hroom := hs.roomBehind (.inr hisBranch) hvalid
    obtain ⟨p', hm⟩ := hmoves (by rw [hpc, hp.cfg]; exact hvalid)
    obtain ⟨hid', hex', hmem'⟩ := hm.squashed htaken hload
    have hreach := hp.step hm hwbIdle
    have hidle : IsIdle InstrRec.bubble.op := .inl rfl
    have hidIdle' : IsIdle p'.pipe.idr.instr.op := by rw [hid']; exact hidle
    have hmemIdle' : IsIdle p'.pipe.memr.instr.op := by rw [hmem']; exact hidle
    have hifr' := hm.ifr hload
    refine ⟨p', hreach, ⟨hm.wb, (afterAccess_of_noEffect hmemIdle'.noEffect).2 ⟨rfl, .refl z⟩⟩, hidIdle',
      by rw [hex']; exact hidle, hmemIdle', by rw [hm.wbInstr, hp.mem]; rfl, ?_,
      fun _ => by rw [hifr', hpc, fetched_congr hreach.imem]⟩
    rw [nextPc_eq, takenBranch_of_idle hmemIdle', hid', hifr', hpc, hreach.cfg]
    show FetchOk s.cfg (s.pipe.ifr.instr.op.imm + 4)
    unfold FetchOk at hvalid ⊢
    omega
  · have htaken := Bool.eq_false_iff.2 htaken
    obtain ⟨p', hm⟩ := hmoves (hp.front.fetch hp.toReaches htaken)
    have hreach := hp.step hm hwbIdle
    have hfront := hs.front_step hp.toReaches (by omega) hp.front htaken hm
    have hmemIdle' : IsIdle p'.pipe.memr.instr.op := by rw [hm.memInstr htaken]; exact hp.ex
    exact ⟨p', hreach, hm.inFlight hex htaken, hfront.id.isIdle, by rw [hm.exInstr htaken hload]; exact hidIdle,
      hmemIdle', by rw [hm.wbInstr, hp.mem]; rfl, hfront.fetch hreach (takenBranch_of_idle hmemIdle'),
      fun h => absurd (hp.mem ▸ htaken) (by simp [h])⟩

omit hs in
/-- The instruction commits, or halts the machine where it stands. -/
theorem InWB.commits {p z : State} {x : Int} (hp : InWB s x z p) :
    ∃ u, runSteps 5 s = .next u ∧ u.reg = z.reg ∧ SameData z u ∧
      u.status = if isSyscall s.pipe.ifr.instr.op then .halted else .running := by
  have hrun (u : State) (h : step p = .next u) : runSteps 5 s = .next u := by
    rw [show (5 : Nat) = 4 + 1 from rfl, runSteps_add 1 hp.run, runSteps_succ_of_next h]; rfl
  by_cases hhalt : isSyscall p.pipe.wbr.instr.op = true ∧ p.cfg.haltBeforeFinalStep = true
  · obtain ⟨hsys, hswitch⟩ := hhalt
    have hreg := hp.flight.wb.reg
    rw [(noEffect_of_syscall hsys).noDest, written_none] at hreg
    rw [hp.wb] at hsys
    exact ⟨_, hrun _ (step_haltsBefore hp.running (by rw [hp.wb, hsys]) hswitch), hreg.symm,
      hp.flight.wb.data.symm.trans ⟨rfl, rfl, rfl⟩, by rw [hsys]; rfl⟩
  · have he : p.Executes := ⟨hp.running, hhalt⟩
    obtain ⟨u, hm⟩ := hp.flight.moves hp.inv he hp.fetch ⟨0, alu_of_idle p.cfg hp.ex⟩
    exact ⟨u, hrun u hm.step, hp.flight.step_reg he hm.step, hm.wb.data.symm, by rw [hm.status, hp.wb]⟩

/-- An instruction that passes its checks: what the five steps leave, and the address it goes to is fetched. -/
theorem RunsAlone.completes {z : State} {x : Int} (halu : alu s.cfg (exRecordOf s s.pipe.ifr.instr) = .ok x)
    (haccess : AfterAccess (memRecordOf (exRecordOf s s.pipe.ifr.instr) x) s z)
    (htarget : FetchOk s.cfg (targetOf s (memRecordOf (exRecordOf s s.pipe.ifr.instr) x))) :
    (∃ u, runSteps 5 s = .next u ∧ u.reg = z.reg ∧ SameData z u ∧
      u.status = if isSyscall s.pipe.ifr.instr.op then .halted else .running) ∧
    ∃ n v, n ≤ 4 ∧ runSteps n s = .next v ∧
      v.pipe.ifr = fetched s (targetOf s (memRecordOf (exRecordOf s s.pipe.ifr.instr) x)) := by
  obtain ⟨p1, h1⟩ := hs.inID
  obtain ⟨p2, h2⟩ := hs.inEX h1 fun hj => targetOf_of_jump hj ▸ htarget
  obtain ⟨p3, h3⟩ := hs.inMEM h2 halu
  obtain ⟨p4, h4⟩ := hs.inWB h3 haccess fun ht => (targetOf_of_taken ht).1 ▸ htarget
  refine ⟨h4.commits, ?_⟩
  by_cases hj : isJump s.pipe.ifr.instr.op = true
  · exact ⟨2, p2, by omega, h2.run, by rw [h2.ifr hj, targetOf_of_jump hj]⟩
  by_cases ht : takenBranch (memRecordOf (exRecordOf s s.pipe.ifr.instr) x) = true
  · exact ⟨4, p4, by omega, h4.run, by rw [h4.ifr ht, (targetOf_of_taken ht).1]⟩
  · exact ⟨1, p1, by omega, h1.run,
      by rw [h1.ifr, targetOf_of_untaken (Bool.eq_false_iff.2 hj) (Bool.eq_false_iff.2 ht)]⟩

/-- Where the instruction faults, the pipeline stops with its fault in the stage that raises it. -/
theorem RunsAlone.faults {f : Fault} (h : exec s.pipe.ifr.instr.op s = .fault f) : runSteps 5 s = .fault f := by
  obtain ⟨p1, h1⟩ := hs.inID
  have hsys : isSyscall s.pipe.ifr.instr.op = false :=
    Bool.eq_false_iff.2 fun hsys => by rw [exec_of_syscall hsys] at h; cases h
  have hwf : s.pipe.ifr.instr.op.wellFormed = true := by
    rw [hs.inv.ifMirrors]; exact hs.inv.instrAt_wellFormed _
  have hfault := fault_of_exec hwf hsys h
  by_cases hj : isJump s.pipe.ifr.instr.op = true
  · have hidle : IsIdle s.pipe.ifr.instr.op := .inr hj
    have halu0 : alu s.cfg (exRecordOf s s.pipe.ifr.instr) = .ok 0 := alu_of_idle s.cfg hidle
    have hstop : checkInstrAddr s.cfg s.pipe.ifr.instr.op.imm = raise f := by
      obtain halu | ⟨x, halu, haccess | ⟨z, -, htarget⟩⟩ := hfault
      · cases halu0.symm.trans halu
      · rw [access_of_noAccess s hidle.noEffect.noLoad hidle.noEffect.noStore] at haccess; cases haccess
      · rwa [targetOf_of_jump hj] at htarget
    have hpc : nextPc p1.pipe = s.pipe.ifr.instr.op.imm := by rw [nextPc_eq, h1.id, hj]; rfl
    exact h1.fault (step_eq_fault_of_nextPc h1.inv (h1.executes (.inl h1.wb)) (by rw [hpc, h1.cfg, hstop])) 3
  obtain ⟨p2, h2⟩ := hs.inEX h1 fun h => absurd h hj
  have he2 := h2.executes (.inl h2.wb)
  have hfetch2 := h2.front.fetch h2.toReaches (takenBranch_of_idle (.inl h2.mem))
  obtain halu | ⟨x, halu, hlater⟩ := hfault
  · exact h2.fault (step_eq_fault_of_alu h2.inv he2 ⟨_, fetch_ok hfetch2⟩ (by rw [h2.ex, h2.cfg, halu])) 2
  obtain ⟨p3, h3⟩ := hs.inMEM h2 halu
  have he3 := h3.executes (.inl h3.wb)
  obtain haccess | ⟨z, -, htarget⟩ := hlater
  · have htaken : takenBranch p3.pipe.memr = false := Bool.eq_false_iff.2 fun ht => by
      have hbranch := noEffect_of_branch (isBranch_of_taken (h3.mem ▸ ht)).1
      rw [access_of_noAccess s hbranch.noLoad hbranch.noStore] at haccess
      cases haccess
    exact h3.fault (step_eq_fault_of_access h3.afterWb h3.inv he3 (h3.front.fetch h3.toReaches htaken)
      ⟨0, alu_of_idle _ h3.ex⟩ (by rw [h3.mem, haccess])) 1
  · by_cases ht : takenBranch (memRecordOf (exRecordOf s s.pipe.ifr.instr) x) = true
    · obtain ⟨-, hpc⟩ := h3.nextPc_of_taken ht
      rw [(targetOf_of_taken ht).1] at htarget
      exact h3.fault (step_eq_fault_of_nextPc h3.inv he3 (by rw [hpc, h3.cfg, htarget])) 1
    · rw [targetOf_of_untaken (Bool.eq_false_iff.2 hj) (Bool.eq_false_iff.2 ht)] at htarget
      obtain ⟨hlo, hhi, hal⟩ := hs.inv.pcValid
      have hroom := hs.room
      have hvalid : FetchOk s.cfg (s.pc + 4) := by unfold FetchOk; omega
      rw [checkInstrAddr_eq_ok.2 ⟨hvalid, rfl⟩] at htarget
      cases htarget

end

/-! ### The statement -/

/-- The five steps of a machine that runs one instruction alone do what its sequential meaning does. -/
theorem RunsAlone.runs {s : State} (hs : RunsAlone s) {t : State} (h : exec s.pipe.ifr.instr.op s = .next t) :
    (∃ u, runSteps 5 s = .next u ∧ u.reg = t.reg ∧ SameData t u ∧ u.status = t.status) ∧
      ∃ n v, n ≤ 4 ∧ runSteps n s = .next v ∧ v.pipe.ifr = t.pipe.ifr := by
  by_cases hsys : isSyscall s.pipe.ifr.instr.op = true
  · have hjump : isJump s.pipe.ifr.instr.op = false := by
      generalize s.pipe.ifr.instr.op = i at hsys
      cases i <;> simp_all [isSyscall, isJump]
    rw [exec_of_syscall hsys] at h
    cases h
    have hnone := noEffect_of_syscall hsys
    obtain ⟨hlo, hhi, hal⟩ := hs.inv.pcValid
    have hroom := hs.room
    have hnext : targetOf s (memRecordOf (exRecordOf s s.pipe.ifr.instr) 0) = s.pc + 4 :=
      targetOf_of_untaken hjump (Bool.eq_false_iff.2 fun ht => by
        obtain ⟨hbranch, -⟩ := isBranch_of_taken ht
        replace hbranch : isBranch s.pipe.ifr.instr.op = true := hbranch
        generalize s.pipe.ifr.instr.op = i at hsys hbranch
        cases i <;> simp_all [isSyscall, isBranch])
    obtain ⟨⟨u, hu, hreg, hdata, hstatus⟩, -⟩ := hs.completes (alu_of_syscall s.cfg hsys)
      ((afterAccess_of_noEffect hnone).2 ⟨rfl, .refl s⟩) (by rw [hnext]; unfold FetchOk; omega)
    rw [if_pos hsys] at hstatus
    exact ⟨⟨u, hu, hreg, ⟨hdata.dmem, hdata.fresh, hdata.cfg⟩, hstatus⟩, 0, s, by omega, rfl, rfl⟩
  · have hsys := Bool.eq_false_iff.2 hsys
    obtain ⟨x, hc⟩ := completes_of_exec hsys h
    obtain ⟨⟨u, hu, hreg, hdata, hstatus⟩, n, v, hn, hv, hifr⟩ := hs.completes hc.alu hc.access hc.target
    rw [hsys] at hstatus
    exact ⟨⟨u, hu, hreg, hdata, hstatus.trans (hc.status.trans hs.running).symm⟩, n, v, hn, hv, hifr.trans hc.ifr.symm⟩

theorem SameData.dataByte {s t : State} (h : SameData s t) (a : Nat) : dataByte t a = dataByte s a := by
  simp only [Machine.dataByte, h.dmem]

/-- A well-formed instruction placed at the program counter keeps the invariant. -/
theorem State.Inv.placeAtPc {s : State} (h : s.Inv) {r : InstrRec} (hwf : r.op.wellFormed = true) :
    (placeAtPc s r).Inv :=
  { h with
    imemCanonical := wf_putInstr _ _ _ h.imemCanonical
    imemWellFormed := fun e he => by
      obtain rfl | he := mem_putInstr he
      · obtain ⟨hlo, hhi, hal⟩ := h.pcValid
        have hpc : FetchOk s.cfg (s.pc.toNat : Int) := by unfold FetchOk; omega
        exact ⟨hpc, hwf⟩
      · exact h.imemWellFormed e he
    ifMirrors := by
      show IFRec.mk r s.pc = ⟨instrAt (Machine.placeAtPc s r) s.pc.toNat, s.pc⟩
      rw [instrAt_placeAtPc, if_pos rfl] }

/-- A legal word placed on the reset state runs alone. -/
theorem runsAlone_placed {w : PackedWord} {i : Instr} (h : decode w = .ok i)
    (hroom : isJump i = true ∨ isBranch i = true → FetchOk Config.p0 i.imm → i.imm + 16 < 4294967296) :
    RunsAlone (placeAtPc State.reset ⟨i, none⟩) where
  inv := (inv_resetWith admissible_p0).placeAtPc (spells_of_decode h).wellFormed
  running := rfl
  drained := ⟨rfl, rfl, rfl, rfl⟩
  alone := fun a ha => by
    have hne : a ≠ State.reset.pc.toNat := fun heq => ha (by rw [heq]; rfl)
    rw [instrAt_placeAtPc, if_neg hne]
    rfl
  room := show State.reset.pc + 20 < 4294967296 by decide
  roomBehind := hroom

/-- Settles O59: the two parts of `RunsAlone.runs` and `RunsAlone.faults`, from any such state and so from reset. -/
theorem drainedPipelineRunsTheInstruction : Obligations.DrainedPipelineRunsTheInstruction := by
  unfold Obligations.DrainedPipelineRunsTheInstruction
  refine ⟨fun s hinv hrun hd halone hroom hbehind => ?_, fun w i hi hroom => ?_⟩
  · have hs : RunsAlone s := ⟨hinv, hrun, hd, halone, hroom, hbehind⟩
    refine ⟨fun t ht => ?_, fun f => hs.faults⟩
    obtain ⟨⟨u, hu, hreg, hdata, hstatus⟩, hvisited⟩ := hs.runs ht
    exact ⟨u, hu, congrFun hreg, hdata.dataByte, hstatus, hdata.fresh, hvisited⟩
  · rw [withFetchWord_of_ok State.reset hi]
    have hs := runsAlone_placed hi hroom
    refine ⟨fun t ht => ?_, fun f => hs.faults⟩
    obtain ⟨⟨u, hu, hreg, hdata, hstatus⟩, -⟩ := hs.runs ht
    exact ⟨u, hu, congrFun hreg, hdata.dataByte, hstatus⟩

end Sys2Proof.Machine
end

section
/-! The sequential equivalence (spec/70_reset_and_hazards.md R294): a simulation. The pipeline follows the sequential
machine at `y` when the instructions in flight leave what `y` holds, and the instruction at the program counter of `y` is
in ID or in IF. -/

namespace Sys2Proof.Machine

/-! ### The hypotheses at one instruction -/

/-- R220, R221: a branch that is taken in the pipeline is taken by the sequential machine. -/
theorem takesBranch_of_taken {y : State} {x : Int} (halu : alu y.cfg (exRecordOf y y.pipe.ifr.instr) = .ok x)
    (h : takenBranch (memRecordOf (exRecordOf y y.pipe.ifr.instr) x) = true) : TakesBranch y := by
  have hdifference {rs rt : Nat} (hrs : readsRs y.pipe.ifr.instr.op = some rs) (hrt : readsRt y.pipe.ifr.instr.op = some rt)
      (hbranch : alu y.cfg (exRecordOf y y.pipe.ifr.instr) =
        onRsRt (fun a b => checkAlu (a - b)) (exRecordOf y y.pipe.ifr.instr)) : y.reg rs - y.reg rt = x := by
    rw [hbranch] at halu
    simp only [onRsRt, exRecordOf, hrs, hrt, Option.map_some, operand, ok_bind] at halu
    exact (checkAlu_eq_ok.1 halu).2
  unfold TakesBranch
  obtain ⟨rs, rt, im, hop, hzero⟩ | ⟨rs, rt, im, hop, hzero⟩ := takenBranch_iff.1 h
  all_goals
    replace hop : y.pipe.ifr.instr.op = _ := hop
    have hx := hdifference (rs := rs) (rt := rt) (by rw [hop]; rfl) (by rw [hop]; rfl)
      (by unfold alu; simp only [exRecordOf, hop]; rfl)
    replace hzero : zeroFlag x = _ := hzero
    rw [← hx, zeroFlag_sub] at hzero
    rw [hop]
    simpa using hzero

theorem isJump_of_branch {i : Instr} (h : isBranch i = true) : isJump i = false := by
  cases i <;> simp_all [isBranch, isJump]

theorem isJump_of_syscall {i : Instr} (h : isSyscall i = true) : isJump i = false := by
  cases i <;> simp_all [isSyscall, isJump]

theorem isBranch_of_takesBranch {y : State} (h : TakesBranch y) : isBranch y.pipe.ifr.instr.op = true := by
  unfold TakesBranch at h
  generalize y.pipe.ifr.instr.op = i at h
  cases i <;> simp_all [isBranch]

/-- A taken branch and a system call are no jumps, and have no effect of their own. -/
theorem noEffect_of_shadow {y : State} (h : TakesBranch y ∨ AtSyscall y) :
    isJump y.pipe.ifr.instr.op = false ∧ NoEffect y.pipe.ifr.instr.op := by
  obtain h | h := h
  · have hbranch := isBranch_of_takesBranch h
    exact ⟨isJump_of_branch hbranch, noEffect_of_branch hbranch⟩
  · exact ⟨isJump_of_syscall h, noEffect_of_syscall h⟩

/-! ### The states of the simulation -/

/-- The machine runs on, halts before the step that commits a system call, holds no system call in WB and MEM, and in
MEM neither a taken branch nor a producer of register 0. -/
structure Steady (p yM yE : State) : Prop where
  inv : p.Inv
  running : p.status = .running
  switch : p.cfg.haltBeforeFinalStep = true
  flight : InFlight p yM yE
  wbSys : isSyscall p.pipe.wbr.instr.op = false
  memSys : isSyscall p.pipe.memr.instr.op = false
  memZero : dest p.pipe.memr.instr.op ≠ some 0
  memTaken : takenBranch p.pipe.memr = false

/-- The instruction in EX is none that keeps the pipeline from being steady behind the step. -/
structure Calm (p : State) : Prop where
  noSyscall : isSyscall p.pipe.exr.instr.op = false
  zero : dest p.pipe.exr.instr.op ≠ some 0
  notTaken : ∀ x, alu p.cfg p.pipe.exr = .ok x → takenBranch (memRecordOf p.pipe.exr x) = false

/-- The sequential machine at `y` runs the program of `p`, and its IF mirrors the instruction memory. -/
structure Runs (p y : State) : Prop where
  running : y.status = .running
  imem : y.imem = p.imem
  ifr : y.pipe.ifr = fetched y y.pc
  pcValid : FetchOk y.cfg y.pc

/-- All instructions before `y` are in flight behind ID. -/
structure Tracks (p yM yE y : State) : Prop extends Steady p yM yE where
  ex : AfterAlu p.pipe.exr yE y
  calm : Calm p
  seq : Runs p y

/-- The instruction of `y` is in IF, and ID holds no instruction. -/
structure AtIF (p y : State) : Prop where
  id : isNop p.pipe.idr.instr.op = true
  pc : p.pc = y.pc

/-- The instruction of `y` is in ID, with the next one in IF. -/
structure AtID (p y : State) : Prop where
  id : p.pipe.idr.instr = y.pipe.ifr.instr
  pc : p.pc = y.pc + 4

/-- The instruction of `y` is in EX, with its operands; behind it is the instruction after it, or a squashed one and the
target of a jump. -/
structure Issued (p yM y : State) : Prop extends Steady p yM y where
  ex : p.pipe.exr = exRecordOf y y.pipe.ifr.instr
  seq : Runs p y
  id : p.pipe.idr.instr = if isJump y.pipe.ifr.instr.op then .bubble else instrAt y (y.pc + 4).toNat
  pc : p.pc = if isJump y.pipe.ifr.instr.op then y.pipe.ifr.instr.op.imm else y.pc + 8

/-- The taken branch or system call of `y` is in MEM, with ALU result `x`; the instructions behind it are on the wrong
path, and the one in EX passes its ALU check. -/
structure InShadow (p y : State) (x : Int) : Prop where
  inv : p.Inv
  running : p.status = .running
  switch : p.cfg.haltBeforeFinalStep = true
  flight : InFlight p y y
  wbSys : isSyscall p.pipe.wbr.instr.op = false
  mem : p.pipe.memr = memRecordOf (exRecordOf y y.pipe.ifr.instr) x
  ex : p.pipe.exr.instr = instrAt y (y.pc + 4).toNat
  alu : ∃ v, alu p.cfg p.pipe.exr = .ok v
  seq : Runs p y
  id : p.pipe.idr.instr = if isJump (opAt y (y.pc + 4)) then .bubble else instrAt y (y.pc + 8).toNat
  pc : p.pc = if isJump (opAt y (y.pc + 4)) then (opAt y (y.pc + 4)).imm else y.pc + 12

theorem Steady.executes {p yM yE : State} (h : Steady p yM yE) : p.Executes := ⟨h.running, by simp [h.wbSys]⟩

theorem Runs.step {p p' y yE : State} (h : Runs p y) (hm : Moves p p' yE) : Runs p' y :=
  ⟨h.running, h.imem.trans hm.imem.symm, h.ifr, h.pcValid⟩

/-- The instruction in IF, as `y` sees it. -/
theorem Runs.instr_if {p y : State} (h : Runs p y) (hinv : p.Inv) : p.pipe.ifr.instr = instrAt y p.pc.toNat := by
  have hmirror := congrArg IFRec.instr hinv.ifMirrors
  rwa [← fetched_congr h.imem] at hmirror

theorem Runs.instr {p y : State} (h : Runs p y) : y.pipe.ifr.instr = instrAt y y.pc.toNat := congrArg IFRec.instr h.ifr

theorem calm_of_idle {p : State} (h : IsIdle p.pipe.exr.instr.op) : Calm p :=
  ⟨h.noSyscall, by simp [h.noEffect.noDest], fun _ _ => h.notTaken _⟩

theorem bubble_isIdle : IsIdle InstrRec.bubble.op := .inl rfl

/-! ### One step of a steady pipeline -/

theorem Steady.moves {p yM yE y : State} (h : Steady p yM yE) (hex : AfterAlu p.pipe.exr yE y) (hcalm : Calm p)
    (hfetch : FetchOk p.cfg (nextPc p.pipe)) : ∃ p', Moves p p' yE ∧ Steady p' yE y := by
  obtain ⟨x, halu, -⟩ := id hex
  obtain ⟨-, hcfg⟩ := h.flight.cfg
  rw [hcfg] at halu
  obtain ⟨p', hm⟩ := h.flight.moves h.inv h.executes hfetch ⟨x, halu⟩
  have hmem := hm.memInstr h.memTaken
  exact ⟨p', hm, {
    inv := hm.inv
    running := by rw [hm.status, h.wbSys]; rfl
    switch := by rw [hm.cfg, h.switch]
    flight := hm.inFlight hex h.memTaken
    wbSys := by rw [hm.wbInstr, h.memSys]
    memSys := by rw [hmem, hcalm.noSyscall]
    memZero := by rw [hmem]; exact hcalm.zero
    memTaken := by rw [hm.memr halu h.memTaken]; exact hcalm.notTaken x halu }⟩

theorem Tracks.cfg {p yM yE y : State} (h : Tracks p yM yE y) : y.cfg = p.cfg := h.ex.cfg.trans h.flight.cfg.2

/-- A step that leaves a bubble in EX still tracks `y`. -/
theorem Tracks.step_idle {p p' yM yE y : State} (h : Tracks p yM yE y) (hm : Moves p p' yE) (hsteady : Steady p' yE y)
    (hidle : IsIdle p'.pipe.exr.instr.op) : Tracks p' yE y y :=
  { hsteady with ex := afterAlu_of_idle hidle y, calm := calm_of_idle hidle, seq := h.seq.step hm }

/-- The instruction of `y` moves from IF to ID. -/
theorem Tracks.fill {p yM yE y : State} (h : Tracks p yM yE y) (hif : AtIF p y) (hroom : y.pc + 16 < 4294967296) :
    ∃ p', step p = .next p' ∧ Tracks p' yE y y ∧ AtID p' y ∧ IsIdle p'.pipe.exr.instr.op := by
  have hidle : IsIdle p.pipe.idr.instr.op := .inl hif.id
  have hload := not_loadUse_of_idle hidle
  have hpc : nextPc p.pipe = y.pc + 4 := by
    rw [nextPc_eq, isJump_of_nop hif.id, h.memTaken]
    show p.pc + 4 = _
    rw [hif.pc]
  have hvalid := h.seq.pcValid
  rw [h.cfg] at hvalid
  obtain ⟨p', hm, hsteady⟩ := h.moves h.ex h.calm (by rw [hpc]; unfold FetchOk at hvalid ⊢; omega)
  have hidle' : IsIdle p'.pipe.exr.instr.op := by rw [hm.exInstr h.memTaken hload]; exact hidle
  refine ⟨p', hm.step, h.step_idle hm hsteady hidle', ⟨?_, ?_⟩, hidle'⟩
  · rw [hm.idr h.memTaken hload, nextID, isJump_of_nop hif.id, h.seq.instr]
    show p.pipe.ifr.instr = _
    rw [h.seq.instr_if h.inv, hif.pc]
  · exact (congrArg IFRec.pc (hm.ifr hload)).trans hpc

/-- R112: the next fetch behind an instruction in ID. -/
theorem Tracks.nextPc {p yM yE y : State} (h : Tracks p yM yE y) (hid : AtID p y) :
    Machine.nextPc p.pipe = if isJump y.pipe.ifr.instr.op then y.pipe.ifr.instr.op.imm else y.pc + 8 := by
  rw [nextPc_eq, h.memTaken, hid.id]
  have hpc : p.pipe.ifr.pc + 4 = y.pc + 8 := by rw [show p.pipe.ifr.pc = y.pc + 4 from hid.pc]; omega
  simp [hpc]

/-- A load-use stall holds it in ID. -/
theorem Tracks.stall {p yM yE y : State} (h : Tracks p yM yE y) (hid : AtID p y) (hload : LoadUse p)
    (hroom : y.pc + 16 < 4294967296) :
    ∃ p', step p = .next p' ∧ Tracks p' yE y y ∧ AtID p' y ∧ IsIdle p'.pipe.exr.instr.op := by
  have hjump := isJump_of_hitsEx hload.1
  rw [hid.id] at hjump
  have hpc := h.nextPc hid
  rw [hjump] at hpc
  replace hpc : Machine.nextPc p.pipe = y.pc + 8 := hpc
  have hvalid := h.seq.pcValid
  rw [h.cfg] at hvalid
  obtain ⟨p', hm, hsteady⟩ := h.moves h.ex h.calm (by rw [hpc]; unfold FetchOk at hvalid ⊢; omega)
  obtain ⟨hif', hid', hex'⟩ := hm.stalled hload
  have hidle' : IsIdle p'.pipe.exr.instr.op := by rw [hex']; exact bubble_isIdle
  have hatID : AtID p' y := ⟨by rw [hid', hid.id], by rw [State.pc, hif']; exact hid.pc⟩
  exact ⟨p', hm.step, h.step_idle hm hsteady hidle', hatID, hidle'⟩

/-- It moves to EX. -/
theorem Tracks.issue {p yM yE y : State} (h : Tracks p yM yE y) (hid : AtID p y) (hload : ¬ LoadUse p)
    (hroom : y.pc + 16 < 4294967296)
    (hjump : isJump y.pipe.ifr.instr.op = true → FetchOk y.cfg y.pipe.ifr.instr.op.imm) :
    ∃ p', step p = .next p' ∧ Issued p' yE y := by
  have hpc := h.nextPc hid
  have hvalid := h.seq.pcValid
  have hfetch : FetchOk p.cfg (Machine.nextPc p.pipe) := by
    rw [hpc, ← h.cfg]
    split
    · exact hjump ‹_›
    · unfold FetchOk at hvalid ⊢; omega
  obtain ⟨p', hm, hsteady⟩ := h.moves h.ex h.calm hfetch
  have hifInstr : p.pipe.ifr.instr = instrAt y (y.pc + 4).toNat := by rw [h.seq.instr_if h.inv, hid.pc]
  exact ⟨p', hm.step, { hsteady with
    ex := by rw [hm.exr h.ex h.memTaken hload h.calm.zero h.memZero, hid.id]
    seq := h.seq.step hm
    id := by
      rw [hm.idr h.memTaken hload, nextID, hid.id, ← hifInstr]
      split <;> rfl
    pc := (congrArg IFRec.pc (hm.ifr hload)).trans hpc }⟩

/-! ### Behind the issue -/

/-- What the sequential machine goes to. -/
theorem Completes.pc {y z : State} {r : InstrRec} {x : Int} (h : Completes r x y z) :
    z.pc = targetOf y (memRecordOf (exRecordOf y r) x) := congrArg IFRec.pc h.ifr

/-- What the sequential machine runs next. -/
theorem Completes.runs {p y z : State} {x : Int} (hc : Completes y.pipe.ifr.instr x y z) (h : Runs p y) : Runs p z where
  running := hc.status.trans h.running
  imem := hc.imem.trans h.imem
  ifr := by rw [hc.pc, hc.ifr, fetched_congr hc.imem]
  pcValid := by rw [hc.afterAlu.cfg, hc.pc]; exact hc.target

/-- Where no branch is taken, the next instruction of the sequential machine is in ID, or behind a jump in IF. -/
theorem Issued.tracks_untaken {p yM y z : State} {x : Int} (h : Issued p yM y) (hc : Completes y.pipe.ifr.instr x y z)
    (hsys : isSyscall y.pipe.ifr.instr.op = false) (hzero : dest y.pipe.ifr.instr.op ≠ some 0)
    (htaken : takenBranch (memRecordOf (exRecordOf y y.pipe.ifr.instr) x) = false) :
    Tracks p yM y z ∧ (AtIF p z ∨ AtID p z) := by
  obtain ⟨-, hcfg⟩ := h.flight.cfg
  have hinstr : p.pipe.exr.instr = y.pipe.ifr.instr := by rw [h.ex]; rfl
  refine ⟨{ h.toSteady with
    ex := by rw [h.ex]; exact hc.afterAlu
    calm := ⟨by rw [hinstr, hsys], by rw [hinstr]; exact hzero, fun v hv => ?_⟩
    seq := hc.runs h.seq }, ?_⟩
  · rw [h.ex, ← hcfg] at hv
    cases hc.alu.symm.trans hv
    rw [h.ex, htaken]
  have hzpc := hc.pc
  have hid := h.id
  have hpc := h.pc
  by_cases hj : isJump y.pipe.ifr.instr.op = true
  · rw [if_pos hj] at hid hpc
    exact .inl ⟨by rw [hid]; rfl, by rw [hpc, hzpc, targetOf_of_jump hj]⟩
  · rw [if_neg hj] at hid hpc
    have hnext : z.pc = y.pc + 4 := hzpc.trans (targetOf_of_untaken (Bool.eq_false_iff.2 hj) htaken)
    refine .inr ⟨?_, by rw [hpc, hnext]; omega⟩
    rw [hid, hc.ifr, ← hzpc, hnext]
    rfl

/-- The instruction two behind a taken branch or system call moves to EX. -/
theorem Issued.shadow {p yM y : State} {x : Int} (h : Issued p yM y) (hz : HazardFreeAt y)
    (hshadow : TakesBranch y ∨ AtSyscall y) (halu : alu y.cfg (exRecordOf y y.pipe.ifr.instr) = .ok x) :
    ∃ p', step p = .next p' ∧ InShadow p' y x := by
  obtain ⟨hnojump, hnone⟩ := noEffect_of_shadow hshadow
  obtain ⟨hroom, -⟩ := hz.roomToFetch
  obtain ⟨-, hcfg⟩ := h.flight.cfg
  have hid := h.id
  have hpc := h.pc
  rw [hnojump] at hid hpc
  replace hid : p.pipe.idr.instr = instrAt y (y.pc + 4).toNat := hid
  replace hpc : p.pc = y.pc + 8 := hpc
  have hinstr : p.pipe.exr.instr = y.pipe.ifr.instr := by rw [h.ex]; rfl
  have hload : ¬ LoadUse p := not_loadUse_of_noLoad (by rw [hinstr]; exact hnone.noLoad)
  have hex : AfterAlu p.pipe.exr y y := by
    rw [h.ex]
    exact ⟨x, halu, (afterAccess_of_noEffect hnone).2 ⟨rfl, .refl y⟩⟩
  have halu : alu p.cfg p.pipe.exr = .ok x := by rw [h.ex, ← hcfg, halu]
  have hnext : nextPc p.pipe = if isJump (opAt y (y.pc + 4)) then (opAt y (y.pc + 4)).imm else y.pc + 12 := by
    rw [nextPc_eq, h.memTaken, hid, show p.pipe.ifr.pc = y.pc + 8 from hpc]
    simp only [Bool.false_eq_true, if_false, add_assoc]
    rfl
  have hvalid := h.seq.pcValid
  have hfetch : FetchOk p.cfg (nextPc p.pipe) := by
    rw [hnext, ← hcfg]
    split
    · exact hz.nextJumpValid hshadow ‹_›
    · unfold FetchOk at hvalid ⊢; omega
  obtain ⟨p', hm⟩ := h.flight.moves h.inv h.executes hfetch ⟨x, halu⟩
  have hexr' : p'.pipe.exr = exRecordOf y (instrAt y (y.pc + 4).toNat) := by
    rw [hm.exr hex h.memTaken hload (by simp [hinstr, hnone.noDest]) h.memZero, hid]
  have hifInstr : p.pipe.ifr.instr = instrAt y (y.pc + 8).toNat := by rw [h.seq.instr_if h.inv, hpc]
  exact ⟨p', hm.step, {
    inv := hm.inv
    running := by rw [hm.status, h.wbSys]; rfl
    switch := by rw [hm.cfg, h.switch]
    flight := hm.inFlight hex h.memTaken
    wbSys := by rw [hm.wbInstr, h.memSys]
    mem := by rw [hm.memr halu h.memTaken, h.ex]
    ex := by rw [hexr']; rfl
    alu := by rw [hexr', hm.cfg, ← hcfg]; exact hz.nextPassesAlu hshadow
    seq := h.seq.step hm
    id := by
      rw [hm.idr h.memTaken hload, nextID, hid, ← hifInstr]
      split <;> rfl
    pc := (congrArg IFRec.pc (hm.ifr hload)).trans hnext }⟩

theorem InShadow.executes {p y : State} {x : Int} (h : InShadow p y x) : p.Executes := ⟨h.running, by simp [h.wbSys]⟩

/-- A taken branch in MEM squashes what is behind it, and its target is in IF. -/
theorem InShadow.tracks_taken {p y z : State} {x : Int} (h : InShadow p y x) (hz : HazardFreeAt y)
    (hc : Completes y.pipe.ifr.instr x y z)
    (htaken : takenBranch (memRecordOf (exRecordOf y y.pipe.ifr.instr) x) = true) :
    ∃ p', step p = .next p' ∧ Tracks p' y y z ∧ AtIF p' z := by
  have htakes := takesBranch_of_taken hc.alu htaken
  have hbranch := isBranch_of_takesBranch htakes
  have hnone := noEffect_of_branch hbranch
  obtain ⟨hreg, hdata⟩ := (afterAccess_of_noEffect hnone).1 hc.access
  obtain ⟨htarget, hbranchTarget⟩ := targetOf_of_taken htaken
  obtain ⟨-, hcfg⟩ := h.flight.cfg
  have hid := h.id
  have hmemTaken : takenBranch p.pipe.memr = true := by rw [h.mem, htaken]
  have hnojump : isJump p.pipe.idr.instr.op = false := by
    rw [hid]
    split
    · rfl
    · exact hz.noJumpInShadow htakes
  have hload : ¬ LoadUse p := by
    rintro ⟨hhits, hload⟩
    rw [h.ex] at hload
    have hidInstr : p.pipe.idr.instr = instrAt y (y.pc + 8).toNat := by
      rw [hid, if_neg]
      intro hjump
      exact absurd (IsIdle.noEffect (.inr hjump)).noLoad (by simp [hload])
    unfold HitsEx at hhits
    rw [h.ex, hidInstr] at hhits
    obtain ⟨k, hk, hreads, -⟩ | ⟨k, hk, hreads, -⟩ := hhits
    · exact (hz.noLoadUseInShadow htakes hload k hk).1 hreads
    · exact (hz.noLoadUseInShadow htakes hload k hk).2 hreads
  have hnext : nextPc p.pipe = z.pc := by
    rw [nextPc_eq, hnojump, hmemTaken, h.mem, hbranchTarget, ← htarget]
    exact (congrArg IFRec.pc hc.ifr).symm
  have hzvalid := (hc.runs h.seq).pcValid
  rw [hc.afterAlu.cfg, hcfg] at hzvalid
  obtain ⟨p', hm⟩ := h.flight.moves h.inv h.executes (by rw [hnext]; exact hzvalid) h.alu
  obtain ⟨hid', hex', hmem'⟩ := hm.squashed hmemTaken hload
  have hexIdle : IsIdle p'.pipe.exr.instr.op := by rw [hex']; exact bubble_isIdle
  have hmemIdle : IsIdle p'.pipe.memr.instr.op := by rw [hmem']; exact bubble_isIdle
  have hwb' : p'.pipe.wbr.instr = y.pipe.ifr.instr := by rw [hm.wbInstr, h.mem]; rfl
  refine ⟨p', hm.step, {
    inv := hm.inv
    running := by rw [hm.status, h.wbSys]; rfl
    switch := by rw [hm.cfg, h.switch]
    flight := ⟨hm.wb, (afterAccess_of_noEffect hmemIdle.noEffect).2 ⟨rfl, .refl y⟩⟩
    wbSys := by
      rw [hwb']
      generalize y.pipe.ifr.instr.op = i at hbranch
      cases i <;> simp_all [isBranch, isSyscall]
    memSys := hmemIdle.noSyscall
    memZero := by simp [hmemIdle.noEffect.noDest]
    memTaken := takenBranch_of_idle hmemIdle
    ex := ⟨0, alu_of_idle _ hexIdle, (afterAccess_of_noEffect hexIdle.noEffect).2 ⟨hreg, hdata⟩⟩
    calm := calm_of_idle hexIdle
    seq := (hc.runs h.seq).step hm }, ⟨by rw [hid']; rfl, (congrArg IFRec.pc (hm.ifr hload)).trans hnext⟩⟩

/-- A system call in MEM moves to WB, and the machine halts there with the registers and data memory of `y`. -/
theorem InShadow.halts {p y : State} {x : Int} (h : InShadow p y x) (hz : HazardFreeAt y) (hsys : AtSyscall y) :
    ∃ p', step p = .next p' ∧ step p' = .next (p'.withStatus .halted) ∧ AfterWb p' y ∧
      dest p'.pipe.wbr.instr.op = none := by
  obtain ⟨hroom, hroomJump⟩ := hz.roomToFetch
  obtain ⟨-, hcfg⟩ := h.flight.cfg
  have hid := h.id
  have hpc := h.pc
  have hmemTaken : takenBranch p.pipe.memr = false := Bool.eq_false_iff.2 fun ht => by
    have hbranch : isBranch y.pipe.ifr.instr.op = true := (isBranch_of_taken (h.mem ▸ ht)).1
    replace hsys : isSyscall y.pipe.ifr.instr.op = true := hsys
    generalize y.pipe.ifr.instr.op = i at hbranch hsys
    cases i <;> simp_all [isBranch, isSyscall]
  have hvalid := h.seq.pcValid
  have hfetch : FetchOk p.cfg (nextPc p.pipe) := by
    rw [nextPc_eq, hmemTaken, ← hcfg]
    by_cases hjump : isJump (opAt y (y.pc + 4)) = true
    · rw [if_pos hjump] at hid hpc
      have htarget := hz.nextJumpValid (.inr hsys) hjump
      have hroomTarget := hroomJump hsys hjump
      rw [hid]
      show FetchOk y.cfg (p.pc + 4)
      rw [hpc]
      unfold FetchOk at htarget ⊢
      omega
    · rw [if_neg hjump] at hid hpc
      rw [hid]
      by_cases hsecond : isJump (opAt y (y.pc + 8)) = true
      · rw [if_pos hsecond]
        exact hz.secondJumpValid hsys hsecond
      · rw [if_neg hsecond]
        show FetchOk y.cfg (p.pc + 4)
        rw [hpc]
        unfold FetchOk at hvalid ⊢
        omega
  obtain ⟨p', hm⟩ := h.flight.moves h.inv h.executes hfetch h.alu
  have hwb' : p'.pipe.wbr.instr = y.pipe.ifr.instr := by rw [hm.wbInstr, h.mem]; rfl
  have hrunning : p'.status = .running := by rw [hm.status, h.wbSys]; rfl
  exact ⟨p', hm.step, step_haltsBefore hrunning (by rw [hwb']; exact hsys) (by rw [hm.cfg, h.switch]), hm.wb,
    by rw [hwb']; exact (noEffect_of_syscall hsys).noDest⟩

/-! ### The runs -/

/-- The run of `p` halts with the registers and the data memory of `t`. -/
def Ends (p t : State) : Prop := ∃ u, p.HaltsIn u ∧ u.reg = t.reg ∧ u.dmem = t.dmem

theorem Ends.of_step {p p' t : State} (h : step p = .next p') (ht : Ends p' t) : Ends p t := by
  obtain ⟨u, ⟨n, hrun, hhalted⟩, hdata⟩ := ht
  exact ⟨u, ⟨n + 1, by rw [runSteps_succ_of_next h, hrun], hhalted⟩, hdata⟩

/-- In at most two steps the instruction of `y` is in EX. -/
theorem Tracks.ends_of_issued {p yM yE y t : State} (h : Tracks p yM yE y) (hfront : AtIF p y ∨ AtID p y)
    (hroom : y.pc + 16 < 4294967296)
    (hjump : isJump y.pipe.ifr.instr.op = true → FetchOk y.cfg y.pipe.ifr.instr.op.imm)
    (hissued : ∀ p' yM', Issued p' yM' y → Ends p' t) : Ends p t := by
  have of_id {p yM yE : State} (h : Tracks p yM yE y) (hid : AtID p y) (hload : ¬ LoadUse p) : Ends p t := by
    obtain ⟨p', hstep, hp'⟩ := h.issue hid hload hroom hjump
    exact .of_step hstep (hissued p' _ hp')
  have of_idle {p p' : State} (hp' : step p = .next p' ∧ Tracks p' yE y y ∧ AtID p' y ∧ IsIdle p'.pipe.exr.instr.op) :
      Ends p t := by
    obtain ⟨hstep, htracks, hid, hidle⟩ := hp'
    exact .of_step hstep (of_id htracks hid (not_loadUse_of_noLoad hidle.noEffect.noLoad))
  obtain hif | hid := hfront
  · obtain ⟨p', hp'⟩ := h.fill hif hroom
    exact of_idle hp'
  · by_cases hload : LoadUse p
    · obtain ⟨p', hp'⟩ := h.stall hid hload hroom
      exact of_idle hp'
    · exact of_id h hid hload

/-- A system call ends the run of the pipeline as it ends the sequential one. -/
theorem Issued.ends_of_syscall {p yM y : State} (h : Issued p yM y) (hz : HazardFreeAt y) (hsys : AtSyscall y) :
    Ends p (endRun y) := by
  obtain ⟨p1, hstep1, hshadow⟩ := h.shadow hz (.inr hsys) (alu_of_syscall _ hsys)
  obtain ⟨p2, hstep2, hhalt, hwb, hdest⟩ := hshadow.halts hz hsys
  have hreg := hwb.reg
  rw [hdest, written_none] at hreg
  refine .of_step hstep1 (.of_step hstep2 ⟨_, ⟨1, by rw [runSteps_succ_of_next hhalt]; rfl, rfl⟩, ?_, ?_⟩)
  · exact hreg.symm
  · exact hwb.data.dmem.symm

/-- A sequential run that answers, from a running machine: its first instruction completes, and the rest answers. -/
theorem seqRun_succ_eq_next {y t : State} {n : Nat} (h : y.status = .running) :
    seqRun (n + 1) y = .next t ↔ ∃ z, exec y.pipe.ifr.instr.op y = .next z ∧ seqRun n z = .next t := by
  simp only [seqRun, seqStep, h]
  cases exec y.pipe.ifr.instr.op y <;> simp

/-- A halted sequential machine stays as it is. -/
theorem seqRun_of_halted {y : State} (h : y.status = .halted) (n : Nat) : seqRun n y = .next y := by
  induction n with
  | zero => rfl
  | succ n ih => simp only [seqRun, seqStep, h, ih]

/-- The pipeline that tracks a sequential run which halts halts with it. -/
theorem Tracks.ends {n : Nat} {p yM yE y t : State} (h : Tracks p yM yE y) (hfront : AtIF p y ∨ AtID p y)
    (hrun : seqRun n y = .next t) (ht : t.status = .halted)
    (hz : ∀ k x, seqRun k y = .next x → x.status = .running → HazardFreeAt x) : Ends p t := by
  induction n generalizing p yM yE y with
  | zero =>
    cases hrun
    cases h.seq.running.symm.trans ht
  | succ n ih =>
    have hzy := hz 0 y rfl h.seq.running
    obtain ⟨hroom, -⟩ := hzy.roomToFetch
    obtain ⟨z, hexec, hrest⟩ := (seqRun_succ_eq_next h.seq.running).1 hrun
    by_cases hsys : AtSyscall y
    · rw [exec_of_syscall hsys] at hexec
      cases hexec
      cases (seqRun_of_halted rfl n).symm.trans hrest
      refine h.ends_of_issued hfront hroom (fun hj => ?_) fun p' yM' hp' => hp'.ends_of_syscall hzy hsys
      cases (isJump_of_syscall hsys).symm.trans hj
    · obtain ⟨x, hc⟩ := completes_of_exec (Bool.eq_false_iff.2 hsys) hexec
      have hzz (k : Nat) (x : State) (hk : seqRun k z = .next x) : x.status = .running → HazardFreeAt x :=
        hz (k + 1) x ((seqRun_succ_eq_next h.seq.running).2 ⟨z, hexec, hk⟩)
      refine h.ends_of_issued hfront hroom (fun hj => targetOf_of_jump hj ▸ hc.target) fun p' yM' hp' => ?_
      by_cases htaken : takenBranch (memRecordOf (exRecordOf y y.pipe.ifr.instr) x) = true
      · obtain ⟨p1, hstep1, hshadow⟩ := hp'.shadow hzy (.inl (takesBranch_of_taken hc.alu htaken)) hc.alu
        obtain ⟨p2, hstep2, htracks, hif⟩ := hshadow.tracks_taken hzy hc htaken
        exact .of_step hstep1 (.of_step hstep2 (ih htracks (.inl hif) hrest hzz))
      · obtain ⟨htracks, hfront'⟩ := hp'.tracks_untaken hc (Bool.eq_false_iff.2 hsys) hzy.noZeroDest
          (Bool.eq_false_iff.2 htaken)
        exact ih htracks hfront' hrest hzz

/-- A drained machine tracks itself. -/
theorem tracks_of_drained {s : State} (hinv : s.Inv) (hrun : s.status = .running) (hd : s.Drained)
    (hswitch : s.cfg.haltBeforeFinalStep = true) : Tracks s s s s ∧ AtIF s s := by
  obtain ⟨hid, hex, hmem, hwb⟩ := hd
  have hexIdle : IsIdle s.pipe.exr.instr.op := .inl hex
  have hmemIdle : IsIdle s.pipe.memr.instr.op := .inl hmem
  have hwbIdle : IsIdle s.pipe.wbr.instr.op := .inl hwb
  exact ⟨{
    inv := hinv, running := hrun, switch := hswitch
    flight := inFlight_of_idle hmemIdle hwbIdle
    wbSys := hwbIdle.noSyscall
    memSys := hmemIdle.noSyscall
    memZero := by simp [hmemIdle.noEffect.noDest]
    memTaken := takenBranch_of_idle hmemIdle
    ex := afterAlu_of_idle hexIdle s
    calm := calm_of_idle hexIdle
    seq := ⟨hrun, rfl, hinv.ifMirrors, hinv.pcValid⟩ }, hid, rfl⟩

/-- Settles O60: the loaded pipeline is drained and so tracks the sequential machine from the start. -/
theorem pipelineEqualsSequentialMachine : Obligations.PipelineEqualsSequentialMachine := by
  unfold Obligations.PipelineEqualsSequentialMachine
  intro s t n hinv hrunning hd hswitch hrun ht hz
  obtain ⟨htracks, hif⟩ := tracks_of_drained hinv hrunning hd hswitch
  obtain ⟨u, hhalts, hreg, hdmem⟩ := htracks.ends (.inl hif) hrun ht hz
  exact ⟨u, hhalts, congrFun hreg, fun a => by simp only [dataByte, hdmem]⟩

end Sys2Proof.Machine
end
